-- ==== Sys2Proof/Word.lean ====
section
/-! DEFINITION. The word types of CTB-CORE: a pixel channel or memory byte, a 16-bit register field, the 32-bit data
of the host port (R71, R72) and the 18-bit byte offset (R70). -/

namespace Sys2Proof

/-- A memory byte, a channel or a match byte (R17). -/
abbrev Byte := BitVec 8

/-- A 16-bit register field (R20). -/
abbrev Half := BitVec 16

/-- A 32-bit register or the data of a transaction (R72). -/
abbrev Word := BitVec 32

/-- An 18-bit byte offset from the platform base (R70, R72). -/
abbrev Offset := BitVec 18

end Sys2Proof
end

