-- ==== Sys2Proof/Config.lean ====
section
/-! DEFINITION. What an implementation of CTB-CORE fixes: the parameters of R9 and the constant of the ID register. -/

namespace Sys2Proof.Config

/-- The implementation parameters that rules use (R9, I12). They stand in `State`, where no step changes them, so that a
statement about every state is a statement about every implementation. -/
structure Params where
  /-- PIX_CAP: pixels of PIXBUF, bytes of MASKBUF. -/
  pixCap : Nat
  /-- LANES: reported by PARAM and used by nothing else. -/
  lanes : Nat
  deriving DecidableEq, Repr

/-- CTB-CORE 1 (R9, D15). -/
def Params.ctbCore1 : Params := { pixCap := 16384, lanes := 4 }

/-- The legal values of R9. -/
abbrev Params.Legal (p : Params) : Prop :=
  1 ≤ p.pixCap ∧ p.pixCap ≤ 16384 ∧ 1 ≤ p.lanes ∧ p.lanes ≤ 255

/-- The constant of the ID register, "CTB1" (R22). -/
def idValue : Word := 0x43544231

/-- BASE (R9, D44): OPEN, the platform address of offset 0. No rule's result depends on it. -/
opaque base : Nat

/-- HOST_PROTOCOL (R9, I10, D11): OPEN, the name of the pin-level protocol of the host port. No rule's result depends on it:
the port is specified at transaction level (R8, R71). -/
opaque hostProtocol : String

/-- CLOCK (R9, D45): OPEN, the clock frequency. No rule uses it. -/
opaque clock : Nat

end Sys2Proof.Config
end

