-- ==== Sys2Proof/Syntax.lean ====
section
/-! DEFINITION. The instructions of CTB-CORE: the command words a host writes to CTRL (R100, R101), one constructor per
row of the opcode table. Every operand sits in a register (R103), so only the row of the reserved codes 0x8 to 0xF has a
field of its own. -/

namespace Sys2Proof

/-- A command word, without the ignored bits (R100, R102). -/
inductive Instr where
  /-- CMD 0x0 (R125). -/
  | nop
  /-- CMD 0x1 (R145). -/
  | convert
  /-- CMD 0x2 (R166). -/
  | scorePix
  /-- CMD 0x3 (R167). -/
  | scoreHsv
  /-- CMD 0x4 (R183). -/
  | mask
  /-- CMD 0x5 (R197). -/
  | locate
  /-- CMD 0x6 (R199). -/
  | frame
  /-- CMD 0x7, reserved (R105, R127). -/
  | reserved7
  /-- CMD 0x8 to 0xF, reserved (R105, R127): `cmd` is CMD[3:0]. -/
  | reserved8F (cmd : BitVec 4)
  /-- SRST = 1, whatever CMD holds (R101, R126). -/
  | srst
  deriving DecidableEq, Repr

end Sys2Proof
end

