-- ==== Sys2Proof/WellFormed.lean ====
section
/-! DEFINITION. Which terms of `Instr` stand for command words. -/

namespace Sys2Proof

/-- The one check: the code of a RESERVED_8_F word is 0x8 to 0xF, that is, its bit 3 is 1 (opcode_table.json). -/
def Instr.wellFormed : Instr → Bool
  | .nop => true
  | .convert => true
  | .scorePix => true
  | .scoreHsv => true
  | .mask => true
  | .locate => true
  | .frame => true
  | .reserved7 => true
  | .reserved8F cmd => cmd.getLsbD 3
  | .srst => true

/-- `i` is the instruction of some command word. -/
abbrev WellFormed (i : Instr) : Prop := i.wellFormed = true

end Sys2Proof
end

