-- ==== Sys2Proof/Decode.lean ====
section
/-! DEFINITION. Decoding a command word (R100 to R102, R105, R106), from a word and from bytes, and the encoder, written
from the same table. The BUSY test of R102 is no part of decoding: it stands in the meanings, which see the state. -/

namespace Sys2Proof

/-- CMD, bits [3:0] of the command word (R100). -/
def cmdField (w : Word) : BitVec 4 := w.extractLsb' 0 4

/-- SRST, bit 31 of the command word (R100). -/
def srstField (w : Word) : Bool := w.getLsbD 31

/-- The command word of a CTRL write (R101, R102). Total: every word is one instruction, and bits [30:4] take no part. -/
def decode (w : Word) : Instr :=
  if srstField w then .srst
  else
    match (cmdField w).toNat with
    | 0x0 => .nop
    | 0x1 => .convert
    | 0x2 => .scorePix
    | 0x3 => .scoreHsv
    | 0x4 => .mask
    | 0x5 => .locate
    | 0x6 => .frame
    | 0x7 => .reserved7
    | _ => .reserved8F (cmdField w)

/-- Why bytes are no command word. -/
inductive DecodeError where
  /-- Fewer than four bytes: a command word is 4 bytes, delivered by one access of size 4 (R100). -/
  | shortWord
  deriving DecidableEq, Repr

/-- The word of four bytes, the first the least significant (R73). -/
def wordOfBytes (b0 b1 b2 b3 : Byte) : Word := b3 ++ b2 ++ b1 ++ b0

/-- The command word at the front of a list of bytes, with the bytes after it (R73, R100). -/
def decodeBytes : List Byte → Except DecodeError (Instr × List Byte)
  | b0 :: b1 :: b2 :: b3 :: rest => .ok (decode (wordOfBytes b0 b1 b2 b3), rest)
  | [] => .error .shortWord
  | [_] => .error .shortWord
  | [_, _] => .error .shortWord
  | [_, _, _] => .error .shortWord

/-- The command word of an instruction, its ignored bits 0, as software writes it (R100, R101, R108). -/
def encode : Instr → Word
  | .nop => 0x00000000
  | .convert => 0x00000001
  | .scorePix => 0x00000002
  | .scoreHsv => 0x00000003
  | .mask => 0x00000004
  | .locate => 0x00000005
  | .frame => 0x00000006
  | .reserved7 => 0x00000007
  | .reserved8F cmd => cmd.setWidth 32
  | .srst => 0x80000000

/-- The bits of a command word that select the instruction: SRST alone when it is 1, SRST and CMD otherwise (R100). -/
def careBits : Instr → Word
  | .nop => 0x8000000F
  | .convert => 0x8000000F
  | .scorePix => 0x8000000F
  | .scoreHsv => 0x8000000F
  | .mask => 0x8000000F
  | .locate => 0x8000000F
  | .frame => 0x8000000F
  | .reserved7 => 0x8000000F
  | .reserved8F _ => 0x8000000F
  | .srst => 0x80000000

/-- The four bytes of a word, least significant first (R73). -/
def bytesOfWord (w : Word) : List Byte :=
  [w.extractLsb' 0 8, w.extractLsb' 8 8, w.extractLsb' 16 8, w.extractLsb' 24 8]

/-- The instruction the decoder reads from the table's numbering: `nbits` bits of `w`, every bit above them 0. -/
def decodeTableWord (nbits w : Nat) : Option Instr :=
  match decodeBytes (bytesOfWord (BitVec.ofNat 32 (w % 2 ^ nbits))) with
  | .ok (i, []) => some i
  | .ok (_, _ :: _) => none
  | .error _ => none

end Sys2Proof
end

