-- ==== Sys2Proof/Machine/Regs.lean ====
section
/-! DEFINITION. The registers of CTB-CORE (R20, R24 to R45) as named fields, and their reset values (R251). A field has the
width the register map gives it, so an unnamed bit has nowhere to be stored (R46). -/

namespace Sys2Proof.Machine

/-- The FAIL codes of STATUS (R24, D42). -/
inductive FailCode where
  /-- 0: a point was found, or no locate has run since reset. -/
  | none
  /-- 1. -/
  | noProbeRow
  /-- 2. -/
  | noLeftEdge
  /-- 3. -/
  | noRightEdge
  /-- 4. -/
  | probeOutOfRange
  deriving DecidableEq, Repr

/-- STATUS (R24) without BUSY, whose one home is PEND (R21). -/
structure Status where
  done : Bool
  found : Bool
  fail : FailCode
  errCmd : Bool
  errWbusy : Bool
  errLen : Bool
  deriving DecidableEq, Repr

/-- INT_EN (R26). -/
structure IntEn where
  doneIe : Bool
  errIe : Bool
  deriving DecidableEq, Repr

/-- CFG.ROWSEL (R31). -/
inductive RowSel where
  /-- 0: the highest-index row. -/
  | nearest
  /-- 1: the lowest-index row. -/
  | topmost
  deriving DecidableEq, Repr

/-- CONV_OUT (R39). -/
structure ConvOut where
  max : Byte
  min : Byte
  delta : Byte
  sect : BitVec 2
  deriving DecidableEq, Repr

/-- SCORE_OUT (R41). -/
structure ScoreOut where
  byte : Byte
  gate : Bool
  neg : Bool
  deriving DecidableEq, Repr

/-- RES_XY (R42). -/
structure ResXY where
  x : Half
  y : Half
  deriving DecidableEq, Repr

/-- RES_EDGES (R44). -/
structure ResEdges where
  left : Half
  right : Half
  deriving DecidableEq, Repr

/-- The registers of R20 that hold a value. ID and PARAM are constants of the implementation; CTRL holds no value (R25). -/
structure Regs where
  status : Status
  intEn : IntEn
  tgtH : Half
  tgtS : Half
  tgtV : Half
  hueTol : Half
  rowSel : RowSel
  probeCol : Half
  bufLen : Word
  maskLen : Word
  pixIn : Word
  smpH : Half
  smpS : Half
  smpV : Half
  convOut : ConvOut
  convHn : BitVec 11
  scoreOut : ScoreOut
  resXY : ResXY
  resRow : Half
  resEdges : ResEdges
  side : Half
  deriving DecidableEq, Repr

/-- STATUS after reset (R24, R251). -/
def Status.reset : Status :=
  { done := false, found := false, fail := .none, errCmd := false, errWbusy := false, errLen := false }

/-- Every register at its reset value (R20, R251): hard reset and soft reset alike. -/
def Regs.reset : Regs :=
  { status := Status.reset
    intEn := { doneIe := false, errIe := false }
    tgtH := 0x1E00
    tgtS := 0xFFFF
    tgtV := 0xFFFF
    hueTol := 0
    rowSel := .nearest
    probeCol := 0x0032
    bufLen := 0
    maskLen := 0
    pixIn := 0
    smpH := 0
    smpS := 0
    smpV := 0
    convOut := { max := 0, min := 0, delta := 0, sect := 0 }
    convHn := 0
    scoreOut := { byte := 0, gate := false, neg := false }
    resXY := { x := 0, y := 0 }
    resRow := 0
    resEdges := { left := 0, right := 0 }
    side := 0 }

end Sys2Proof.Machine
end

