-- ==== Sys2Proof/Machine/State.lean ====
section
/-! DEFINITION. The state of CTB-CORE (R20) as plain data, with the host's side of the port beside it, the reasons a step
can stop, and the state after reset. -/

namespace Sys2Proof.Machine

/-- The commands PEND can hold (R21). -/
inductive Command where
  | nop
  | convert
  | scorePix
  | scoreHsv
  | mask
  | locate
  | frame
  deriving DecidableEq, Repr

/-- The two local memories (R49). -/
inductive MemId where
  | pixbuf
  | maskbuf
  deriving DecidableEq, Repr

/-- A local memory: its written bytes, offsets strictly rising. An offset that is not listed is an unwritten byte, so the
written marks of R52 need no storage of their own. -/
abbrev Memory := List Host.Cell

/-- The size of a transaction (R71): 1, 2 or 4 bytes. -/
inductive Size where
  | one
  | two
  | four
  deriving DecidableEq, Repr

/-- A host transaction (R71). -/
inductive Txn where
  | read (a : Offset) (size : Size)
  | write (a : Offset) (size : Size) (data : Word)
  deriving DecidableEq, Repr

/-- The response of a transaction (R71). -/
inductive Resp where
  | okay
  | error
  deriving DecidableEq, Repr

/-- The answer to a transaction (R71): data and response of a read, response of a write. -/
inductive Reply where
  | read (data : Word) (resp : Resp)
  | write (resp : Resp)
  deriving DecidableEq, Repr

/-- What the host does: a transaction, the polling loop `wait` (R108), or an assertion of rst_n between two transactions
(R250, R256). -/
inductive HostOp where
  | txn (t : Txn)
  | wait
  | hardReset
  deriving DecidableEq, Repr

/-- The two agents whose steps interleave (R85, R120). -/
inductive Agent where
  | host
  | sequencer
  deriving DecidableEq, Repr

/-- The state of the block (`params`, `regs`, `pend`, `pixbuf`, `maskbuf`) and of the host's side of its port (`script`,
`replies`, `turns`: the model's own fields). -/
structure State where
  /-- PIX_CAP and LANES (R9, R23): no step changes them. -/
  params : Config.Params
  /-- The registers (R20). -/
  regs : Regs
  /-- The pending-command latch PEND (R21); STATUS.BUSY reads 1 exactly when it is not none. -/
  pend : Option Command
  /-- PIXBUF (R50, R52). -/
  pixbuf : Memory
  /-- MASKBUF (R51, R52). -/
  maskbuf : Memory
  /-- Input: what the host has still to do, first first. DESIGN CHOICE (safe), log entry 1. -/
  script : List HostOp
  /-- Output: the answers given, newest first. DESIGN CHOICE (safe), log entry 2. -/
  replies : List Reply
  /-- Which agent moves at the steps to come (I8). DESIGN CHOICE (unsafe for statements about one value only), log entry 3. -/
  turns : List Agent
  deriving DecidableEq, Repr

/-- The model's faults. -/
inductive Fault where
  /-- UNINIT_READ (R226), with the memory and the byte offset the access named. Raised by a host read of a memory window
  and by the completion step of MASK, LOCATE and FRAME when a byte they read is unwritten. Safe: the chip returns some
  byte there. -/
  | uninitRead (mem : MemId) (off : Nat)
  deriving DecidableEq, Repr

/-- The model's refusals. -/
inductive Refusal where
  /-- An instruction without a meaning. Raised by no arm of `exec`: every instruction has its meaning. Safe. -/
  | notModelled (mnemonic : String)
  deriving DecidableEq, Repr

/-- CTB-CORE 1 right after hard reset (R250, R251): registers at their reset values, PEND none, every memory byte
unwritten. The host's side starts empty (log entries 1 to 3). -/
def State.reset : State :=
  { params := Config.Params.ctbCore1
    regs := Regs.reset
    pend := none
    pixbuf := []
    maskbuf := []
    script := []
    replies := []
    turns := [] }

end Sys2Proof.Machine
end

