-- ==== Sys2Proof/Machine/Flags.lean ====
section
/-! DEFINITION. The flags of CTB-CORE (R48): the STATUS word, its W1C bits, `signal`, and the irq level. -/

namespace Sys2Proof.Machine

/-- The word 2^i when the flag is set, else 0: a one-bit field at bit i. -/
def bitAt (i : Nat) (b : Bool) : Word := if b then BitVec.ofNat 32 (2 ^ i) else 0

/-- The code of a locate outcome in STATUS.FAIL (R24, D42). -/
def FailCode.code : FailCode → BitVec 3
  | .none => 0
  | .noProbeRow => 1
  | .noLeftEdge => 2
  | .noRightEdge => 3
  | .probeOutOfRange => 4

/-- STATUS.BUSY reads 1 exactly when PEND ≠ none (R21). -/
def State.busy (s : State) : Bool := s.pend.isSome

/-- STATUS as a register read returns it (R24): BUSY[0], DONE[1], FOUND[2], FAIL[6:4], ERR_CMD[8], ERR_WBUSY[9],
ERR_LEN[10], every other bit 0. -/
def State.statusWord (s : State) : Word :=
  bitAt 0 s.busy ||| bitAt 1 s.regs.status.done ||| bitAt 2 s.regs.status.found
    ||| (s.regs.status.fail.code.setWidth 32 <<< 4)
    ||| bitAt 8 s.regs.status.errCmd ||| bitAt 9 s.regs.status.errWbusy ||| bitAt 10 s.regs.status.errLen

/-- A write of `d` to STATUS (R24): each W1C bit with a 1 in `d` is cleared, nothing else changes. -/
def Status.clearW1C (st : Status) (d : Word) : Status :=
  { st with
    done := st.done && !d.getLsbD 1
    errCmd := st.errCmd && !d.getLsbD 8
    errWbusy := st.errWbusy && !d.getLsbD 9
    errLen := st.errLen && !d.getLsbD 10 }

/-- `s` with STATUS (but BUSY) replaced. -/
def State.setStatus (s : State) (st : Status) : State := { s with regs := { s.regs with status := st } }

/-- signal ERR_CMD (R16, R127). -/
def State.signalErrCmd (s : State) : State := s.setStatus { s.regs.status with errCmd := true }

/-- signal ERR_WBUSY (R16, R79). -/
def State.signalErrWbusy (s : State) : State := s.setStatus { s.regs.status with errWbusy := true }

/-- signal ERR_LEN (R16, R181, R191). -/
def State.signalErrLen (s : State) : State := s.setStatus { s.regs.status with errLen := true }

/-- Any of the three error bits (R229). -/
def Status.anyError (st : Status) : Bool := st.errCmd || st.errWbusy || st.errLen

/-- The level of the irq output (R230), a function of STATUS and INT_EN (R54). -/
def State.irq (s : State) : Bool :=
  (s.regs.status.done && s.regs.intEn.doneIe) || (s.regs.status.anyError && s.regs.intEn.errIe)

end Sys2Proof.Machine
end

