-- ==== Sys2Proof/Machine/Ops.lean ====
section
/-! DEFINITION. The named operations over memory (R14, R52, R73), the two steps of a command (R120 to R122) and the two
resets (R126, R250). CTB-CORE takes no exception in the usual sense (R220, R227): the shared error operations are
`signal` in Flags.lean, and the model fault is the error value of `readByte` and `State.memRead`. -/

namespace Sys2Proof.Machine

/-! Memory. -/

/-- The byte at an offset; none where it is unwritten (R52). -/
def Memory.read : Memory → Nat → Option Byte
  | [], _ => none
  | (k, b) :: m, a => if k = a then some b else Memory.read m a

/-- The memory with one byte written: it holds the value and is marked written (R52). -/
def Memory.write : Memory → Nat → Byte → Memory
  | [], a, b => [(a, b)]
  | (k, c) :: m, a, b =>
    if a < k then (a, b) :: (k, c) :: m
    else if a = k then (a, b) :: m
    else (k, c) :: Memory.write m a b

/-- The memory with bytes 0 to n − 1 marked unwritten (R52, R126). -/
def Memory.forget (m : Memory) (n : Nat) : Memory := m.filter fun c => decide (n ≤ c.1)

/-- The canonical form: offsets strictly rise. No listed entry can equal what an unlisted offset reads as, which is no
value at all. -/
abbrev Memory.wf (m : Memory) : Prop := m.Pairwise fun c d => c.1 < d.1

/-- Every listed offset lies below `n`. -/
abbrev Memory.within (m : Memory) (n : Nat) : Prop := ∀ c ∈ m, c.1 < n

/-- The little-endian value of `n` bytes from `off` (R14, R73); none if any of them is unwritten. -/
def Memory.readLe (m : Memory) (off : Nat) : Nat → Option Nat
  | 0 => some 0
  | n + 1 =>
    match m.read off, Memory.readLe m (off + 1) n with
    | some b, some v => some (b.toNat + 256 * v)
    | _, _ => none

/-- MemWrite of the `n` low bytes of `v`, least significant first (R14, R73). -/
def Memory.writeLe (m : Memory) (off : Nat) : Nat → Nat → Memory
  | 0, _ => m
  | n + 1, v => Memory.writeLe (m.write off (BitVec.ofNat 8 v)) (off + 1) n (v / 256)

/-- MemRead of one byte by a command (R14): UNINIT_READ if it is unwritten (R226). -/
def readByte (which : MemId) (m : Memory) (off : Nat) : Except Fault Byte :=
  match m.read off with
  | some b => .ok b
  | none => .error (.uninitRead which off)

/-- The first of the offsets that is unwritten, if any. -/
def Memory.firstUnwritten (m : Memory) (offs : List Nat) : Option Nat := offs.find? fun o => (m.read o).isNone

/-- The number of bytes a memory holds (R9, R50, R51). -/
def memSize (p : Config.Params) : MemId → Nat
  | .pixbuf => 4 * p.pixCap
  | .maskbuf => p.pixCap

/-- A local memory by name (R49). -/
def State.mem (s : State) : MemId → Memory
  | .pixbuf => s.pixbuf
  | .maskbuf => s.maskbuf

/-- `s` with a local memory replaced. -/
def State.setMem (s : State) (which : MemId) (m : Memory) : State :=
  match which with
  | .pixbuf => { s with pixbuf := m }
  | .maskbuf => { s with maskbuf := m }

/-- MemRead(S, off, n) of a host access (R14, R81): the fault names the offset of the access (log entry 6). -/
def State.memRead (s : State) (which : MemId) (off n : Nat) : Except Fault Word :=
  match (s.mem which).readLe off n with
  | some v => .ok (BitVec.ofNat 32 v)
  | none => .error (.uninitRead which off)

/-- MemWrite(S, off, n, v) (R14, R82). -/
def State.memWrite (s : State) (which : MemId) (off n : Nat) (v : Word) : State :=
  s.setMem which ((s.mem which).writeLe off n v.toNat)

/-! The two steps of a command. -/

/-- The sequencer takes the step that comes: it is enabled (R120) and the next turn is not the host's. With no turn left it
goes as soon as it is enabled, which is the weak fairness of R262 (log entry 3). -/
def State.sequencerMoves (s : State) : Bool :=
  s.busy &&
    match s.turns with
    | .host :: _ => false
    | .sequencer :: _ => true
    | [] => true

/-- The step that comes is the completion step of `c` (R122). -/
def State.completes (s : State) (c : Command) : Bool := decide (s.pend = some c) && s.sequencerMoves

/-- The start step (R121): PEND and with it BUSY is set, DONE is cleared, nothing else changes. -/
def State.start (s : State) (c : Command) : State :=
  { s.setStatus { s.regs.status with done := false } with pend := some c }

/-- The end of a completion step (R122): PEND and BUSY cleared, DONE set. -/
def State.finish (s : State) : State :=
  { s.setStatus { s.regs.status with done := true } with pend := none }

/-- A CTRL write with SRST = 0 (R102, R224): dropped with ERR_WBUSY while BUSY, otherwise accepted. -/
def State.ctrlWrite (s : State) (accept : State → State) : State :=
  if s.busy then s.signalErrWbusy else accept s

/-- A command in its two steps (R120), `effect` being its Exec_c (R122). In its completion step it applies the effect and
finishes, or ends in the effect's model fault, having written nothing; in the host's step it is a CTRL write that starts
it or is dropped. DEDUCED (safe), log entry 11. -/
def runCommand (c : Command) (effect : State → Except Fault State) (s : State) : Host.Outcome State Fault Refusal :=
  if s.completes c then
    match effect s with
    | .ok t => .next t.finish
    | .error f => .fault f
  else .next (s.ctrlWrite fun t => t.start c)

/-! Resets. -/

/-- MASKBUF after a soft reset (R126): the abort of a MASK or FRAME that passes its length check makes bytes 0 to M − 1
unwritten; otherwise it is unchanged. -/
def State.maskbufAfterSrst (s : State) : Memory :=
  match s.pend with
  | some .mask | some .frame =>
    if s.regs.bufLen.toNat / 4 ≤ s.params.pixCap then s.maskbuf.forget (s.regs.bufLen.toNat / 4) else s.maskbuf
  | some .nop | some .convert | some .scorePix | some .scoreHsv | some .locate | none => s.maskbuf

/-- Soft reset (R126). -/
def State.softReset (s : State) : State :=
  { s with maskbuf := s.maskbufAfterSrst, pend := none, regs := Regs.reset }

/-- Hard reset (R250): the reset state of the block, its parameters being constants; the host's side of the port is not the
block's and stays (log entry 12). -/
def State.hardReset (s : State) : State :=
  { State.reset with params := s.params, script := s.script, replies := s.replies, turns := s.turns }

end Sys2Proof.Machine
end

