-- ==== Sys2Proof/Machine/Control.lean ====
section
/-! DEFINITION. NOP, the reserved codes and SRST (40_control.md). -/

namespace Sys2Proof.Machine

/-- Exec_NOP: no writes (R125). -/
def nopEffect (s : State) : Except Fault State := .ok s

/-- NOP (R125). -/
def execNop (s : State) : Host.Outcome State Fault Refusal := runCommand .nop nopEffect s

/-- A CTRL write with a reserved code (R105, R127): ERR_WBUSY while BUSY, ERR_CMD otherwise; nothing starts. -/
def reservedCode (s : State) : State := s.ctrlWrite State.signalErrCmd

/-- CMD = 0x7 (R127). -/
def execReserved7 (s : State) : Host.Outcome State Fault Refusal := .next (reservedCode s)

/-- CMD = 0x8 to 0xF (R127): the same for every such code. -/
def execReserved8F (s : State) : Host.Outcome State Fault Refusal := .next (reservedCode s)

/-- SRST (R126): accepted whether or not BUSY. -/
def execSrst (s : State) : Host.Outcome State Fault Refusal := .next s.softReset

end Sys2Proof.Machine
end

