-- ==== Sys2Proof/Machine/Exact.lean ====
section
/-! DEFINITION. The exact arithmetic of R15: rationals without rounding, their comparisons and floor, and the integer square
root. A fraction is kept unreduced, so that every computation on literals evaluates; `Frac.toRat` in
Sys2Proof/Laws/Exact.lean shows the operations to be those of the field of rationals. DEDUCED (safe), log entry 16. -/

namespace Sys2Proof.Machine

/-- An exact rational num / den. The denominator is positive, so no division by zero can be written (R223). -/
structure Frac where
  num : Int
  den : Nat
  den_pos : 0 < den

/-- The rational a fraction stands for (R15). -/
def Frac.toRat (a : Frac) : ℚ := (a.num : ℚ) / (a.den : ℚ)

/-- The integer n. -/
def Frac.ofInt (n : Int) : Frac := ⟨n, 1, by decide⟩

/-- a + b. -/
def Frac.add (a b : Frac) : Frac :=
  ⟨a.num * b.den + b.num * a.den, a.den * b.den, Nat.mul_pos a.den_pos b.den_pos⟩

/-- a − b. -/
def Frac.sub (a b : Frac) : Frac :=
  ⟨a.num * b.den - b.num * a.den, a.den * b.den, Nat.mul_pos a.den_pos b.den_pos⟩

/-- a · b. -/
def Frac.mul (a b : Frac) : Frac :=
  ⟨a.num * b.num, a.den * b.den, Nat.mul_pos a.den_pos b.den_pos⟩

/-- abs(a). -/
def Frac.abs (a : Frac) : Frac := ⟨a.num.natAbs, a.den, a.den_pos⟩

/-- a < b, exactly. -/
def Frac.lt (a b : Frac) : Bool := decide (a.num * b.den < b.num * a.den)

/-- floor(a). -/
def Frac.floor (a : Frac) : Int := a.num / a.den

/-- The integer square root by halving the number of binary digits, `fuel` bounding the recursion. -/
def isqrtFuel : Nat → Nat → Nat
  | 0, _ => 0
  | fuel + 1, n =>
    if n = 0 then 0
    else
      let r := 2 * isqrtFuel fuel (n / 4)
      if (r + 1) * (r + 1) ≤ n then r + 1 else r

/-- isqrt(n), the largest natural k with k·k ≤ n (R15). -/
def isqrt (n : Nat) : Nat := isqrtFuel n n

end Sys2Proof.Machine
end

