-- ==== Sys2Proof/Machine/Operands.lean ====
section
/-! DEFINITION. The operand forms of CTB-CORE (R103): what the operand registers stand for, as exact rationals and naturals. -/

namespace Sys2Proof.Machine

/-- A hue or tolerance code: H/128 degrees (R27, R30, R36). -/
def hueValue (h : Half) : Frac := ⟨h.toNat, 128, by decide⟩

/-- A saturation or value code: S/65535 (R28, R29, R37, R38). -/
def unitValue (v : Half) : Frac := ⟨v.toNat, 65535, by decide⟩

/-- A hue in degrees, a saturation and a value (R17). -/
structure Hsv where
  hue : Frac
  sat : Frac
  val : Frac

/-- A pixel's channels without alpha (R17). -/
structure Pixel where
  red : Byte
  green : Byte
  blue : Byte
  deriving DecidableEq, Repr

/-- PIX_IN's channels (R35): B = [7:0], G = [15:8], R = [23:16]; A is ignored. -/
def pixelOfWord (w : Word) : Pixel :=
  { red := w.extractLsb' 16 8, green := w.extractLsb' 8 8, blue := w.extractLsb' 0 8 }

/-- The target triple (R103). -/
def Regs.target (r : Regs) : Hsv := ⟨hueValue r.tgtH, unitValue r.tgtS, unitValue r.tgtV⟩

/-- The sample triple of SCORE_HSV (R103). -/
def Regs.sample (r : Regs) : Hsv := ⟨hueValue r.smpH, unitValue r.smpS, unitValue r.smpV⟩

/-- The hue tolerance (R103). -/
def Regs.tolerance (r : Regs) : Frac := hueValue r.hueTol

/-- M = BUF_LEN div 4, the pixel count (R180). -/
def Regs.pixelCount (r : Regs) : Nat := r.bufLen.toNat / 4

/-- L = MASK_LEN (R191). -/
def Regs.maskLength (r : Regs) : Nat := r.maskLen.toNat

/-- P = PROBE_COL.P (R192). -/
def Regs.probe (r : Regs) : Nat := r.probeCol.toNat

end Sys2Proof.Machine
end

