-- ==== Sys2Proof/Machine/Convert.lean ====
section
/-! DEFINITION. The Colour-Space Converter and CONVERT (41_convert.md). -/

namespace Sys2Proof.Machine

/-- The integers of a conversion (R144). -/
structure Conv where
  max : Nat
  min : Nat
  delta : Nat
  sect : Nat
  hn : Int
  deriving DecidableEq, Repr

/-- SECT (R141): 0 achromatic, else the maximum channel with precedence red, green, blue. -/
def sectorOf (r g : Nat) (max delta : Nat) : Nat :=
  if delta = 0 then 0 else if max = r then 1 else if max = g then 2 else 3

/-- HN (R142), computed over the integers. -/
def hueNumerator (r g b : Int) (delta : Nat) (sect : Nat) : Int :=
  match sect with
  | 0 => 0
  | 1 => if 0 ≤ g - b then g - b else 6 * delta + (g - b)
  | 2 => 2 * delta + (b - r)
  | _ => 4 * delta + (r - g)

/-- Conv(R, G, B) (R140 to R142, R144). -/
def conv (p : Pixel) : Conv :=
  let r := p.red.toNat
  let g := p.green.toNat
  let b := p.blue.toNat
  let max := Nat.max r (Nat.max g b)
  let min := Nat.min r (Nat.min g b)
  let delta := max - min
  let sect := sectorOf r g max delta
  { max := max, min := min, delta := delta, sect := sect, hn := hueNumerator r g b delta sect }

/-- The hue of a conversion in degrees (R142): 60·HN/DELTA, 0 for an achromatic pixel. -/
def Conv.hue (c : Conv) : Frac :=
  if h : 0 < c.delta then ⟨60 * c.hn, c.delta, h⟩ else Frac.ofInt 0

/-- The saturation of a conversion (R143): DELTA/MAX, 0 for black. -/
def Conv.saturation (c : Conv) : Frac :=
  if h : 0 < c.max then ⟨c.delta, c.max, h⟩ else Frac.ofInt 0

/-- The value of a conversion (R143): MAX/255. -/
def Conv.value (c : Conv) : Frac := ⟨c.max, 255, by decide⟩

/-- HSV of a conversion (R144). -/
def Conv.hsv (c : Conv) : Hsv := ⟨c.hue, c.saturation, c.value⟩

/-- CONV_OUT and CONV_HN written from a conversion (R145). -/
def State.setConv (s : State) (c : Conv) : State :=
  { s with
    regs :=
      { s.regs with
        convOut :=
          { max := BitVec.ofNat 8 c.max
            min := BitVec.ofNat 8 c.min
            delta := BitVec.ofNat 8 c.delta
            sect := BitVec.ofNat 2 c.sect }
        convHn := BitVec.ofInt 11 c.hn } }

/-- Exec_CONVERT (R145). -/
def convertEffect (s : State) : Except Fault State := .ok (s.setConv (conv (pixelOfWord s.regs.pixIn)))

/-- CONVERT (R145). -/
def execConvert (s : State) : Host.Outcome State Fault Refusal := runCommand .convert convertEffect s

end Sys2Proof.Machine
end

