-- ==== Sys2Proof/Machine/Score.lean ====
section
/-! DEFINITION. The Similarity Scorer, SCORE_PIX and SCORE_HSV (42_score.md). -/

namespace Sys2Proof.Machine

/-- dh, the cyclic hue difference (R161): 360 − raw when raw > 180, and hues are not reduced modulo 360. -/
def cyclicHueDiff (ht hp : Frac) : Frac :=
  let raw := (ht.sub hp).abs
  if (Frac.ofInt 180).lt raw then (Frac.ofInt 360).sub raw else raw

/-- D2, the squared distance (R163). -/
def squaredDistance (dh : Frac) (t p : Hsv) : Frac :=
  let ds := t.sat.sub p.sat
  let dv := t.val.sub p.val
  ((dh.mul dh).add (ds.mul ds)).add (dv.mul dv)

/-- m, the least natural with 4·m·m ≥ 289·D2, computed as R164 says from t = 289·D2/4. -/
def scaledDistance (d2 : Frac) : Nat :=
  let t : Frac := (⟨289, 4, by decide⟩ : Frac).mul d2
  let s := isqrt t.floor.toNat
  if (Frac.ofInt (s * s : Nat)).lt t then s + 1 else s

/-- Score (R165): the gate of R162, then the byte and the NEG flag of R164. -/
def score (t p : Hsv) (tol : Frac) : ScoreOut :=
  let dh := cyclicHueDiff t.hue p.hue
  if tol.lt dh then { byte := 0, gate := true, neg := false }
  else
    let d2 := squaredDistance dh t p
    { byte := BitVec.ofNat 8 (255 - Nat.min (scaledDistance d2) 255)
      gate := false
      neg := (Frac.ofInt 900).lt d2 }

/-- The score of a pixel against the target and tolerance registers (R166, R182). -/
def scorePixel (r : Regs) (p : Pixel) : ScoreOut := score r.target (conv p).hsv r.tolerance

/-- `s` with SCORE_OUT replaced. -/
def State.setScore (s : State) (o : ScoreOut) : State := { s with regs := { s.regs with scoreOut := o } }

/-- Exec_SCORE_PIX (R166). -/
def scorePixEffect (s : State) : Except Fault State :=
  let p := pixelOfWord s.regs.pixIn
  .ok ((s.setConv (conv p)).setScore (scorePixel s.regs p))

/-- Exec_SCORE_HSV (R167). -/
def scoreHsvEffect (s : State) : Except Fault State :=
  .ok (s.setScore (score s.regs.target s.regs.sample s.regs.tolerance))

/-- SCORE_PIX (R166). -/
def execScorePix (s : State) : Host.Outcome State Fault Refusal := runCommand .scorePix scorePixEffect s

/-- SCORE_HSV (R167). -/
def execScoreHsv (s : State) : Host.Outcome State Fault Refusal := runCommand .scoreHsv scoreHsvEffect s

end Sys2Proof.Machine
end

