-- ==== Sys2Proof/Machine/Mask.lean ====
section
/-! DEFINITION. The Mask Generator and MASK (43_mask.md). -/

namespace Sys2Proof.Machine

/-- Pixel i of PIXBUF (R182): B, G, R, then A, which is read and ignored; UNINIT_READ at the first unwritten of the four. -/
def readPixel (m : Memory) (i : Nat) : Except Fault Pixel :=
  match readByte .pixbuf m (4 * i + 0) with
  | .error f => .error f
  | .ok b =>
    match readByte .pixbuf m (4 * i + 1) with
    | .error f => .error f
    | .ok g =>
      match readByte .pixbuf m (4 * i + 2) with
      | .error f => .error f
      | .ok r =>
        match readByte .pixbuf m (4 * i + 3) with
        | .error f => .error f
        | .ok _ => .ok { red := r, green := g, blue := b }

/-- MASKGEN over `n` pixels from pixel i on (R182, R183): `out` is MASKBUF, each pixel's match byte written to its own
offset. The lanes of R184 are not observable. -/
def maskLoop (r : Regs) (pix : Memory) : Nat → Nat → Memory → Except Fault Memory
  | 0, _, out => .ok out
  | n + 1, i, out =>
    match readPixel pix i with
    | .error f => .error f
    | .ok p => maskLoop r pix n (i + 1) (out.write i (scorePixel r p).byte)

/-- `s` with MASKBUF and MASK_LEN replaced. -/
def State.setMask (s : State) (out : Memory) (len : Nat) : State :=
  { s with maskbuf := out, regs := { s.regs with maskLen := BitVec.ofNat 32 len } }

/-- Exec_MASK (R180 to R183): the length check, then the mask and MASK_LEN. -/
def maskEffect (s : State) : Except Fault State :=
  if s.params.pixCap < s.regs.pixelCount then .ok s.signalErrLen
  else
    match maskLoop s.regs s.pixbuf s.regs.pixelCount 0 s.maskbuf with
    | .error f => .error f
    | .ok out => .ok (s.setMask out s.regs.pixelCount)

/-- MASK (R183). -/
def execMask (s : State) : Host.Outcome State Fault Refusal := runCommand .mask maskEffect s

end Sys2Proof.Machine
end

