-- ==== Sys2Proof/Machine/Locate.lean ====
section
/-! DEFINITION. The Feature Locator, LOCATE and FRAME (44_locate.md). `n` is the side, `n / 2` the midpoint, `p` the probe
column; the mask is row-major (R51). -/

namespace Sys2Proof.Machine

/-- A mask byte that counts as a hit: any non-zero byte (R201). -/
def Memory.hit (m : Memory) (off : Nat) : Bool :=
  match m.read off with
  | some b => b != 0
  | none => false

/-- The probe bytes of the scan window, R198 (a). -/
def probeOffsets (n p : Nat) : List Nat := (List.range (n / 2)).map fun y => y * n + p

/-- The neck row of the scan window, R198 (b). -/
def rowOffsets (n r : Nat) : List Nat := (List.range n).map fun x => r * n + x

/-- Ycand (R193): the rows of the upper half with a hit in the probe column. -/
def probeRows (m : Memory) (n p : Nat) : List Nat := (List.range (n / 2)).filter fun y => m.hit (y * n + p)

/-- y* of step 1 (R193): the maximum of the candidates for NEAREST, the minimum for TOPMOST. -/
def probeRow (sel : RowSel) (cand : List Nat) : Option Nat :=
  match sel with
  | .nearest => cand.max?
  | .topmost => cand.min?

/-- Lcand (R194): the columns 0 to mid with a hit on row r. -/
def leftCols (m : Memory) (n r : Nat) : List Nat := (List.range (n / 2 + 1)).filter fun x => m.hit (r * n + x)

/-- Rcand (R195): the columns right of mid with a hit on row r. -/
def rightCols (m : Memory) (n r : Nat) : List Nat :=
  (List.range n).filter fun x => decide (n / 2 < x) && m.hit (r * n + x)

/-- How a locate ends (R190, R196). -/
inductive LocateOutcome where
  | found (row left right : Nat)
  | noProbeRow
  | noLeftEdge (row : Nat)
  | noRightEdge (row left : Nat)
  | probeOutOfRange
  deriving DecidableEq, Repr

/-- Steps 2 and 3 on the neck row below `row` (R194, R195). -/
def neckOutcome (m : Memory) (n row : Nat) : LocateOutcome :=
  match (leftCols m n (row + 1)).max? with
  | none => .noLeftEdge row
  | some left =>
    match (rightCols m n (row + 1)).min? with
    | none => .noRightEdge row left
    | some right => .found row left right

/-- The outcome of a locate whose length check passes (R192 to R195), reading the scan window of R198: the probe column,
then the neck row. The fault names the first unwritten byte in that order (log entry 6). -/
def locateOutcome (sel : RowSel) (m : Memory) (n p : Nat) : Except Fault LocateOutcome :=
  if n ≤ p then .ok .probeOutOfRange
  else
    match m.firstUnwritten (probeOffsets n p) with
    | some o => .error (.uninitRead .maskbuf o)
    | none =>
      match probeRow sel (probeRows m n p) with
      | none => .ok .noProbeRow
      | some row =>
        match m.firstUnwritten (rowOffsets n (row + 1)) with
        | some o => .error (.uninitRead .maskbuf o)
        | none => .ok (neckOutcome m n row)

/-- STATUS.FAIL of an outcome (R196). -/
def LocateOutcome.fail : LocateOutcome → FailCode
  | .found _ _ _ => .none
  | .noProbeRow => .noProbeRow
  | .noLeftEdge _ => .noLeftEdge
  | .noRightEdge _ _ => .noRightEdge
  | .probeOutOfRange => .probeOutOfRange

/-- STATUS.FOUND of an outcome (R196). -/
def LocateOutcome.isFound : LocateOutcome → Bool
  | .found _ _ _ => true
  | .noProbeRow => false
  | .noLeftEdge _ => false
  | .noRightEdge _ _ => false
  | .probeOutOfRange => false

/-- RES_XY of an outcome (R196): the point, or 0. -/
def LocateOutcome.xy : LocateOutcome → ResXY
  | .found row left right => { x := BitVec.ofNat 16 ((left + right) / 2), y := BitVec.ofNat 16 (row + 1) }
  | .noProbeRow => { x := 0, y := 0 }
  | .noLeftEdge _ => { x := 0, y := 0 }
  | .noRightEdge _ _ => { x := 0, y := 0 }
  | .probeOutOfRange => { x := 0, y := 0 }

/-- RES_ROW of an outcome (R196): y* where step 1 succeeded, or 0. -/
def LocateOutcome.row : LocateOutcome → Half
  | .found row _ _ => BitVec.ofNat 16 row
  | .noProbeRow => 0
  | .noLeftEdge row => BitVec.ofNat 16 row
  | .noRightEdge row _ => BitVec.ofNat 16 row
  | .probeOutOfRange => 0

/-- RES_EDGES of an outcome (R196): each edge where its step succeeded, or 0. -/
def LocateOutcome.edges : LocateOutcome → ResEdges
  | .found _ left right => { left := BitVec.ofNat 16 left, right := BitVec.ofNat 16 right }
  | .noProbeRow => { left := 0, right := 0 }
  | .noLeftEdge _ => { left := 0, right := 0 }
  | .noRightEdge _ left => { left := BitVec.ofNat 16 left, right := 0 }
  | .probeOutOfRange => { left := 0, right := 0 }

/-- The registers a locate writes (R196). -/
def State.setLocate (s : State) (n : Nat) (o : LocateOutcome) : State :=
  { s with
    regs :=
      { s.regs with
        status := { s.regs.status with found := o.isFound, fail := o.fail }
        side := BitVec.ofNat 16 n
        resXY := o.xy
        resRow := o.row
        resEdges := o.edges } }

/-- Exec_LOCATE (R191, R197). -/
def locateEffect (s : State) : Except Fault State :=
  if s.params.pixCap < s.regs.maskLength then .ok s.signalErrLen
  else
    match locateOutcome s.regs.rowSel s.maskbuf (isqrt s.regs.maskLength) s.regs.probe with
    | .error f => .error f
    | .ok o => .ok (s.setLocate (isqrt s.regs.maskLength) o)

/-- Exec_FRAME (R199): MASK's check, MASK's writes, then LOCATE on the resulting state. -/
def frameEffect (s : State) : Except Fault State :=
  if s.params.pixCap < s.regs.pixelCount then .ok s.signalErrLen
  else
    match maskEffect s with
    | .error f => .error f
    | .ok t => locateEffect t

/-- LOCATE (R197). -/
def execLocate (s : State) : Host.Outcome State Fault Refusal := runCommand .locate locateEffect s

/-- FRAME (R199). -/
def execFrame (s : State) : Host.Outcome State Fault Refusal := runCommand .frame frameEffect s

end Sys2Proof.Machine
end

