-- ==== Sys2Proof/Machine/Dispatch.lean ====
section
/-! DEFINITION. One arm per instruction. -/

namespace Sys2Proof.Machine

/-- The instruction `i` in state `s`: the CTRL write that carries it, or, when the sequencer moves and PEND holds it, its
completion step (R120). -/
def exec (i : Instr) (s : State) : Host.Outcome State Fault Refusal :=
  match i with
  | .nop => Sys2Proof.Machine.execNop s
  | .convert => Sys2Proof.Machine.execConvert s
  | .scorePix => Sys2Proof.Machine.execScorePix s
  | .scoreHsv => Sys2Proof.Machine.execScoreHsv s
  | .mask => Sys2Proof.Machine.execMask s
  | .locate => Sys2Proof.Machine.execLocate s
  | .frame => Sys2Proof.Machine.execFrame s
  | .reserved7 => Sys2Proof.Machine.execReserved7 s
  | .reserved8F _ => Sys2Proof.Machine.execReserved8F s
  | .srst => Sys2Proof.Machine.execSrst s

end Sys2Proof.Machine
end

