-- ==== Sys2Proof/Machine/RegFile.lean ====
section
/-! DEFINITION. The register window (R20, R70): which register an offset names, what a read returns and what a write while
idle stores. Reads and writes of every register go through here. -/

namespace Sys2Proof.Machine

/-- The registers of R20 by name; `reserved` stands for every offset 0x060 to 0x0FC (R47). -/
inductive Reg where
  | id
  | param
  | ctrl
  | status
  | intEn
  | tgtH
  | tgtS
  | tgtV
  | hueTol
  | cfg
  | probeCol
  | bufLen
  | maskLen
  | pixIn
  | smpH
  | smpS
  | smpV
  | convOut
  | convHn
  | scoreOut
  | resXY
  | resRow
  | resEdges
  | side
  | reserved
  deriving DecidableEq, Repr

/-- The register at a byte offset of the register window, its low two bits cleared (R20, R70). -/
def regAt (off : Nat) : Reg :=
  match off / 4 with
  | 0 => .id
  | 1 => .param
  | 2 => .ctrl
  | 3 => .status
  | 4 => .intEn
  | 5 => .tgtH
  | 6 => .tgtS
  | 7 => .tgtV
  | 8 => .hueTol
  | 9 => .cfg
  | 10 => .probeCol
  | 11 => .bufLen
  | 12 => .maskLen
  | 13 => .pixIn
  | 14 => .smpH
  | 15 => .smpS
  | 16 => .smpV
  | 17 => .convOut
  | 18 => .convHn
  | 19 => .scoreOut
  | 20 => .resXY
  | 21 => .resRow
  | 22 => .resEdges
  | 23 => .side
  | _ => .reserved

/-- The offset of a register (R20, R107), for host scripts; 0x060 for `reserved`. -/
def Reg.offset : Reg → Offset
  | .id => 0x000
  | .param => 0x004
  | .ctrl => 0x008
  | .status => 0x00C
  | .intEn => 0x010
  | .tgtH => 0x014
  | .tgtS => 0x018
  | .tgtV => 0x01C
  | .hueTol => 0x020
  | .cfg => 0x024
  | .probeCol => 0x028
  | .bufLen => 0x02C
  | .maskLen => 0x030
  | .pixIn => 0x034
  | .smpH => 0x038
  | .smpS => 0x03C
  | .smpV => 0x040
  | .convOut => 0x044
  | .convHn => 0x048
  | .scoreOut => 0x04C
  | .resXY => 0x050
  | .resRow => 0x054
  | .resEdges => 0x058
  | .side => 0x05C
  | .reserved => 0x060

/-- PARAM (R23): PIX_CAP[31:8], LANES[7:0]. -/
def paramWord (p : Config.Params) : Word := BitVec.ofNat 24 p.pixCap ++ BitVec.ofNat 8 p.lanes

/-- CFG.ROWSEL as a bit (R31). -/
def RowSel.word : RowSel → Word
  | .nearest => 0
  | .topmost => 1

/-- CONV_OUT (R39, R145): six zero bits, SECT, DELTA, MIN, MAX. -/
def ConvOut.word (o : ConvOut) : Word := (0 : BitVec 6) ++ o.sect ++ o.delta ++ o.min ++ o.max

/-- SCORE_OUT (R41): BYTE[7:0], GATE[8], NEG[9]. -/
def ScoreOut.word (o : ScoreOut) : Word := o.byte.setWidth 32 ||| bitAt 8 o.gate ||| bitAt 9 o.neg

/-- RES_XY (R42): Y[31:16], X[15:0]. -/
def ResXY.word (o : ResXY) : Word := o.y ++ o.x

/-- RES_EDGES (R44): RIGHT[31:16], LEFT[15:0]. -/
def ResEdges.word (o : ResEdges) : Word := o.right ++ o.left

/-- INT_EN (R26): DONE_IE[0], ERR_IE[1]. -/
def IntEn.word (e : IntEn) : Word := bitAt 0 e.doneIe ||| bitAt 1 e.errIe

/-- A 16-bit field in a register whose other bits read 0 (R46). -/
def halfWord (h : Half) : Word := h.setWidth 32

/-- A register read (R76): no side effect. -/
def readReg (s : State) : Reg → Word
  | .id => Config.idValue
  | .param => paramWord s.params
  | .ctrl => 0
  | .status => s.statusWord
  | .intEn => s.regs.intEn.word
  | .tgtH => halfWord s.regs.tgtH
  | .tgtS => halfWord s.regs.tgtS
  | .tgtV => halfWord s.regs.tgtV
  | .hueTol => halfWord s.regs.hueTol
  | .cfg => s.regs.rowSel.word
  | .probeCol => halfWord s.regs.probeCol
  | .bufLen => s.regs.bufLen
  | .maskLen => s.regs.maskLen
  | .pixIn => s.regs.pixIn
  | .smpH => halfWord s.regs.smpH
  | .smpS => halfWord s.regs.smpS
  | .smpV => halfWord s.regs.smpV
  | .convOut => s.regs.convOut.word
  | .convHn => s.regs.convHn.setWidth 32
  | .scoreOut => s.regs.scoreOut.word
  | .resXY => s.regs.resXY.word
  | .resRow => halfWord s.regs.resRow
  | .resEdges => s.regs.resEdges.word
  | .side => halfWord s.regs.side
  | .reserved => 0

/-- The registers after a write while idle (R46, R77, R78): an RW register stores its fields from the data, STATUS clears its
W1C bits, an RO or reserved register is unchanged. CTRL holds nothing (R25): its action is the instruction's. -/
def Regs.write (r : Regs) (d : Word) : Reg → Regs
  | .id => r
  | .param => r
  | .ctrl => r
  | .status => { r with status := r.status.clearW1C d }
  | .intEn => { r with intEn := { doneIe := d.getLsbD 0, errIe := d.getLsbD 1 } }
  | .tgtH => { r with tgtH := d.setWidth 16 }
  | .tgtS => { r with tgtS := d.setWidth 16 }
  | .tgtV => { r with tgtV := d.setWidth 16 }
  | .hueTol => { r with hueTol := d.setWidth 16 }
  | .cfg => { r with rowSel := if d.getLsbD 0 then .topmost else .nearest }
  | .probeCol => { r with probeCol := d.setWidth 16 }
  | .bufLen => { r with bufLen := d }
  | .maskLen => { r with maskLen := d }
  | .pixIn => { r with pixIn := d }
  | .smpH => { r with smpH := d.setWidth 16 }
  | .smpS => { r with smpS := d.setWidth 16 }
  | .smpV => { r with smpV := d.setWidth 16 }
  | .convOut => r
  | .convHn => r
  | .scoreOut => r
  | .resXY => r
  | .resRow => r
  | .resEdges => r
  | .side => r
  | .reserved => r

/-- A register write while idle (R77). -/
def State.writeReg (s : State) (r : Reg) (d : Word) : State := { s with regs := s.regs.write d r }

end Sys2Proof.Machine
end

