-- ==== Sys2Proof/Machine/HostPort.lean ====
section
/-! DEFINITION. The host port (20_memory.md): the address map, bus errors, the two transactions, and the step of each agent.
A write to CTRL is the one way an instruction reaches the machine from outside. -/

namespace Sys2Proof.Machine

/-- The size of a transaction in bytes (R71). -/
def Size.bytes : Size → Nat
  | .one => 1
  | .two => 2
  | .four => 4

/-- What a transaction reaches. -/
inductive Target where
  | busError
  | reg (r : Reg)
  | mem (which : MemId) (off : Nat)
  deriving DecidableEq, Repr

/-- A window access: the memory byte it starts at, or a bus error where a byte of it lies in the unmapped part (R70, R75;
log entry 8). -/
def windowTarget (p : Config.Params) (which : MemId) (off n : Nat) : Target :=
  if off + n ≤ memSize p which then .mem which off else .busError

/-- What offset `a` reaches with size `n` (R70, R74, R75): misaligned, then by region. -/
def targetOf (p : Config.Params) (a n : Nat) : Target :=
  if a % n ≠ 0 then .busError
  else if a ≤ 0x000FF then (if n = 4 then .reg (regAt a) else .busError)
  else if a < 0x10000 then .busError
  else if a ≤ 0x1FFFF then windowTarget p .pixbuf (a - 0x10000) n
  else if a ≤ 0x23FFF then windowTarget p .maskbuf (a - 0x20000) n
  else .busError

/-- What a transaction at `a` of size `sz` reaches. -/
def target (p : Config.Params) (a : Offset) (sz : Size) : Target := targetOf p a.toNat sz.bytes

/-- The state part of an outcome changed, a fault or refusal kept. -/
def mapNext (f : State → State) : Host.Outcome State Fault Refusal → Host.Outcome State Fault Refusal
  | .next s => .next (f s)
  | .fault r => .fault r
  | .refused r => .refused r

/-- `s` with an answer given. -/
def State.answer (s : State) (r : Reply) : State := { s with replies := r :: s.replies }

/-- A Read transaction (R75, R76, R80, R81). -/
def readTxn (a : Offset) (sz : Size) (s : State) : Host.Outcome State Fault Refusal :=
  match target s.params a sz with
  | .busError => .next (s.answer (.read 0 .error))
  | .reg r => .next (s.answer (.read (readReg s r) .okay))
  | .mem which off =>
    if s.busy then .next (s.answer (.read 0 .okay))
    else
      match s.memRead which off sz.bytes with
      | .ok v => .next (s.answer (.read v .okay))
      | .error f => .fault f

/-- A Write transaction (R75, R77 to R79, R82, R224): a CTRL write runs the instruction it carries (R102). -/
def writeTxn (a : Offset) (sz : Size) (d : Word) (s : State) : Host.Outcome State Fault Refusal :=
  match target s.params a sz with
  | .busError => .next (s.answer (.write .error))
  | .reg .ctrl => mapNext (fun t => t.answer (.write .okay)) (exec (decode d) s)
  | .reg r => .next ((if s.busy then s.signalErrWbusy else s.writeReg r d).answer (.write .okay))
  | .mem which off =>
    .next ((if s.busy then s.signalErrWbusy else s.memWrite which off sz.bytes d).answer (.write .okay))

/-- A host transaction (R71). -/
def runTxn (t : Txn) (s : State) : Host.Outcome State Fault Refusal :=
  match t with
  | .read a sz => readTxn a sz s
  | .write a sz d => writeTxn a sz d s

/-- `s` with the host's operation at the front done. -/
def State.popScript (s : State) : State := { s with script := s.script.tail }

/-- `s` with the turn at the front taken. -/
def State.endTurn (s : State) : State := { s with turns := s.turns.tail }

/-- One poll of `wait` (R108): a read of STATUS; the loop ends with the first value with BUSY = 0. -/
def pollStatus (s : State) : State :=
  let t := s.answer (.read s.statusWord .okay)
  if s.statusWord.getLsbD 0 then t else t.popScript

/-- The host's step: its next operation, or nothing where it has none (R85, R256; log entries 12 to 14). -/
def hostStep (s : State) : Host.Outcome State Fault Refusal :=
  match s.script with
  | [] => .next s
  | .txn t :: _ => mapNext State.popScript (runTxn t s)
  | .wait :: _ => .next (pollStatus s)
  | .hardReset :: _ => .next s.hardReset.popScript

/-- The instruction a pending command is (R21, R101). -/
def Command.instr : Command → Instr
  | .nop => .nop
  | .convert => .convert
  | .scorePix => .scorePix
  | .scoreHsv => .scoreHsv
  | .mask => .mask
  | .locate => .locate
  | .frame => .frame

/-- The agent's step that comes (R85): the completion step of the pending command where the sequencer moves (R122), the
host's step otherwise. -/
def agentStep (s : State) : Host.Outcome State Fault Refusal :=
  match s.pend with
  | some c => if s.sequencerMoves then exec c.instr s else hostStep s
  | none => hostStep s

/-- The CTRL write that carries a command word (R100). -/
def ctrlTxn (w : Word) : HostOp := .txn (.write 0x00008 .four w)

/-- `s` with the CTRL write of `w` placed as the host's next operation and the host's turn next. -/
def State.placeWord (s : State) (w : Word) : State :=
  { s with script := ctrlTxn w :: s.script, turns := .host :: s.turns }

end Sys2Proof.Machine
end

