-- ==== Sys2Proof/Machine/Step.lean ====
section
/-! DEFINITION. One step of the machine: the one total order of R85. -/

namespace Sys2Proof.Machine

/-- One step: the agent whose turn it is moves, and the turn is taken (R85, R120; log entry 3). -/
def step (s : State) : Host.Outcome State Fault Refusal := mapNext State.endTurn (agentStep s)

/-- `s` with the command word of the table's numbering placed where the next step takes it (log entry 1). -/
def State.withFetchWord (s : State) (nbits w : Nat) : State := s.placeWord (BitVec.ofNat 32 (w % 2 ^ nbits))

end Sys2Proof.Machine
end

