-- ==== Sys2Proof/Machine/Script.lean ====
section
/-! DEFINITION. The host-script syntax (R107 to R109): each line as host operations, the pseudo-instructions as their
expansions, and the encoding of a transaction as a tuple. -/

namespace Sys2Proof.Machine

/-- `wr32 OFF, VALUE` (R107). -/
def wr32 (off : Offset) (v : Word) : HostOp := .txn (.write off .four v)

/-- `wr16 OFF, VALUE` (R107). -/
def wr16 (off : Offset) (v : Word) : HostOp := .txn (.write off .two v)

/-- `wr8 OFF, VALUE` (R107). -/
def wr8 (off : Offset) (v : Word) : HostOp := .txn (.write off .one v)

/-- `rd32 OFF` (R107). -/
def rd32 (off : Offset) : HostOp := .txn (.read off .four)

/-- `rd16 OFF` (R107). -/
def rd16 (off : Offset) : HostOp := .txn (.read off .two)

/-- `rd8 OFF` (R107). -/
def rd8 (off : Offset) : HostOp := .txn (.read off .one)

/-- `PIXBUF+k` or `MASKBUF+k` (R107). -/
def memOffset (which : MemId) (k : Nat) : Offset :=
  match which with
  | .pixbuf => BitVec.ofNat 18 (0x10000 + k)
  | .maskbuf => BitVec.ofNat 18 (0x20000 + k)

/-- The line that starts a command (R108): `wr32 CTRL, <CMD>`. -/
def startLine (c : Command) : HostOp := wr32 Reg.ctrl.offset (encode c.instr)

/-- `SRST` (R108). -/
def srstLine : HostOp := wr32 Reg.ctrl.offset (encode .srst)

/-- `clr` (R108). -/
def clrLine : HostOp := wr32 Reg.status.offset 0x00000702

/-- `run <cmd>` (R108). That `<cmd>` is one of the seven commands of the line above it, and not `SRST`, is left open there:
DESIGN CHOICE (safe), log entry 19; the lines `SRST` and `wait` are `[srstLine, .wait]`. -/
def runLines (c : Command) : List HostOp := [startLine c, .wait]

/-- `pix k, R, G, B, A` (R108). -/
def pixLine (k : Nat) (r g b a : Byte) : HostOp := wr32 (memOffset .pixbuf (4 * k)) (a ++ r ++ g ++ b)

/-- `fill8 S+k, n, v` for k and n multiples of 4 (R108). -/
def fill8Lines (which : MemId) (k n : Nat) (v : Byte) : List HostOp :=
  (List.range (n / 4)).map fun j => wr32 (memOffset which (k + 4 * j)) (v ++ v ++ v ++ v)

/-- The op of a tuple (R109). -/
inductive TxnOp where
  | r
  | w
  deriving DecidableEq, Repr

/-- The tuple (op, size, offset, data) of a transaction (R109); data is 0 for reads. -/
def Txn.tuple : Txn → TxnOp × Nat × Offset × Word
  | .read a sz => (.r, sz.bytes, a, 0)
  | .write a sz d => (.w, sz.bytes, a, d)

/-- The size of so many bytes (R71): 1, 2 and 4 have one. -/
def Size.ofBytes : Nat → Option Size
  | 1 => some .one
  | 2 => some .two
  | 4 => some .four
  | _ => none

/-- The transaction a tuple encodes (R109), if any: a read carries data 0. -/
def Txn.ofTuple : TxnOp × Nat × Offset × Word → Option Txn
  | (.r, n, a, d) =>
    match Size.ofBytes n with
    | some sz => if d = 0 then some (.read a sz) else none
    | none => none
  | (.w, n, a, d) =>
    match Size.ofBytes n with
    | some sz => some (.write a sz d)
    | none => none

/-- The read of STATUS that `wait` repeats (R108): `rd32 STATUS`. -/
def pollTxn : Txn := .read Reg.status.offset .four

/-- The expansion of a host script as transactions (R108, R109). How often a `wait` polls is open (R263), so `busy` gives for
each `wait` in turn how many of its polls read BUSY = 1; one more poll, which reads BUSY = 0, ends it. A hard reset is no
transaction (R250). DEDUCED (safe), log entry 18. -/
def expandScript : List HostOp → List Nat → List Txn
  | [], _ => []
  | .txn t :: rest, busy => t :: expandScript rest busy
  | .wait :: rest, busy => List.replicate (busy.headD 0 + 1) pollTxn ++ expandScript rest busy.tail
  | .hardReset :: rest, busy => expandScript rest busy

/-- The encoding of a host script (R109): its expansion as a list of tuples. -/
def encodeScript (script : List HostOp) (busy : List Nat) : List (TxnOp × Nat × Offset × Word) :=
  (expandScript script busy).map Txn.tuple

/-- The op of the transaction an answer answers (R71, R109). -/
def Reply.op : Reply → TxnOp
  | .read _ _ => .r
  | .write _ => .w

/-- The op of a transaction (R109). -/
def Txn.op : Txn → TxnOp
  | .read _ _ => .r
  | .write _ _ _ => .w

/-- The state with a script given to the host. -/
def State.withScript (s : State) (script : List HostOp) : State := { s with script := script }

/-- The end of a run (R264): the script is used up and PEND is none. -/
abbrev State.Ended (s : State) : Prop := s.script = [] ∧ s.pend = none

end Sys2Proof.Machine
end

