-- ==== Sys2Proof/Safety.lean ====
section
/-! DEFINITION. What claims about CTB-CORE rest on: the start state of a script and the launch premise `Clean` (R255), the
conditions under which a command reads written bytes only (R182, R198, R254), and the invariant that every step keeps. -/

namespace Sys2Proof.Machine

/-- The start state of a host script (R255): the values of the registers, ID and PARAM by the parameters, and for every memory
byte whether it is written and, if so, its value. -/
structure StartState where
  params : Config.Params
  regs : Regs
  pixbuf : Memory
  maskbuf : Memory
  deriving DecidableEq, Repr

/-- The start state of every program of the spec (R255): hard reset, with the values of R251. -/
def StartState.hardReset (p : Config.Params) : StartState :=
  { params := p, regs := Regs.reset, pixbuf := [], maskbuf := [] }

/-- The machine in a start state, with a script given to the host and the turns to come. -/
def StartState.launch (start : StartState) (script : List HostOp) (turns : List Agent) : State :=
  { params := start.params
    regs := start.regs
    pend := none
    pixbuf := start.pixbuf
    maskbuf := start.maskbuf
    script := script
    replies := []
    turns := turns }

/-- The launch premise of a host script (R255): PEND none, STATUS 0, the registers hold the values of the script's start state,
and every memory byte is written, with its value, or unwritten as the start state says. That no model fault is recorded needs
no clause: a fault is an outcome, not a state (log entry 5). -/
abbrev State.Clean (s : State) (start : StartState) : Prop :=
  s.pend = none ∧
    s.statusWord = 0 ∧
      (s.params = start.params ∧ s.regs = start.regs) ∧
        (∀ o, s.pixbuf.read o = start.pixbuf.read o) ∧ ∀ o, s.maskbuf.read o = start.maskbuf.read o

/-- The bytes of MASK's read set are written (R182, R254). -/
abbrev State.PixelsWritten (s : State) : Prop :=
  ∀ o < 4 * s.regs.pixelCount, (s.pixbuf.read o).isSome = true

/-- The scan window of a locate with side `n` and probe column `p` is written (R198). -/
abbrev WindowWritten (m : Memory) (sel : RowSel) (n p : Nat) : Prop :=
  p < n →
    (∀ y < n / 2, (m.read (y * n + p)).isSome = true) ∧
      ∀ row ∈ probeRow sel (probeRows m n p), ∀ x < n, (m.read ((row + 1) * n + x)).isSome = true

/-- LOCATE's scan window is written. -/
abbrev State.MaskWindowWritten (s : State) : Prop :=
  WindowWritten s.maskbuf s.regs.rowSel (isqrt s.regs.maskLength) s.regs.probe

/-- FOUND = 1 only with FAIL = NONE (R24). -/
abbrev Status.Consistent (st : Status) : Prop := st.found = true → st.fail = .none

/-- While BUSY, DONE is 0 (R121, R260). -/
abbrev State.LatchConsistent (s : State) : Prop := s.pend ≠ none → s.regs.status.done = false

/-- What CONV_OUT and CONV_HN can hold (R39, R40, R142). -/
abbrev Regs.ConvConsistent (r : Regs) : Prop :=
  r.convOut.max.toNat = r.convOut.min.toNat + r.convOut.delta.toNat ∧
    (r.convOut.sect = 0 ↔ r.convOut.delta = 0) ∧
      (r.convOut.delta = 0 → r.convHn = 0) ∧
        (r.convOut.delta ≠ 0 → r.convHn.toNat < 6 * r.convOut.delta.toNat)

/-- What SCORE_OUT can hold (R41, R168). -/
abbrev ScoreOut.Consistent (o : ScoreOut) : Prop :=
  (o.gate = true → o.byte = 0 ∧ o.neg = false) ∧ (o.neg = true → o.byte = 0)

/-- What the locate results can hold beside FOUND and FAIL (R42 to R45, R195, R196). -/
abbrev Regs.LocateConsistent (r : Regs) : Prop :=
  (r.status.found = true →
      r.resEdges.left.toNat ≤ r.side.toNat / 2 ∧
        r.side.toNat / 2 < r.resEdges.right.toNat ∧
          r.resEdges.right.toNat < r.side.toNat ∧
            r.resRow.toNat < r.side.toNat / 2 ∧
              r.resXY.x.toNat = (r.resEdges.left.toNat + r.resEdges.right.toNat) / 2 ∧
                r.resXY.y.toNat = r.resRow.toNat + 1) ∧
    (r.status.found = false → r.resXY.x = 0 ∧ r.resXY.y = 0 ∧ r.resEdges.right = 0) ∧
      (r.status.found = false → r.status.fail ≠ .noRightEdge → r.resEdges.left = 0) ∧
        (r.status.found = false →
          r.status.fail ≠ .noRightEdge → r.status.fail ≠ .noLeftEdge → r.resRow = 0)

/-- The memories are in canonical form and hold no offset beyond their size (R50, R51). -/
abbrev State.MemoryConsistent (s : State) : Prop :=
  s.pixbuf.wf ∧
    s.maskbuf.wf ∧
      s.pixbuf.within (memSize s.params .pixbuf) ∧ s.maskbuf.within (memSize s.params .maskbuf)

/-- The invariant of the machine. -/
abbrev State.Inv (s : State) : Prop :=
  s.params.Legal ∧
    s.MemoryConsistent ∧
      s.LatchConsistent ∧
        s.regs.status.Consistent ∧
          s.regs.ConvConsistent ∧
            s.regs.scoreOut.Consistent ∧
              s.regs.LocateConsistent ∧ s.regs.side.toNat * s.regs.side.toNat ≤ s.params.pixCap

end Sys2Proof.Machine
end

