-- ==== Sys2Proof/Certificates/Slice0/Obligations.lean ====
section
/-! DEFINITION. The statements for the provers. The predicates they share stand first, in namespace `Sys2Proof.Claims`; each is
written from the spec's rules and not from the model's functions wherever the rule gives a formula. -/

open Sys2Proof Sys2Proof.Machine

namespace Sys2Proof.Claims

/-- The step that comes is the host's, and `op` is what it does. -/
abbrev HostDoes (s : State) (op : HostOp) : Prop := s.sequencerMoves = false ∧ ∃ rest, s.script = op :: rest

/-- `t` after the host's transaction is answered with `r` and the turn is taken. -/
def answered (t : State) (r : Reply) : State :=
  { t with script := t.script.tail, replies := r :: t.replies, turns := t.turns.tail }

/-- A written non-zero byte. -/
abbrev NonZeroByte (m : Memory) (o : Nat) : Prop := ∃ b, m.read o = some b ∧ b ≠ 0

/-- A written zero byte. -/
abbrev ZeroByte (m : Memory) (o : Nat) : Prop := m.read o = some 0

/-- A written byte. -/
abbrev Written (m : Memory) (o : Nat) : Prop := (m.read o).isSome = true

/-- `n` is isqrt(l), the largest natural whose square is at most `l` (R15). -/
abbrev IsSide (n l : Nat) : Prop := n * n ≤ l ∧ l < (n + 1) * (n + 1)

/-- The command code of R101. -/
def commandCode : Command → BitVec 4
  | .nop => 0x0
  | .convert => 0x1
  | .scorePix => 0x2
  | .scoreHsv => 0x3
  | .mask => 0x4
  | .locate => 0x5
  | .frame => 0x6

/-- MAX, MIN, DELTA, SECT and HN of the channels, as R140 to R142 give them. -/
def ConvSpec (r g b max min delta sect : Nat) (hn : Int) : Prop :=
  max = Nat.max r (Nat.max g b) ∧
    min = Nat.min r (Nat.min g b) ∧
      delta = max - min ∧
        sect = (if delta = 0 then 0 else if max = r then 1 else if max = g then 2 else 3) ∧
          (sect = 0 → hn = 0) ∧
            (sect = 1 → b ≤ g → hn = (g : Int) - b) ∧
              (sect = 1 → g < b → hn = 6 * (delta : Int) + ((g : Int) - b)) ∧
                (sect = 2 → hn = 2 * (delta : Int) + ((b : Int) - r)) ∧
                  (sect = 3 → hn = 4 * (delta : Int) + ((r : Int) - g))

/-- The pixel whose bytes B, G, R are written at 4i, 4i+1, 4i+2, alpha being written at 4i+3 (R50, R182). -/
abbrev PixelAt (m : Memory) (i : Nat) (p : Pixel) : Prop :=
  m.read (4 * i) = some p.blue ∧ m.read (4 * i + 1) = some p.green ∧ m.read (4 * i + 2) = some p.red ∧
    Written m (4 * i + 3)

/-- What the registers of R196 hold after a locate of side `n`. -/
abbrev LocateResult (t : State) (n : Nat) (found : Bool) (fail : FailCode) (x y row left right : Nat) : Prop :=
  t.regs.side.toNat = n ∧ t.regs.status.found = found ∧ t.regs.status.fail = fail ∧
    t.regs.resXY.x.toNat = x ∧ t.regs.resXY.y.toNat = y ∧ t.regs.resRow.toNat = row ∧
      t.regs.resEdges.left.toNat = left ∧ t.regs.resEdges.right.toNat = right

/-- `t` is `s` after a completion step that wrote nothing but the registers of R196. -/
abbrev LocateFrame (s t : State) : Prop :=
  t = { s with
    pend := none
    regs := { s.regs with
      status := { s.regs.status with done := true, found := t.regs.status.found, fail := t.regs.status.fail }
      side := t.regs.side
      resXY := t.regs.resXY
      resRow := t.regs.resRow
      resEdges := t.regs.resEdges } }

/-- A LOCATE is about to complete, its length check passes, and its side is `n`, its probe column `p` (R191). -/
abbrev LocateReady (s : State) (n p : Nat) : Prop :=
  s.completes .locate = true ∧ s.regs.maskLen.toNat ≤ s.params.pixCap ∧ IsSide n s.regs.maskLen.toNat ∧
    p = s.regs.probeCol.toNat

/-- `y` is the probe row of step 1, the probe column being written (R193). -/
abbrev IsProbeRow (s : State) (n p y : Nat) : Prop :=
  (∀ z < n / 2, Written s.maskbuf (z * n + p)) ∧
    y < n / 2 ∧ NonZeroByte s.maskbuf (y * n + p) ∧
      (s.regs.rowSel = .nearest → ∀ z < n / 2, y < z → ZeroByte s.maskbuf (z * n + p)) ∧
        (s.regs.rowSel = .topmost → ∀ z < y, ZeroByte s.maskbuf (z * n + p))

/-- `x` is the left edge on row `r` (R194). -/
abbrev IsLeftEdge (m : Memory) (n r x : Nat) : Prop :=
  x ≤ n / 2 ∧ NonZeroByte m (r * n + x) ∧ ∀ z ≤ n / 2, x < z → ZeroByte m (r * n + z)

/-- `x` is the right edge on row `r` (R195). -/
abbrev IsRightEdge (m : Memory) (n r x : Nat) : Prop :=
  n / 2 < x ∧ x < n ∧ NonZeroByte m (r * n + x) ∧ ∀ z < x, n / 2 < z → ZeroByte m (r * n + z)

/-- The cases of a bus error (R75), an access of more than one byte counting every byte it moves (log entry 8). -/
abbrev BusErrorCase (p : Config.Params) (a n : Nat) : Prop :=
  (n = 2 ∧ a % 2 ≠ 0) ∨ (n = 4 ∧ a % 4 ≠ 0) ∨ (a ≤ 0x000FF ∧ n ≠ 4) ∨ (0x00100 ≤ a ∧ a ≤ 0x0FFFF) ∨
    (0x10000 ≤ a ∧ a ≤ 0x1FFFF ∧ 4 * p.pixCap < (a - 0x10000) + n) ∨
      (0x20000 ≤ a ∧ a ≤ 0x23FFF ∧ p.pixCap < (a - 0x20000) + n) ∨ 0x24000 ≤ a

/-- The first offset of a memory's window (R70). -/
def windowBase : MemId → Nat
  | .pixbuf => 0x10000
  | .maskbuf => 0x20000

/-- An access of `n` bytes at `a` that is no bus error reaches byte `off` of a memory's window (R70). -/
abbrev MemAccess (p : Config.Params) (a : Offset) (n : Nat) (which : MemId) (off : Nat) : Prop :=
  a.toNat = windowBase which + off ∧ off ≤ (match which with | .pixbuf => 0xFFFF | .maskbuf => 0x3FFF) ∧
    ¬ BusErrorCase p a.toNat n

/-- What a register reads after a write of `d` while idle, `old` being what it read before (R20, R24, R46, R78). -/
def afterRegWrite (old d : Word) : Reg → Word
  | .status => old &&& ~~~(d &&& 0x00000702)
  | .intEn => d &&& 0x00000003
  | .tgtH => d &&& 0x0000FFFF
  | .tgtS => d &&& 0x0000FFFF
  | .tgtV => d &&& 0x0000FFFF
  | .hueTol => d &&& 0x0000FFFF
  | .cfg => d &&& 0x00000001
  | .probeCol => d &&& 0x0000FFFF
  | .bufLen => d
  | .maskLen => d
  | .pixIn => d
  | .smpH => d &&& 0x0000FFFF
  | .smpS => d &&& 0x0000FFFF
  | .smpV => d &&& 0x0000FFFF
  | .id => old
  | .param => old
  | .ctrl => old
  | .convOut => old
  | .convHn => old
  | .scoreOut => old
  | .resXY => old
  | .resRow => old
  | .resEdges => old
  | .side => old
  | .reserved => old

/-- STATUS as R24 lays it out: BUSY[0], DONE[1], FOUND[2], FAIL[6:4], ERR_CMD[8], ERR_WBUSY[9], ERR_LEN[10], BUSY being
PEND ≠ none (R21), every other bit 0. -/
def statusFields (s : State) : Word :=
  (0 : BitVec 21) ++ BitVec.ofBool s.regs.status.errLen ++ BitVec.ofBool s.regs.status.errWbusy ++
    BitVec.ofBool s.regs.status.errCmd ++ (0 : BitVec 1) ++
      (match s.regs.status.fail with
        | .none => (0 : BitVec 3)
        | .noProbeRow => 1
        | .noLeftEdge => 2
        | .noRightEdge => 3
        | .probeOutOfRange => 4) ++
        (0 : BitVec 1) ++ BitVec.ofBool s.regs.status.found ++ BitVec.ofBool s.regs.status.done ++
          BitVec.ofBool (decide (s.pend ≠ none))

/-- A CTRL write of the command word `w` is the host's next operation. -/
abbrev HostCommands (s : State) (w : Word) : Prop := HostDoes s (.txn (.write 0x00008 .four w))

/-- The two states agree on the target and tolerance registers. -/
abbrev SameTarget (s₁ s₂ : State) : Prop :=
  s₁.regs.tgtH = s₂.regs.tgtH ∧ s₁.regs.tgtS = s₂.regs.tgtS ∧ s₁.regs.tgtV = s₂.regs.tgtV ∧
    s₁.regs.hueTol = s₂.regs.hueTol

/-- The two states agree on what MASK reads (R124). -/
abbrev SameMaskInputs (s₁ s₂ : State) : Prop :=
  s₁.params.pixCap = s₂.params.pixCap ∧ s₁.regs.bufLen = s₂.regs.bufLen ∧ SameTarget s₁ s₂ ∧
    ∀ o < 4 * (s₁.regs.bufLen.toNat / 4), s₁.pixbuf.read o = s₂.pixbuf.read o

/-- The two states agree on what the command reads (R124, R198). FRAME's locate phase reads the mask FRAME has just written,
so MASK_LEN and MASKBUF are no inputs of FRAME. -/
def SameReadSet : Command → State → State → Prop
  | .nop, _, _ => True
  | .convert, s₁, s₂ => s₁.regs.pixIn = s₂.regs.pixIn
  | .scorePix, s₁, s₂ => s₁.regs.pixIn = s₂.regs.pixIn ∧ SameTarget s₁ s₂
  | .scoreHsv, s₁, s₂ =>
    s₁.regs.smpH = s₂.regs.smpH ∧ s₁.regs.smpS = s₂.regs.smpS ∧ s₁.regs.smpV = s₂.regs.smpV ∧ SameTarget s₁ s₂
  | .mask, s₁, s₂ => SameMaskInputs s₁ s₂
  | .locate, s₁, s₂ =>
    s₁.params.pixCap = s₂.params.pixCap ∧ s₁.regs.maskLen = s₂.regs.maskLen ∧ s₁.regs.probeCol = s₂.regs.probeCol ∧
      s₁.regs.rowSel = s₂.regs.rowSel ∧
        ∀ n p, IsSide n s₁.regs.maskLen.toNat → p = s₁.regs.probeCol.toNat → p < n →
          (∀ y < n / 2, s₁.maskbuf.read (y * n + p) = s₂.maskbuf.read (y * n + p)) ∧
            ∀ y, IsProbeRow s₁ n p y → ∀ x < n,
              s₁.maskbuf.read ((y + 1) * n + x) = s₂.maskbuf.read ((y + 1) * n + x)
  | .frame, s₁, s₂ =>
    SameMaskInputs s₁ s₂ ∧ s₁.regs.probeCol = s₂.regs.probeCol ∧ s₁.regs.rowSel = s₂.regs.rowSel

/-- Agreement on the registers a locate writes (R196). -/
abbrev SameLocateResults (t₁ t₂ : State) : Prop :=
  t₁.regs.side = t₂.regs.side ∧ t₁.regs.resXY = t₂.regs.resXY ∧ t₁.regs.resRow = t₂.regs.resRow ∧
    t₁.regs.resEdges = t₂.regs.resEdges ∧ t₁.regs.status.found = t₂.regs.status.found ∧
      t₁.regs.status.fail = t₂.regs.status.fail

/-- The two results `t₁`, `t₂` of runs from `s₁`, `s₂` agree on what the command writes (R124): a command whose length check
fails writes ERR_LEN only. -/
def SameWriteSet : Command → State → State → State → Prop
  | .nop, _, _, _ => True
  | .convert, _, t₁, t₂ => t₁.regs.convOut = t₂.regs.convOut ∧ t₁.regs.convHn = t₂.regs.convHn
  | .scorePix, _, t₁, t₂ =>
    t₁.regs.convOut = t₂.regs.convOut ∧ t₁.regs.convHn = t₂.regs.convHn ∧ t₁.regs.scoreOut = t₂.regs.scoreOut
  | .scoreHsv, _, t₁, t₂ => t₁.regs.scoreOut = t₂.regs.scoreOut
  | .mask, s₁, t₁, t₂ =>
    (s₁.params.pixCap < s₁.regs.bufLen.toNat / 4 → t₁.regs.status.errLen = true ∧ t₂.regs.status.errLen = true) ∧
      (s₁.regs.bufLen.toNat / 4 ≤ s₁.params.pixCap →
        t₁.regs.maskLen = t₂.regs.maskLen ∧
          ∀ o < s₁.regs.bufLen.toNat / 4, t₁.maskbuf.read o = t₂.maskbuf.read o)
  | .locate, s₁, t₁, t₂ =>
    (s₁.params.pixCap < s₁.regs.maskLen.toNat → t₁.regs.status.errLen = true ∧ t₂.regs.status.errLen = true) ∧
      (s₁.regs.maskLen.toNat ≤ s₁.params.pixCap → SameLocateResults t₁ t₂)
  | .frame, s₁, t₁, t₂ =>
    (s₁.params.pixCap < s₁.regs.bufLen.toNat / 4 → t₁.regs.status.errLen = true ∧ t₂.regs.status.errLen = true) ∧
      (s₁.regs.bufLen.toNat / 4 ≤ s₁.params.pixCap →
        t₁.regs.maskLen = t₂.regs.maskLen ∧
          (∀ o < s₁.regs.bufLen.toNat / 4, t₁.maskbuf.read o = t₂.maskbuf.read o) ∧ SameLocateResults t₁ t₂)

end Sys2Proof.Claims

open Sys2Proof.Claims

/-! Encoding. -/

/-- 30_encoding.md section 1 and opcode_table.json: a word decodes to a well-formed instruction exactly when it matches that
instruction's row, mask and match, whatever its other bits hold. So every word has one meaning, no two rows overlap, and
decoding an encoded instruction gives it back. -/
def Obligations.DecodeMatchesOpcodeTable : Prop :=
  ∀ (w : Word) (i : Instr), WellFormed i → (decode w = i ↔ w &&& careBits i = encode i)

/-- R101: the command codes, and SRST whatever CMD holds. -/
def Obligations.DecodeReadsCommandCodes : Prop :=
  ∀ w : Word,
    (w.getLsbD 31 = true → decode w = .srst) ∧
      (w.getLsbD 31 = false →
        (∀ c : Command, w.extractLsb' 0 4 = commandCode c → decode w = c.instr) ∧
          (w.extractLsb' 0 4 = 0x7 → decode w = .reserved7) ∧
            (0x8 ≤ (w.extractLsb' 0 4).toNat → decode w = .reserved8F (w.extractLsb' 0 4)))

/-- Sanity: words written out from R100, R101, R108 and R125. -/
def Obligations.SpecWordsDecode : Prop :=
  decode 0x00000000 = .nop ∧ decode 0x7FFFFFF0 = .nop ∧ decode 0x00000001 = .convert ∧ decode 0x00000002 = .scorePix ∧
    decode 0x00000003 = .scoreHsv ∧ decode 0x00000004 = .mask ∧ decode 0x00000005 = .locate ∧
      decode 0x00000006 = .frame ∧ decode 0x00000007 = .reserved7 ∧ decode 0x00000009 = .reserved8F 0x9 ∧
        decode 0x0000000F = .reserved8F 0xF ∧ decode 0x80000000 = .srst ∧ decode 0x80000004 = .srst

/-- 20_memory.md section 2 (byte order) and 30_encoding.md section 1: the command word is four bytes, least significant
first, and fewer than four bytes are refused by name. -/
def Obligations.CommandWordBytesLittleEndian : Prop :=
  (∀ (w : Word) (rest : List Byte),
      decodeBytes (w.extractLsb' 0 8 :: w.extractLsb' 8 8 :: w.extractLsb' 16 8 :: w.extractLsb' 24 8 :: rest) =
        .ok (decode w, rest)) ∧
    ∀ bs : List Byte, bs.length < 4 → decodeBytes bs = .error .shortWord

/-! A step runs the decoded instruction. -/

/-- 20_memory.md section 2, 40_control.md section 1: where the host's next operation is a CTRL write of `w`, the step is
`exec` of the decoded word, after which the write is answered OKAY, taken off the script, and the turn is taken. -/
def Obligations.StepRunsCommandWord : Prop :=
  ∀ (s : State) (w : Word), HostCommands s w →
    step s =
      (match exec (decode w) s with
        | .next t => .next (answered t (.write .okay))
        | .fault f => .fault f
        | .refused r => .refused r)

/-- 40_control.md section 1: where the sequencer moves, the step is `exec` of the pending command, and the turn is taken. -/
def Obligations.StepRunsPendingCommand : Prop :=
  ∀ (s : State) (c : Command), s.completes c = true →
    step s =
      (match exec c.instr s with
        | .next t => .next { t with turns := t.turns.tail }
        | .fault f => .fault f
        | .refused r => .refused r)

/-! Command control. -/

/-- R121: the start step of each of the seven commands, for every word that carries its code, as the instruction and as the
host's write of it. -/
def Obligations.StartStepLatchesCommand : Prop :=
  ∀ (s : State) (w : Word) (c : Command),
    w.getLsbD 31 = false → s.busy = false → w.extractLsb' 0 4 = commandCode c →
      exec (decode w) s =
          .next { s with pend := some c, regs := { s.regs with status := { s.regs.status with done := false } } } ∧
        (HostCommands s w →
          step s =
            .next (answered
              { s with pend := some c, regs := { s.regs with status := { s.regs.status with done := false } } }
              (.write .okay)))

/-- R127: a reserved code signals ERR_CMD while idle and changes nothing else; while BUSY it is dropped with ERR_WBUSY: as the
instruction, and as the host's write of a word that carries such a code. -/
def Obligations.ReservedCodesSignalError : Prop :=
  (∀ w : Word, w.getLsbD 31 = false → 0x7 ≤ (w.extractLsb' 0 4).toNat →
      (decode w = .reserved7 ∨ ∃ cmd, decode w = .reserved8F cmd) ∧
        ∀ s : State, HostCommands s w →
          (s.busy = false →
              step s =
                .next (answered { s with regs := { s.regs with status := { s.regs.status with errCmd := true } } }
                  (.write .okay))) ∧
            (s.busy = true →
              step s =
                .next (answered { s with regs := { s.regs with status := { s.regs.status with errWbusy := true } } }
                  (.write .okay)))) ∧
    ∀ (s : State) (i : Instr), (i = .reserved7 ∨ ∃ cmd, i = .reserved8F cmd) →
      (s.busy = false →
          exec i s = .next { s with regs := { s.regs with status := { s.regs.status with errCmd := true } } }) ∧
        (s.busy = true →
          exec i s = .next { s with regs := { s.regs with status := { s.regs.status with errWbusy := true } } })

/-- R126: SRST in any state, BUSY or not: registers at their reset values, PEND none, PIXBUF unchanged, MASKBUF unchanged but
for the bytes an aborted MASK or FRAME may have written, which become unwritten. It takes effect in the write's own step. -/
def Obligations.SoftResetEffect : Prop :=
  (∀ w : Word, w.getLsbD 31 = true →
      decode w = .srst ∧
        ∀ s : State, HostCommands s w → ∃ t, exec .srst s = .next t ∧ step s = .next (answered t (.write .okay))) ∧
    ∀ s : State, ∃ t, exec .srst s = .next t ∧
      (∀ r : Reg, readReg t r =
          match r with
          | .id => 0x43544231
          | .param => readReg s .param
          | .tgtH => 0x00001E00
          | .tgtS => 0x0000FFFF
          | .tgtV => 0x0000FFFF
          | .probeCol => 0x00000032
          | _ => 0) ∧
        t.regs = Regs.reset ∧
          (∀ o, t.maskbuf.read o =
            if (s.pend = some .mask ∨ s.pend = some .frame) ∧ s.regs.bufLen.toNat / 4 ≤ s.params.pixCap ∧
                o < s.regs.bufLen.toNat / 4 then none
            else s.maskbuf.read o) ∧
            t = { s with pend := none, regs := t.regs, maskbuf := t.maskbuf }

/-- 40_control.md section 2, NOP: its completion writes nothing but PEND, BUSY and DONE. -/
def Obligations.NopCompletes : Prop :=
  ∀ s : State, s.completes .nop = true →
    exec .nop s =
      .next { s with pend := none, regs := { s.regs with status := { s.regs.status with done := true } } }

/-! The converter. -/

/-- R103: what the operand codes stand for. -/
def Obligations.OperandCodesAreExact : Prop :=
  (∀ h : Half, (hueValue h).toRat = (h.toNat : ℚ) / 128) ∧
    (∀ v : Half, (unitValue v).toRat = (v.toNat : ℚ) / 65535) ∧
      (∀ c : Byte, (unitValue (BitVec.ofNat 16 (257 * c.toNat))).toRat = (c.toNat : ℚ) / 255) ∧
        (∀ k < 512, (hueValue (BitVec.ofNat 16 (128 * k))).toRat = k) ∧
          ∀ w : Word, pixelOfWord w = ⟨w.extractLsb' 16 8, w.extractLsb' 8 8, w.extractLsb' 0 8⟩

/-- R140 to R142: the integers of the converter for every pixel, the bounds of HN, and the hue as an exact rational. The sector
formula of HN is the spec's "The standard formula is [from general knowledge, not in source]", log entry 17. -/
def Obligations.ConverterIntegers : Prop :=
  ∀ p : Pixel,
    ConvSpec p.red.toNat p.green.toNat p.blue.toNat (conv p).max (conv p).min (conv p).delta (conv p).sect (conv p).hn ∧
      0 ≤ (conv p).hn ∧ (0 < (conv p).delta → (conv p).hn ≤ 6 * ((conv p).delta : Int) - 1) ∧ (conv p).hn ≤ 1529 ∧
        (conv p).hue.toRat = (if (conv p).delta = 0 then 0 else 60 * ((conv p).hn : ℚ) / ((conv p).delta : ℚ))

/-- 41_convert.md section 2: CONVERT writes CONV_OUT and CONV_HN from the channels of PIX_IN, and nothing else but the
lifecycle's PEND, BUSY and DONE. The alpha channel has no influence. ConvSpec's HN is the sector formula of log entry 17. -/
def Obligations.ConvertCompletes : Prop :=
  ∀ s : State, s.completes .convert = true →
    ∃ t, exec .convert s = .next t ∧
      ConvSpec (s.regs.pixIn.extractLsb' 16 8).toNat (s.regs.pixIn.extractLsb' 8 8).toNat
          (s.regs.pixIn.extractLsb' 0 8).toNat t.regs.convOut.max.toNat t.regs.convOut.min.toNat
          t.regs.convOut.delta.toNat t.regs.convOut.sect.toNat (t.regs.convHn.toNat : Int) ∧
        t = { s with
          pend := none
          regs := { s.regs with
            convOut := t.regs.convOut
            convHn := t.regs.convHn
            status := { s.regs.status with done := true } } }

/-- 41_convert.md section 3: the hue does not depend on which of two equal maximum channels is taken. The sector formulas
written out here are the spec's "The standard formula is [from general knowledge, not in source]", log entry 17. -/
def Obligations.HueIndependentOfTies : Prop :=
  ∀ p : Pixel,
    (p.red = p.green → p.blue.toNat < p.red.toNat →
        (conv p).hn = (p.green.toNat : Int) - p.blue.toNat ∧
          (conv p).hn = 2 * ((conv p).delta : Int) + ((p.blue.toNat : Int) - p.red.toNat)) ∧
      (p.red = p.blue → p.green.toNat < p.red.toNat →
        (conv p).hn = 6 * ((conv p).delta : Int) + ((p.green.toNat : Int) - p.blue.toNat) ∧
          (conv p).hn = 4 * ((conv p).delta : Int) + ((p.red.toNat : Int) - p.green.toNat)) ∧
        (p.green = p.blue → p.red.toNat < p.green.toNat →
          (conv p).hn = 2 * ((conv p).delta : Int) + ((p.blue.toNat : Int) - p.red.toNat) ∧
            (conv p).hn = 4 * ((conv p).delta : Int) + ((p.red.toNat : Int) - p.green.toNat))

/-- 41_convert.md sections 1 and 3: value and saturation as exact rationals in [0, 1], saturation 0 exactly for a grey, and the
hue in [0, 360). The clauses on the hue rest on the sector formula, the spec's "The standard formula is [from general
knowledge, not in source]", log entry 17. -/
def Obligations.ConverterValueSaturationBounds : Prop :=
  ∀ p : Pixel,
    (conv p).value.toRat = (Nat.max p.red.toNat (Nat.max p.green.toNat p.blue.toNat) : ℚ) / 255 ∧
      (conv p).saturation.toRat =
          (if (conv p).max = 0 then 0 else ((conv p).delta : ℚ) / ((conv p).max : ℚ)) ∧
        0 ≤ (conv p).saturation.toRat ∧ (conv p).saturation.toRat ≤ 1 ∧ 0 ≤ (conv p).value.toRat ∧
          (conv p).value.toRat ≤ 1 ∧
            ((conv p).saturation.toRat = 0 ↔ p.red = p.green ∧ p.green = p.blue) ∧
              0 ≤ (conv p).hue.toRat ∧ (conv p).hue.toRat < 360

/-- 41_convert.md section 3: the pixels of hue exactly 60 degrees, the reset target's hue, are those with R = G > B. It
rests on the sector formula, the spec's "The standard formula is [from general knowledge, not in source]", log entry 17. -/
def Obligations.YellowHueExactly : Prop :=
  ∀ p : Pixel, (conv p).hue.toRat = 60 ↔ p.red = p.green ∧ p.blue.toNat < p.red.toNat

/-! The scorer. -/

/-- R161 to R165: the scorer against the real-valued formula: the gate, the distance, 255·(1 − d/30) clamped to [0, 255] and
truncated, and the flag NEG. -/
def Obligations.ScoreMatchesRealFormula : Prop :=
  ∀ (t p : Hsv) (tol : Frac) (raw dh d2 : ℚ),
    raw = |t.hue.toRat - p.hue.toRat| →
      dh = (if 180 < raw then 360 - raw else raw) →
        d2 = dh ^ 2 + (t.sat.toRat - p.sat.toRat) ^ 2 + (t.val.toRat - p.val.toRat) ^ 2 →
          (tol.toRat < dh → score t p tol = { byte := 0, gate := true, neg := false }) ∧
            (dh ≤ tol.toRat →
              (score t p tol).gate = false ∧ ((score t p tol).neg = true ↔ 900 < d2) ∧
                (∃ m : ℕ, IsLeast {k : ℕ | 289 * d2 ≤ 4 * (k : ℚ) * (k : ℚ)} m ∧
                  (score t p tol).byte.toNat = 255 - min m 255) ∧
                  ((score t p tol).byte.toNat : ℤ) =
                    ⌊max 0 (min 255 (255 * (1 - Real.sqrt (d2 : ℝ) / 30)))⌋)

/-- 42_score.md section 4: identity at every tolerance code, symmetry, and the range of the flags. -/
def Obligations.ScoreIdentityAndSymmetry : Prop :=
  (∀ (x : Hsv) (tol : Half), score x x (hueValue tol) = { byte := 255, gate := false, neg := false }) ∧
    (∀ (x y : Hsv) (tol : Frac), score x y tol = score y x tol) ∧
      ∀ (x y : Hsv) (tol : Frac),
        ((score x y tol).gate = true → (score x y tol).byte = 0) ∧
          ((score x y tol).neg = true → (score x y tol).byte = 0 ∧ (score x y tol).gate = false)

/-- 42_score.md section 4: with tolerance 0 and an in-range target, every match byte of a pixel is 0 or at least 242. -/
def Obligations.ZeroToleranceByteBound : Prop :=
  ∀ (r : Regs) (p : Pixel), r.hueTol = 0 → r.tgtH.toNat < 46080 →
    (scorePixel r p).byte = 0 ∨ 242 ≤ (scorePixel r p).byte.toNat

/-- 42_score.md section 3, SCORE_PIX: the conversion of PIX_IN and its score against the target registers, and nothing else
but the lifecycle. ConvSpec's HN is the sector formula of log entry 17. -/
def Obligations.ScorePixCompletes : Prop :=
  ∀ s : State, s.completes .scorePix = true →
    ∃ t, exec .scorePix s = .next t ∧
      ConvSpec (s.regs.pixIn.extractLsb' 16 8).toNat (s.regs.pixIn.extractLsb' 8 8).toNat
          (s.regs.pixIn.extractLsb' 0 8).toNat t.regs.convOut.max.toNat t.regs.convOut.min.toNat
          t.regs.convOut.delta.toNat t.regs.convOut.sect.toNat (t.regs.convHn.toNat : Int) ∧
        t.regs.scoreOut =
            score ⟨hueValue s.regs.tgtH, unitValue s.regs.tgtS, unitValue s.regs.tgtV⟩
              (conv ⟨s.regs.pixIn.extractLsb' 16 8, s.regs.pixIn.extractLsb' 8 8, s.regs.pixIn.extractLsb' 0 8⟩).hsv
              (hueValue s.regs.hueTol) ∧
          t = { s with
            pend := none
            regs := { s.regs with
              convOut := t.regs.convOut
              convHn := t.regs.convHn
              scoreOut := t.regs.scoreOut
              status := { s.regs.status with done := true } } }

/-- 42_score.md section 3, SCORE_HSV: the score of the sample registers against the target registers, and nothing else but
the lifecycle. -/
def Obligations.ScoreHsvCompletes : Prop :=
  ∀ s : State, s.completes .scoreHsv = true →
    exec .scoreHsv s =
      .next { s with
        pend := none
        regs := { s.regs with
          scoreOut :=
            score ⟨hueValue s.regs.tgtH, unitValue s.regs.tgtS, unitValue s.regs.tgtV⟩
              ⟨hueValue s.regs.smpH, unitValue s.regs.smpS, unitValue s.regs.smpV⟩ (hueValue s.regs.hueTol)
          status := { s.regs.status with done := true } } }

/-! The mask generator. -/

/-- 43_mask.md sections 1 to 3: MASK whose length check passes and whose pixels are written: the match byte of every pixel,
every other MASKBUF byte unchanged, MASK_LEN the pixel count, and nothing else but the lifecycle. -/
def Obligations.MaskCompletes : Prop :=
  ∀ (s : State) (n : Nat), s.completes .mask = true → n = s.regs.bufLen.toNat / 4 → n ≤ s.params.pixCap →
    (∀ o < 4 * n, Written s.pixbuf o) →
      ∃ t, exec .mask s = .next t ∧
        (∀ i < n, ∀ p, PixelAt s.pixbuf i p →
          t.maskbuf.read i =
            some (score ⟨hueValue s.regs.tgtH, unitValue s.regs.tgtS, unitValue s.regs.tgtV⟩ (conv p).hsv
              (hueValue s.regs.hueTol)).byte) ∧
          (∀ o, n ≤ o → t.maskbuf.read o = s.maskbuf.read o) ∧
            t.regs.maskLen.toNat = n ∧
              t = { s with
                pend := none
                maskbuf := t.maskbuf
                regs := { s.regs with
                  maskLen := t.regs.maskLen
                  status := { s.regs.status with done := true } } }

/-- 43_mask.md section 1, 44_locate.md section 1: a length check that fails sets ERR_LEN and DONE, reads no memory and
writes nothing else. -/
def Obligations.LengthCheckFails : Prop :=
  ∀ (s : State) (c : Command), s.completes c = true →
    ((c = .mask ∨ c = .frame) ∧ s.params.pixCap < s.regs.bufLen.toNat / 4) ∨
        (c = .locate ∧ s.params.pixCap < s.regs.maskLen.toNat) →
      exec c.instr s =
        .next { s with
          pend := none
          regs := { s.regs with status := { s.regs.status with errLen := true, done := true } } }

/-- 43_mask.md section 3, 60_exceptions.md section 3: a MASK or FRAME that would read an unwritten PIXBUF byte, alpha
included, ends in UNINIT_READ. That the fault names the first such byte is the model's choice, log entry 6. -/
def Obligations.MaskFaultsOnUnwrittenPixel : Prop :=
  ∀ (s : State) (c : Command) (o : Nat), c = .mask ∨ c = .frame → s.completes c = true →
    s.regs.bufLen.toNat / 4 ≤ s.params.pixCap → o < 4 * (s.regs.bufLen.toNat / 4) → s.pixbuf.read o = none →
      (∀ o' < o, Written s.pixbuf o') → exec c.instr s = .fault (.uninitRead .pixbuf o)

/-! The locator. -/

/-- R192: a probe column not less than the side ends in PROBE_OUT_OF_RANGE whatever MASKBUF holds, written or not. -/
def Obligations.LocateProbeOutOfRange : Prop :=
  ∀ (s : State) (n p : Nat), LocateReady s n p → n ≤ p →
    ∃ t, exec .locate s = .next t ∧ LocateFrame s t ∧ LocateResult t n false .probeOutOfRange 0 0 0 0 0

/-- 44_locate.md section 2, step 1: no hit in the probe column's upper half. -/
def Obligations.LocateNoProbeRow : Prop :=
  ∀ (s : State) (n p : Nat), LocateReady s n p → p < n → (∀ y < n / 2, ZeroByte s.maskbuf (y * n + p)) →
    ∃ t, exec .locate s = .next t ∧ LocateFrame s t ∧ LocateResult t n false .noProbeRow 0 0 0 0 0

/-- 44_locate.md section 2, step 2: a probe row, and no hit at or left of the midpoint on the row below it. -/
def Obligations.LocateNoLeftEdge : Prop :=
  ∀ (s : State) (n p y : Nat), LocateReady s n p → p < n → IsProbeRow s n p y →
    (∀ x < n, Written s.maskbuf ((y + 1) * n + x)) → (∀ x ≤ n / 2, ZeroByte s.maskbuf ((y + 1) * n + x)) →
      ∃ t, exec .locate s = .next t ∧ LocateFrame s t ∧ LocateResult t n false .noLeftEdge 0 0 y 0 0

/-- 44_locate.md section 2, step 3: a probe row and a left edge, and no hit right of the midpoint. -/
def Obligations.LocateNoRightEdge : Prop :=
  ∀ (s : State) (n p y left : Nat), LocateReady s n p → p < n → IsProbeRow s n p y →
    (∀ x < n, Written s.maskbuf ((y + 1) * n + x)) → IsLeftEdge s.maskbuf n (y + 1) left →
      (∀ x < n, n / 2 < x → ZeroByte s.maskbuf ((y + 1) * n + x)) →
        ∃ t, exec .locate s = .next t ∧ LocateFrame s t ∧ LocateResult t n false .noRightEdge 0 0 y left 0

/-- 44_locate.md section 2: all three steps succeed, for both row rules. -/
def Obligations.LocateFindsPoint : Prop :=
  ∀ (s : State) (n p y left right : Nat), LocateReady s n p → p < n → IsProbeRow s n p y →
    (∀ x < n, Written s.maskbuf ((y + 1) * n + x)) → IsLeftEdge s.maskbuf n (y + 1) left →
      IsRightEdge s.maskbuf n (y + 1) right →
        ∃ t, exec .locate s = .next t ∧ LocateFrame s t ∧
          LocateResult t n true .none ((left + right) / 2) (y + 1) y left right

/-- 44_locate.md section 3, the scan window: a LOCATE ends in UNINIT_READ if a probe byte is unwritten, whatever step 1 would
find, or if step 1 finds a row and a byte of the row below it is unwritten. The fault names an unwritten byte of the scan
window: a probe byte, or, where the probe bytes are written, a byte of the row below the probe row. -/
def Obligations.LocateFaultsOnUnwrittenWindow : Prop :=
  ∀ (s : State) (n p : Nat), LocateReady s n p → p < n →
    (∃ y < n / 2, s.maskbuf.read (y * n + p) = none) ∨
        (∃ y, IsProbeRow s n p y ∧ ∃ x < n, s.maskbuf.read ((y + 1) * n + x) = none) →
      ∃ o, exec .locate s = .fault (.uninitRead .maskbuf o) ∧ s.maskbuf.read o = none ∧
        ((∃ y < n / 2, o = y * n + p) ∨ ∃ y, IsProbeRow s n p y ∧ ∃ x < n, o = (y + 1) * n + x)

/-- 44_locate.md section 5: the source's locator property, for every R, under NEAREST. -/
def Obligations.BarMaskGivesNeckPoint : Prop :=
  ∀ (s : State) (r : Nat), s.completes .locate = true → s.regs.maskLen = 10000 → s.regs.probeCol = 50 →
    s.regs.rowSel = .nearest → 10000 ≤ s.params.pixCap → r ≤ 49 →
      (∀ o < 10000, Written s.maskbuf o) →
        (∀ y < 100, ∀ x < 100,
          (NonZeroByte s.maskbuf (y * 100 + x) ↔ (x = 50 ∧ y ≤ r) ∨ (y = r + 1 ∧ (x = 40 ∨ x = 60)))) →
          ∃ t, exec .locate s = .next t ∧ LocateFrame s t ∧ LocateResult t 100 true .none 50 (r + 1) r 40 60

/-- 44_locate.md section 4: FRAME whose length check passes does what MASK and then LOCATE do, in one completion step. -/
def Obligations.FrameIsMaskThenLocate : Prop :=
  ∀ s : State, s.completes .frame = true → s.regs.bufLen.toNat / 4 ≤ s.params.pixCap →
    exec .frame s =
      (match exec .mask { s with pend := some .mask } with
        | .next u => exec .locate { u with pend := some .locate }
        | .fault f => .fault f
        | .refused r => .refused r)

/-- 44_locate.md section 4: FRAME over written pixels always completes, its locate phase reading only bytes its mask phase
wrote: the mask, MASK_LEN, the side, the locate results, and nothing else but the lifecycle. -/
def Obligations.FrameCompletes : Prop :=
  ∀ (s : State) (m n : Nat), s.completes .frame = true → m = s.regs.bufLen.toNat / 4 → m ≤ s.params.pixCap →
    IsSide n m → (∀ o < 4 * m, Written s.pixbuf o) →
      ∃ t, exec .frame s = .next t ∧
        (∀ i < m, ∀ p, PixelAt s.pixbuf i p →
          t.maskbuf.read i =
            some (score ⟨hueValue s.regs.tgtH, unitValue s.regs.tgtS, unitValue s.regs.tgtV⟩ (conv p).hsv
              (hueValue s.regs.hueTol)).byte) ∧
          (∀ o, m ≤ o → t.maskbuf.read o = s.maskbuf.read o) ∧
            t.regs.maskLen.toNat = m ∧ t.regs.side.toNat = n ∧
              LocateFrame
                { s with maskbuf := t.maskbuf, regs := { s.regs with maskLen := t.regs.maskLen } } t

/-! Write sets, frames and purity. -/

/-- 40_control.md section 1, the write sets: what no instruction but the named ones changes. -/
def Obligations.InstructionWriteSets : Prop :=
  ∀ (i : Instr) (s t : State), exec i s = .next t →
    (t.params = s.params ∧ t.pixbuf = s.pixbuf ∧ t.script = s.script ∧ t.replies = s.replies ∧ t.turns = s.turns) ∧
      (i ≠ .mask → i ≠ .frame → i ≠ .srst → t.maskbuf = s.maskbuf ∧ t.regs.maskLen = s.regs.maskLen) ∧
        (i ≠ .srst →
          t.regs.intEn = s.regs.intEn ∧ t.regs.tgtH = s.regs.tgtH ∧ t.regs.tgtS = s.regs.tgtS ∧
            t.regs.tgtV = s.regs.tgtV ∧ t.regs.hueTol = s.regs.hueTol ∧ t.regs.rowSel = s.regs.rowSel ∧
              t.regs.probeCol = s.regs.probeCol ∧ t.regs.bufLen = s.regs.bufLen ∧ t.regs.pixIn = s.regs.pixIn ∧
                t.regs.smpH = s.regs.smpH ∧ t.regs.smpS = s.regs.smpS ∧ t.regs.smpV = s.regs.smpV) ∧
          (i ≠ .convert → i ≠ .scorePix → i ≠ .srst →
            t.regs.convOut = s.regs.convOut ∧ t.regs.convHn = s.regs.convHn) ∧
            (i ≠ .scorePix → i ≠ .scoreHsv → i ≠ .srst → t.regs.scoreOut = s.regs.scoreOut) ∧
              (i ≠ .locate → i ≠ .frame → i ≠ .srst → SameLocateResults t s) ∧
                (i ≠ .mask → i ≠ .locate → i ≠ .frame → i ≠ .srst →
                  t.regs.status.errLen = s.regs.status.errLen)

/-- 40_control.md section 1, purity: two completion steps of one command from states that agree on its read set fault alike
and agree on its write set. -/
def Obligations.CommandsArePure : Prop :=
  ∀ (c : Command) (s₁ s₂ : State), s₁.completes c = true → s₂.completes c = true → SameReadSet c s₁ s₂ →
    (∀ f, exec c.instr s₁ = .fault f ↔ exec c.instr s₂ = .fault f) ∧
      ∀ t₁ t₂, exec c.instr s₁ = .next t₁ → exec c.instr s₂ = .next t₂ → SameWriteSet c s₁ t₁ t₂

/-! The host port. -/

/-- 10_state.md section 1: what each offset of the register window reads, STATUS and the reserved offsets included, by the
fields of the register map. -/
def Obligations.RegisterMapReads : Prop :=
  ∀ s : State,
    readReg s (regAt 0x000) = 0x43544231 ∧
      readReg s (regAt 0x004) = BitVec.ofNat 24 s.params.pixCap ++ BitVec.ofNat 8 s.params.lanes ∧
        readReg s (regAt 0x008) = 0 ∧ readReg s (regAt 0x00C) = statusFields s ∧
          readReg s (regAt 0x014) = (0 : Half) ++ s.regs.tgtH ∧
          readReg s (regAt 0x018) = (0 : Half) ++ s.regs.tgtS ∧ readReg s (regAt 0x01C) = (0 : Half) ++ s.regs.tgtV ∧
            readReg s (regAt 0x020) = (0 : Half) ++ s.regs.hueTol ∧
              readReg s (regAt 0x028) = (0 : Half) ++ s.regs.probeCol ∧ readReg s (regAt 0x02C) = s.regs.bufLen ∧
                readReg s (regAt 0x030) = s.regs.maskLen ∧ readReg s (regAt 0x034) = s.regs.pixIn ∧
                  readReg s (regAt 0x038) = (0 : Half) ++ s.regs.smpH ∧
                    readReg s (regAt 0x03C) = (0 : Half) ++ s.regs.smpS ∧
                      readReg s (regAt 0x040) = (0 : Half) ++ s.regs.smpV ∧
    readReg s (regAt 0x044) =
        (0 : BitVec 6) ++ s.regs.convOut.sect ++ s.regs.convOut.delta ++ s.regs.convOut.min ++ s.regs.convOut.max ∧
      readReg s (regAt 0x048) = (0 : BitVec 21) ++ s.regs.convHn ∧
        readReg s (regAt 0x04C) =
            (0 : BitVec 22) ++ BitVec.ofBool s.regs.scoreOut.neg ++ BitVec.ofBool s.regs.scoreOut.gate ++
              s.regs.scoreOut.byte ∧
          readReg s (regAt 0x050) = s.regs.resXY.y ++ s.regs.resXY.x ∧
            readReg s (regAt 0x054) = (0 : Half) ++ s.regs.resRow ∧
              readReg s (regAt 0x058) = s.regs.resEdges.right ++ s.regs.resEdges.left ∧
                readReg s (regAt 0x05C) = (0 : Half) ++ s.regs.side ∧
    readReg s (regAt 0x010) =
        (0 : BitVec 30) ++ BitVec.ofBool s.regs.intEn.errIe ++ BitVec.ofBool s.regs.intEn.doneIe ∧
      readReg s (regAt 0x024) = (if s.regs.rowSel = .topmost then 1 else 0) ∧
        ∀ a, 0x060 ≤ a → a ≤ 0x0FF → readReg s (regAt a) = 0

/-- 10_state.md section 3, STATUS as it reads: BUSY is PEND, each field at its bits, every other bit 0. -/
def Obligations.StatusReadsItsFields : Prop :=
  ∀ s : State,
    readReg s (regAt 0x00C) = statusFields s

/-- R76: a register read, idle or BUSY, answers the register with OKAY and changes nothing. -/
def Obligations.RegisterReadAnswers : Prop :=
  ∀ (s : State) (a : Offset), HostDoes s (.txn (.read a .four)) → a.toNat ≤ 0x000FF → a.toNat % 4 = 0 →
    step s = .next (answered s (.read (readReg s (regAt a.toNat)) .okay))

/-- R46, R78: a write to any register but CTRL while idle: the register stores its fields, STATUS clears its W1C bits, an RO
or reserved register keeps its value, and no other register or memory byte changes. -/
def Obligations.IdleRegisterWrite : Prop :=
  ∀ (s : State) (a : Offset) (d : Word), HostDoes s (.txn (.write a .four d)) → a.toNat ≤ 0x000FF →
    a.toNat % 4 = 0 → a.toNat ≠ 0x008 → s.busy = false →
      ∃ u, step s = .next (answered u (.write .okay)) ∧ u = { s with regs := u.regs } ∧
        ∀ r : Reg, readReg u r = if r = regAt a.toNat then afterRegWrite (readReg s r) d r else readReg s r

/-- 20_memory.md section 2, bus errors: exactly the accesses of `BusErrorCase` are answered ERROR, a read with data 0, and
they change nothing, idle or BUSY. That an access of 2 or 4 bytes counts every byte it moves is the model's choice, log entry
8. -/
def Obligations.BusErrorsExactly : Prop :=
  ∀ (s : State) (a : Offset) (sz : Size) (d : Word),
    (HostDoes s (.txn (.read a sz)) → BusErrorCase s.params a.toNat sz.bytes →
        step s = .next (answered s (.read 0 .error))) ∧
      (HostDoes s (.txn (.write a sz d)) → BusErrorCase s.params a.toNat sz.bytes →
        step s = .next (answered s (.write .error))) ∧
        (HostDoes s (.txn (.read a sz)) → ¬ BusErrorCase s.params a.toNat sz.bytes → ∀ t, step s = .next t →
          ∃ v, t.replies = .read v .okay :: s.replies) ∧
          (HostDoes s (.txn (.write a sz d)) → ¬ BusErrorCase s.params a.toNat sz.bytes →
            ∃ t, step s = .next t ∧ t.replies = .write .okay :: s.replies)

/-- R79: every write while BUSY that is no bus error is dropped with ERR_WBUSY, but for SRST. -/
def Obligations.BusyWritesDropped : Prop :=
  ∀ (s : State) (a : Offset) (sz : Size) (d : Word), HostDoes s (.txn (.write a sz d)) → s.busy = true →
    ¬ BusErrorCase s.params a.toNat sz.bytes →
      (¬ (a = 0x00008 ∧ d.getLsbD 31 = true) →
          step s =
            .next (answered { s with regs := { s.regs with status := { s.regs.status with errWbusy := true } } }
              (.write .okay))) ∧
        (a = 0x00008 → d.getLsbD 31 = true →
          ∃ u, exec .srst s = .next u ∧ step s = .next (answered u (.write .okay)))

/-- R80: while BUSY a register read answers the current register and a memory read answers 0, written or not, with OKAY. -/
def Obligations.BusyReadsAnswer : Prop :=
  ∀ (s : State) (a : Offset) (sz : Size), HostDoes s (.txn (.read a sz)) → s.busy = true →
    ¬ BusErrorCase s.params a.toNat sz.bytes →
      step s =
        .next (answered s (.read (if a.toNat ≤ 0x000FF then readReg s (regAt a.toNat) else 0) .okay))

/-- R81: a memory read while idle answers the little-endian value of its bytes, or ends in UNINIT_READ if any is unwritten. -/
def Obligations.IdleMemoryRead : Prop :=
  ∀ (s : State) (a : Offset) (sz : Size) (which : MemId) (off : Nat), HostDoes s (.txn (.read a sz)) →
    s.busy = false → MemAccess s.params a sz.bytes which off →
      (∀ bs : Nat → Byte, (∀ k < sz.bytes, (s.mem which).read (off + k) = some (bs k)) →
          ∃ v : Word, step s = .next (answered s (.read v .okay)) ∧
            ∀ k < 4, v.extractLsb' (8 * k) 8 = if k < sz.bytes then bs k else 0) ∧
        ((∃ k < sz.bytes, (s.mem which).read (off + k) = none) → step s = .fault (.uninitRead which off))

/-- R82: a memory write while idle stores the low bytes of its data, least significant first, marks them written, and changes
no other byte of either memory and no register. -/
def Obligations.IdleMemoryWrite : Prop :=
  ∀ (s : State) (a : Offset) (sz : Size) (d : Word) (which : MemId) (off : Nat),
    HostDoes s (.txn (.write a sz d)) → s.busy = false → MemAccess s.params a sz.bytes which off →
      ∃ u, step s = .next (answered u (.write .okay)) ∧
        (∀ k < sz.bytes, (u.mem which).read (off + k) = some (d.extractLsb' (8 * k) 8)) ∧
          (∀ o, o < off ∨ off + sz.bytes ≤ o → (u.mem which).read o = (s.mem which).read o) ∧
            u = s.setMem which (u.mem which)

/-- 70_reset_and_hazards.md section 1: a hard reset between two transactions. That it is an operation of the host's script,
which keeps the rest of that script, is the model's choice, log entry 12. -/
def Obligations.HardResetStep : Prop :=
  ∀ s : State, HostDoes s .hardReset →
    ∃ t, step s = .next t ∧ t.regs = Regs.reset ∧ t.pend = none ∧ t.params = s.params ∧ t.irq = false ∧
      (∀ o, t.pixbuf.read o = none ∧ t.maskbuf.read o = none) ∧ t.script = s.script.tail ∧ t.replies = s.replies

/-- 70_reset_and_hazards.md section 1, the reset values of CTB-CORE 1. -/
def Obligations.ResetRegisterValues : Prop :=
  (∀ r : Reg, readReg State.reset r =
      match r with
      | .id => 0x43544231
      | .param => 0x00400004
      | .tgtH => 0x00001E00
      | .tgtS => 0x0000FFFF
      | .tgtV => 0x0000FFFF
      | .probeCol => 0x00000032
      | _ => 0) ∧
    State.reset.pend = none ∧ State.reset.irq = false ∧
      ∀ o, State.reset.pixbuf.read o = none ∧ State.reset.maskbuf.read o = none

/-- R230: the irq level, by the bits of STATUS and INT_EN as they read. -/
def Obligations.IrqLevel : Prop :=
  (∀ s : State, s.irq = true ↔
      ((readReg s .status).getLsbD 1 = true ∧ (readReg s .intEn).getLsbD 0 = true) ∨
        (((readReg s .status).getLsbD 8 = true ∨ (readReg s .status).getLsbD 9 = true ∨
            (readReg s .status).getLsbD 10 = true) ∧
          (readReg s .intEn).getLsbD 1 = true)) ∧
    State.reset.irq = false

/-! The whole machine. -/

/-- Every step keeps both memories in canonical form and inside their sizes. -/
def Obligations.StepKeepsMemoryCanonical : Prop :=
  ∀ s t : State, s.MemoryConsistent → step s = .next t → t.MemoryConsistent

/-- Every step keeps the flags and result registers consistent: DONE is 0 while BUSY, FOUND excludes a failure code, CONV_OUT
and CONV_HN fit together, GATE and NEG exclude a byte, the locate results lie inside the grid, and the side fits MASKBUF. -/
def Obligations.StepKeepsResultsConsistent : Prop :=
  ∀ s t : State,
    s.LatchConsistent ∧ s.regs.status.Consistent ∧ s.regs.ConvConsistent ∧ s.regs.scoreOut.Consistent ∧
        s.regs.LocateConsistent ∧ s.regs.side.toNat * s.regs.side.toNat ≤ s.params.pixCap →
      step s = .next t →
        t.LatchConsistent ∧ t.regs.status.Consistent ∧ t.regs.ConvConsistent ∧ t.regs.scoreOut.Consistent ∧
          t.regs.LocateConsistent ∧ t.regs.side.toNat * t.regs.side.toNat ≤ t.params.pixCap

/-- The reset state meets the invariant. -/
def Obligations.ResetMeetsInvariant : Prop := State.reset.Inv

/-- 40_control.md section 2 and 60_exceptions.md section 3: the only stops are UNINIT_READ, of a byte that is unwritten, by a
host read while idle or by the completion step of MASK, LOCATE or FRAME; nothing is refused. -/
def Obligations.StepStopsOnlyOnUnwrittenByte : Prop :=
  (∀ (s : State) (f : Fault), step s = .fault f →
      ∃ which off k, f = .uninitRead which off ∧ (s.mem which).read (off + k) = none ∧
          ((k = 0 ∧ (s.completes .mask = true ∨ s.completes .locate = true ∨ s.completes .frame = true)) ∨
            (s.busy = false ∧ ∃ a sz, HostDoes s (.txn (.read a sz)) ∧ k < sz.bytes ∧
              MemAccess s.params a sz.bytes which off))) ∧
    ∀ (s : State) (r : Refusal), step s ≠ .refused r

/-- 10_state.md section 3 and 70_reset_and_hazards.md section 2: BUSY is raised only by the start of a command while idle, and
cleared only by a completion step, SRST or hard reset. -/
def Obligations.BusyOrigins : Prop :=
  ∀ s t : State, step s = .next t →
    (s.busy = false → t.busy = true →
        ∃ w : Word, HostCommands s w ∧ w.getLsbD 31 = false ∧ (w.extractLsb' 0 4).toNat ≤ 0x6) ∧
      (s.busy = true → t.busy = false →
        s.sequencerMoves = true ∨ HostDoes s .hardReset ∨ ∃ w : Word, HostCommands s w ∧ w.getLsbD 31 = true)

/-- 60_exceptions.md section 1: what raises DONE and each error bit, and nothing else does. -/
def Obligations.StatusBitOrigins : Prop :=
  ∀ s t : State, step s = .next t →
    (s.regs.status.done = false → t.regs.status.done = true → s.sequencerMoves = true) ∧
      (s.regs.status.errCmd = false → t.regs.status.errCmd = true →
        s.busy = false ∧ ∃ w : Word, HostCommands s w ∧ w.getLsbD 31 = false ∧ 0x7 ≤ (w.extractLsb' 0 4).toNat) ∧
        (s.regs.status.errWbusy = false → t.regs.status.errWbusy = true →
          s.busy = true ∧ ∃ a sz d, HostDoes s (.txn (.write a sz d)) ∧
            ¬ BusErrorCase s.params a.toNat sz.bytes ∧ ¬ (a = 0x00008 ∧ d.getLsbD 31 = true)) ∧
          (s.regs.status.errLen = false → t.regs.status.errLen = true →
            (s.completes .mask = true ∧ s.params.pixCap < s.regs.bufLen.toNat / 4) ∨
              (s.completes .frame = true ∧ s.params.pixCap < s.regs.bufLen.toNat / 4) ∨
                (s.completes .locate = true ∧ s.params.pixCap < s.regs.maskLen.toNat))

/-- 10_state.md section 9: no command writes PIXBUF: it changes only by a host write to its window while idle, or by hard
reset. -/
def Obligations.PixbufWrittenByHostOnly : Prop :=
  ∀ s t : State, step s = .next t → t.pixbuf ≠ s.pixbuf →
    HostDoes s .hardReset ∨
      (s.busy = false ∧ ∃ a sz d off, HostDoes s (.txn (.write a sz d)) ∧ MemAccess s.params a sz.bytes .pixbuf off)

/-- R22, R23: ID and PARAM are constants that no step changes, so no write reaches them. -/
def Obligations.IdentityRegistersConstant : Prop :=
  ∀ s t : State, step s = .next t →
    readReg t .id = 0x43544231 ∧ readReg s .id = 0x43544231 ∧ readReg t .param = readReg s .param ∧
      (readReg s .param).extractLsb' 0 8 = BitVec.ofNat 8 s.params.lanes ∧
        (readReg s .param).extractLsb' 8 24 = BitVec.ofNat 24 s.params.pixCap ∧
          (s.params = Config.Params.ctbCore1 → readReg s .param = 0x00400004)

/-- 20_memory.md sections 2 and 4: while a command runs, no host step but SRST and hard reset changes anything of the block
but ERR_WBUSY, so the command computes from the values that held at its start. -/
def Obligations.InputsStableWhileBusy : Prop :=
  ∀ s t : State, step s = .next t → s.busy = true → s.sequencerMoves = false → ¬ HostDoes s .hardReset →
    (¬ ∃ w : Word, HostCommands s w ∧ w.getLsbD 31 = true) →
      t.pend = s.pend ∧ t.pixbuf = s.pixbuf ∧ t.maskbuf = s.maskbuf ∧ t.params = s.params ∧
        t.regs = { s.regs with status := { s.regs.status with errWbusy := t.regs.status.errWbusy } }

/-- 70_reset_and_hazards.md section 4 and 30_encoding.md section 4: a `wait` polls STATUS as long as the host has the turn, and
then the pending command takes its completion step: the number of polls is any natural number. That the sequencer goes once
the turns are used up is the model's form of fairness, log entry 3. -/
def Obligations.WaitEndsInCompletion : Prop :=
  ∀ (s : State) (c : Command) (rest : List HostOp) (k : Nat), s.pend = some c → s.script = .wait :: rest →
    s.turns = List.replicate k Agent.host →
      Sys2Proof.core.run (k + 1) s =
        step { s with
          replies := List.replicate k (Reply.read (readReg s .status) .okay) ++ s.replies
          turns := [] } ∧
        State.completes
          { s with
            replies := List.replicate k (Reply.read (readReg s .status) .okay) ++ s.replies
            turns := [] } c = true

/-! Host scripts. -/

/-- 30_encoding.md section 4: a host step at `wait` is the step of a read of STATUS, after which the `wait` goes on while the
value read has BUSY = 1 and the rest of the script follows when it has BUSY = 0. -/
def Obligations.WaitPollsStatus : Prop :=
  ∀ (s : State) (rest : List HostOp), s.sequencerMoves = false →
    step { s with script := .wait :: rest } =
      step { s with
        script :=
          .txn (.read 0x0000C .four) ::
            (if (readReg s .status).getLsbD 0 = true then .wait :: rest else rest) }

/-- 30_encoding.md section 4 and 20_memory.md section 2: a run that uses up its script answers the transactions of the script's
encoding, one answer each, of that op and in that order, each `wait` being some number of STATUS reads, at least one. That a
hard reset in a script encodes as no tuple is the model's choice, log entry 18. -/
def Obligations.RunAnswersEncoding : Prop :=
  ∀ (n : Nat) (s t : State), Sys2Proof.core.run n s = .next t → t.script = [] →
    ∃ (busy : List Nat) (answers : List Reply),
      t.replies = answers.reverse ++ s.replies ∧
        answers.map Reply.op = (encodeScript s.script busy).map Prod.fst

/-- 70_reset_and_hazards.md section 2: the launch premise holds at the start state of every program, hard reset: at the reset
state, and after every hard reset. That a hard reset is an operation of the host's script is the model's choice, log entry
12. -/
def Obligations.HardResetIsClean : Prop :=
  State.reset.Clean (StartState.hardReset Config.Params.ctbCore1) ∧
    ∀ s t : State, HostDoes s .hardReset → step s = .next t → t.Clean (StartState.hardReset s.params)
end

