-- ==== Sys2Proof/Laws/Exact.lean ====
section
/-! SUPPORT. The fractions of Machine/Exact.lean are the rationals of R15, and `isqrt` is the integer square root. -/

namespace Sys2Proof.Machine

theorem Frac.den_ne_zero (a : Frac) : (a.den : ℚ) ≠ 0 := by
  have := a.den_pos
  positivity

@[simp] theorem Frac.toRat_mk (n : Int) (d : Nat) (h : 0 < d) : (Frac.mk n d h).toRat = (n : ℚ) / d := rfl

@[simp] theorem Frac.toRat_ofInt (n : Int) : (Frac.ofInt n).toRat = n := by
  simp [Frac.ofInt]

@[simp] theorem Frac.toRat_add (a b : Frac) : (a.add b).toRat = a.toRat + b.toRat := by
  have ha := a.den_ne_zero
  have hb := b.den_ne_zero
  simp only [Frac.add, Frac.toRat]
  push_cast
  field_simp

@[simp] theorem Frac.toRat_sub (a b : Frac) : (a.sub b).toRat = a.toRat - b.toRat := by
  have ha := a.den_ne_zero
  have hb := b.den_ne_zero
  simp only [Frac.sub, Frac.toRat]
  push_cast
  field_simp

@[simp] theorem Frac.toRat_mul (a b : Frac) : (a.mul b).toRat = a.toRat * b.toRat := by
  have ha := a.den_ne_zero
  have hb := b.den_ne_zero
  simp only [Frac.mul, Frac.toRat]
  push_cast
  field_simp

@[simp] theorem Frac.toRat_abs (a : Frac) : a.abs.toRat = |a.toRat| := by
  simp [Frac.abs, Frac.toRat, abs_div]

/-- The comparison of fractions is the comparison of the rationals they stand for. -/
theorem Frac.lt_iff (a b : Frac) : a.lt b = true ↔ a.toRat < b.toRat := by
  have ha : (0 : ℚ) < a.den := by exact_mod_cast a.den_pos
  have hb : (0 : ℚ) < b.den := by exact_mod_cast b.den_pos
  simp only [Frac.lt, decide_eq_true_eq, Frac.toRat]
  rw [div_lt_div_iff₀ ha hb]
  exact_mod_cast Iff.rfl

/-- The floor of a fraction is the floor of the rational it stands for. -/
theorem Frac.floor_eq (a : Frac) : a.floor = ⌊a.toRat⌋ := by
  simp only [Frac.floor, Frac.toRat]
  exact (Rat.floor_intCast_div_natCast a.num a.den).symm

theorem isqrtFuel_spec : ∀ (fuel n : Nat), n < 4 ^ fuel →
    isqrtFuel fuel n * isqrtFuel fuel n ≤ n ∧ n < (isqrtFuel fuel n + 1) * (isqrtFuel fuel n + 1) := by
  intro fuel
  induction fuel with
  | zero => intro n hn; simp only [pow_zero] at hn; simp [isqrtFuel]; omega
  | succ f ih =>
    intro n hn
    have h4 : n / 4 < 4 ^ f := by rw [pow_succ] at hn; omega
    obtain ⟨h1, h2⟩ := ih (n / 4) h4
    simp only [isqrtFuel]
    generalize isqrtFuel f (n / 4) = k at h1 h2
    split
    · subst_vars; simp
    · split
      · constructor
        · assumption
        · have : n < 4 * ((k + 1) * (k + 1)) := by omega
          nlinarith
      · constructor
        · have : 4 * (k * k) ≤ n := by omega
          nlinarith
        · omega

/-- isqrt is the floor of the square root (R15). -/
theorem isqrt_spec (n : Nat) : isqrt n * isqrt n ≤ n ∧ n < (isqrt n + 1) * (isqrt n + 1) :=
  isqrtFuel_spec n n (Nat.lt_pow_self (by decide))

/-- The largest natural whose square is at most n. -/
theorem le_isqrt_iff (k n : Nat) : k ≤ isqrt n ↔ k * k ≤ n := by
  obtain ⟨h1, h2⟩ := isqrt_spec n
  constructor
  · intro h
    exact (Nat.mul_le_mul h h).trans h1
  · intro h
    by_contra hc
    have h3 : isqrt n + 1 ≤ k := by omega
    have := Nat.mul_le_mul h3 h3
    omega

/-- isqrt is the library's square root of naturals. -/
theorem isqrt_eq_sqrt (n : Nat) : isqrt n = Nat.sqrt n :=
  Nat.eq_sqrt.mpr (isqrt_spec n)

end Sys2Proof.Machine
end

