-- ==== Sys2Proof/Laws/Memory.lean ====
section
/-! SUPPORT. Reading after writing, and that every memory operation keeps the canonical form. -/

namespace Sys2Proof.Machine

@[simp] theorem Memory.read_nil (a : Nat) : Memory.read [] a = none := rfl

@[simp] theorem Memory.read_write_same (m : Memory) (a : Nat) (b : Byte) : (m.write a b).read a = some b := by
  induction m with
  | nil => simp [Memory.write, Memory.read]
  | cons c m ih =>
    obtain ⟨k, x⟩ := c
    simp only [Memory.write]
    split
    · simp [Memory.read]
    · split
      · simp [Memory.read]
      · rename_i h1 h2
        simp only [Memory.read]
        rw [if_neg (fun h => h2 h.symm)]
        exact ih

theorem Memory.read_write_other (m : Memory) {a a' : Nat} (b : Byte) (h : a' ≠ a) :
    (m.write a b).read a' = m.read a' := by
  induction m with
  | nil => simp [Memory.write, Memory.read, h.symm]
  | cons c m ih =>
    obtain ⟨k, x⟩ := c
    simp only [Memory.write]
    split
    · simp [Memory.read, h.symm]
    · split
      · subst_vars
        simp [Memory.read, h.symm]
      · simp only [Memory.read, ih]

/-- A read after one write, whole. -/
theorem Memory.read_write (m : Memory) (a a' : Nat) (b : Byte) :
    (m.write a b).read a' = if a' = a then some b else m.read a' := by
  split
  · subst_vars; simp
  · exact m.read_write_other b (by assumption)

theorem Memory.mem_write {m : Memory} {a : Nat} {b : Byte} {c : Host.Cell} (h : c ∈ m.write a b) :
    c = (a, b) ∨ c ∈ m := by
  induction m with
  | nil => simpa [Memory.write] using h
  | cons d m ih =>
    obtain ⟨k, x⟩ := d
    simp only [Memory.write] at h
    split at h
    · simpa using h
    · split at h
      · rcases List.mem_cons.mp h with h | h
        · exact .inl h
        · exact .inr (List.mem_cons_of_mem _ h)
      · rcases List.mem_cons.mp h with h | h
        · exact .inr (by simp [h])
        · rcases ih h with h | h
          · exact .inl h
          · exact .inr (List.mem_cons_of_mem _ h)

/-- A write keeps the canonical form. -/
theorem Memory.write_wf {m : Memory} (h : m.wf) (a : Nat) (b : Byte) : (m.write a b).wf := by
  induction m with
  | nil => simp [Memory.write, Memory.wf]
  | cons c m ih =>
    obtain ⟨k, x⟩ := c
    obtain ⟨h1, h2⟩ := List.pairwise_cons.mp h
    simp only [Memory.write]
    split
    · refine List.pairwise_cons.mpr ⟨?_, h⟩
      intro d hd
      rcases List.mem_cons.mp hd with rfl | hd
      · assumption
      · have := h1 d hd
        simp only at this ⊢
        omega
    · split
      · subst_vars
        exact List.pairwise_cons.mpr ⟨h1, h2⟩
      · refine List.pairwise_cons.mpr ⟨?_, ih h2⟩
        intro d hd
        rcases Memory.mem_write hd with rfl | hd
        · simp only; omega
        · exact h1 d hd

theorem Memory.write_within {m : Memory} {n : Nat} (h : m.within n) {a : Nat} (ha : a < n) (b : Byte) :
    (m.write a b).within n := by
  intro c hc
  rcases Memory.mem_write hc with rfl | hc
  · exact ha
  · exact h c hc

/-- Marking bytes unwritten keeps the canonical form. -/
theorem Memory.forget_wf {m : Memory} (h : m.wf) (n : Nat) : (m.forget n).wf :=
  List.Pairwise.filter _ h

theorem Memory.forget_within {m : Memory} {k : Nat} (h : m.within k) (n : Nat) : (m.forget n).within k := by
  intro c hc
  exact h c (List.mem_of_mem_filter hc)

/-- A read after bytes 0 to n − 1 were marked unwritten. -/
theorem Memory.read_forget (m : Memory) (n a : Nat) : (m.forget n).read a = if a < n then none else m.read a := by
  induction m with
  | nil => simp [Memory.forget]
  | cons c m ih =>
    obtain ⟨k, x⟩ := c
    simp only [Memory.forget] at ih
    by_cases hk : n ≤ k
    · simp only [Memory.forget, List.filter_cons, hk, decide_true, if_true, Memory.read, ih]
      by_cases hka : k = a
      · subst hka
        simp [Nat.not_lt.mpr hk]
      · simp [hka]
    · by_cases hka : k = a
      · subst hka
        simp [Memory.forget, hk, ih, Nat.lt_of_not_le hk]
      · simp [Memory.forget, Memory.read, hk, ih, hka]

/-- A MemWrite keeps the canonical form. -/
theorem Memory.writeLe_wf {m : Memory} (h : m.wf) (off n v : Nat) : (m.writeLe off n v).wf := by
  induction n generalizing m off v with
  | zero => exact h
  | succ n ih => exact ih (Memory.write_wf h _ _) _ _

theorem Memory.writeLe_within {m : Memory} {k : Nat} (h : m.within k) {off n : Nat} (hk : off + n ≤ k) (v : Nat) :
    (m.writeLe off n v).within k := by
  induction n generalizing m off v with
  | zero => exact h
  | succ n ih => exact ih (Memory.write_within h (by omega) _) (by omega) _

/-- A MemWrite leaves every byte outside its range alone. -/
theorem Memory.read_writeLe_other (m : Memory) {off n a : Nat} (v : Nat) (h : a < off ∨ off + n ≤ a) :
    (m.writeLe off n v).read a = m.read a := by
  induction n generalizing m off v with
  | zero => rfl
  | succ n ih =>
    simp only [Memory.writeLe]
    rw [ih _ _ (by omega), Memory.read_write_other _ _ (by omega)]

/-- A MemWrite writes the bytes of its value, least significant first. -/
theorem Memory.read_writeLe (m : Memory) {off n k : Nat} (v : Nat) (h : k < n) :
    (m.writeLe off n v).read (off + k) = some (BitVec.ofNat 8 (v / 256 ^ k)) := by
  induction n generalizing m off v k with
  | zero => omega
  | succ n ih =>
    simp only [Memory.writeLe]
    cases k with
    | zero => rw [Memory.read_writeLe_other _ _ (by omega)]; simp
    | succ k =>
      have := ih (m.write off (BitVec.ofNat 8 v)) (off := off + 1) (v := v / 256) (k := k) (by omega)
      rw [show off + (k + 1) = off + 1 + k by omega, this, Nat.div_div_eq_div_mul, pow_succ, mul_comm 256]

/-- MemRead has a value exactly when every byte of its range is written. -/
theorem Memory.readLe_isSome (m : Memory) (off n : Nat) :
    (m.readLe off n).isSome = true ↔ ∀ k < n, (m.read (off + k)).isSome = true := by
  induction n generalizing off with
  | zero => simp [Memory.readLe]
  | succ n ih =>
    have hs : (m.readLe off (n + 1)).isSome = ((m.read off).isSome && (m.readLe (off + 1) n).isSome) := by
      simp only [Memory.readLe]
      cases m.read off <;> cases m.readLe (off + 1) n <;> rfl
    rw [hs, Bool.and_eq_true, ih]
    constructor
    · rintro ⟨h0, h1⟩ k hk
      cases k with
      | zero => exact h0
      | succ k =>
        have := h1 k (by omega)
        rwa [show off + 1 + k = off + (k + 1) by omega] at this
    · intro h
      refine ⟨h 0 (by omega), fun k hk => ?_⟩
      have := h (k + 1) (by omega)
      rwa [show off + (k + 1) = off + 1 + k by omega] at this

/-- The bytes of a MemRead's value are the bytes read, least significant first. -/
theorem Memory.readLe_byte {m : Memory} {off n v : Nat} (h : m.readLe off n = some v) {k : Nat} (hk : k < n) :
    m.read (off + k) = some (BitVec.ofNat 8 (v / 256 ^ k)) := by
  induction n generalizing off v k with
  | zero => omega
  | succ n ih =>
    simp only [Memory.readLe] at h
    cases hb : m.read off with
    | none => simp [hb] at h
    | some b =>
      cases hv : m.readLe (off + 1) n with
      | none => simp [hb, hv] at h
      | some u =>
        simp only [hb, hv, Option.some.injEq] at h
        have hb2 := b.isLt
        cases k with
        | zero =>
          simp only [Nat.add_zero, pow_zero, Nat.div_one, hb]
          congr 1
          apply BitVec.eq_of_toNat_eq
          simp only [BitVec.toNat_ofNat]
          omega
        | succ k =>
          have := ih hv (k := k) (by omega)
          rw [show off + (k + 1) = off + 1 + k by omega, this, pow_succ, mul_comm, ← Nat.div_div_eq_div_mul]
          congr 3
          omega

/-- The value of a MemRead of `n` bytes lies below 256^n. -/
theorem Memory.readLe_lt {m : Memory} {off n v : Nat} (h : m.readLe off n = some v) : v < 256 ^ n := by
  induction n generalizing off v with
  | zero => simp [Memory.readLe] at h; simp [← h]
  | succ n ih =>
    simp only [Memory.readLe] at h
    cases hb : m.read off with
    | none => simp [hb] at h
    | some b =>
      cases hv : m.readLe (off + 1) n with
      | none => simp [hb, hv] at h
      | some u =>
        simp only [hb, hv, Option.some.injEq] at h
        have hb2 := b.isLt
        have := ih hv
        rw [pow_succ]
        omega

end Sys2Proof.Machine
end

