-- ==== Sys2Proof/Laws/State.lean ====
section
/-! SUPPORT. One lemma per field of `State` for each named update, true by unfolding, so that no later proof unfolds a record
update. -/

namespace Sys2Proof.Machine

variable (s : State)

@[simp] theorem State.setStatus_params (st : Status) : (s.setStatus st).params = s.params := rfl
@[simp] theorem State.setStatus_regs (st : Status) : (s.setStatus st).regs = { s.regs with status := st } := rfl
@[simp] theorem State.setStatus_pend (st : Status) : (s.setStatus st).pend = s.pend := rfl
@[simp] theorem State.setStatus_pixbuf (st : Status) : (s.setStatus st).pixbuf = s.pixbuf := rfl
@[simp] theorem State.setStatus_maskbuf (st : Status) : (s.setStatus st).maskbuf = s.maskbuf := rfl
@[simp] theorem State.setStatus_script (st : Status) : (s.setStatus st).script = s.script := rfl
@[simp] theorem State.setStatus_replies (st : Status) : (s.setStatus st).replies = s.replies := rfl
@[simp] theorem State.setStatus_turns (st : Status) : (s.setStatus st).turns = s.turns := rfl

@[simp] theorem State.signalErrCmd_params : s.signalErrCmd.params = s.params := rfl
@[simp] theorem State.signalErrCmd_regs : s.signalErrCmd.regs = { s.regs with status := { s.regs.status with errCmd := true } } := rfl
@[simp] theorem State.signalErrCmd_pend : s.signalErrCmd.pend = s.pend := rfl
@[simp] theorem State.signalErrCmd_pixbuf : s.signalErrCmd.pixbuf = s.pixbuf := rfl
@[simp] theorem State.signalErrCmd_maskbuf : s.signalErrCmd.maskbuf = s.maskbuf := rfl
@[simp] theorem State.signalErrCmd_script : s.signalErrCmd.script = s.script := rfl
@[simp] theorem State.signalErrCmd_replies : s.signalErrCmd.replies = s.replies := rfl
@[simp] theorem State.signalErrCmd_turns : s.signalErrCmd.turns = s.turns := rfl

@[simp] theorem State.signalErrWbusy_params : s.signalErrWbusy.params = s.params := rfl
@[simp] theorem State.signalErrWbusy_regs : s.signalErrWbusy.regs = { s.regs with status := { s.regs.status with errWbusy := true } } := rfl
@[simp] theorem State.signalErrWbusy_pend : s.signalErrWbusy.pend = s.pend := rfl
@[simp] theorem State.signalErrWbusy_pixbuf : s.signalErrWbusy.pixbuf = s.pixbuf := rfl
@[simp] theorem State.signalErrWbusy_maskbuf : s.signalErrWbusy.maskbuf = s.maskbuf := rfl
@[simp] theorem State.signalErrWbusy_script : s.signalErrWbusy.script = s.script := rfl
@[simp] theorem State.signalErrWbusy_replies : s.signalErrWbusy.replies = s.replies := rfl
@[simp] theorem State.signalErrWbusy_turns : s.signalErrWbusy.turns = s.turns := rfl

@[simp] theorem State.signalErrLen_params : s.signalErrLen.params = s.params := rfl
@[simp] theorem State.signalErrLen_regs : s.signalErrLen.regs = { s.regs with status := { s.regs.status with errLen := true } } := rfl
@[simp] theorem State.signalErrLen_pend : s.signalErrLen.pend = s.pend := rfl
@[simp] theorem State.signalErrLen_pixbuf : s.signalErrLen.pixbuf = s.pixbuf := rfl
@[simp] theorem State.signalErrLen_maskbuf : s.signalErrLen.maskbuf = s.maskbuf := rfl
@[simp] theorem State.signalErrLen_script : s.signalErrLen.script = s.script := rfl
@[simp] theorem State.signalErrLen_replies : s.signalErrLen.replies = s.replies := rfl
@[simp] theorem State.signalErrLen_turns : s.signalErrLen.turns = s.turns := rfl

@[simp] theorem State.start_params (c : Command) : (s.start c).params = s.params := rfl
@[simp] theorem State.start_regs (c : Command) : (s.start c).regs = { s.regs with status := { s.regs.status with done := false } } := rfl
@[simp] theorem State.start_pend (c : Command) : (s.start c).pend = some c := rfl
@[simp] theorem State.start_pixbuf (c : Command) : (s.start c).pixbuf = s.pixbuf := rfl
@[simp] theorem State.start_maskbuf (c : Command) : (s.start c).maskbuf = s.maskbuf := rfl
@[simp] theorem State.start_script (c : Command) : (s.start c).script = s.script := rfl
@[simp] theorem State.start_replies (c : Command) : (s.start c).replies = s.replies := rfl
@[simp] theorem State.start_turns (c : Command) : (s.start c).turns = s.turns := rfl

@[simp] theorem State.finish_params : s.finish.params = s.params := rfl
@[simp] theorem State.finish_regs : s.finish.regs = { s.regs with status := { s.regs.status with done := true } } := rfl
@[simp] theorem State.finish_pend : s.finish.pend = none := rfl
@[simp] theorem State.finish_pixbuf : s.finish.pixbuf = s.pixbuf := rfl
@[simp] theorem State.finish_maskbuf : s.finish.maskbuf = s.maskbuf := rfl
@[simp] theorem State.finish_script : s.finish.script = s.script := rfl
@[simp] theorem State.finish_replies : s.finish.replies = s.replies := rfl
@[simp] theorem State.finish_turns : s.finish.turns = s.turns := rfl

@[simp] theorem State.softReset_params : s.softReset.params = s.params := rfl
@[simp] theorem State.softReset_regs : s.softReset.regs = Regs.reset := rfl
@[simp] theorem State.softReset_pend : s.softReset.pend = none := rfl
@[simp] theorem State.softReset_pixbuf : s.softReset.pixbuf = s.pixbuf := rfl
@[simp] theorem State.softReset_maskbuf : s.softReset.maskbuf = s.maskbufAfterSrst := rfl
@[simp] theorem State.softReset_script : s.softReset.script = s.script := rfl
@[simp] theorem State.softReset_replies : s.softReset.replies = s.replies := rfl
@[simp] theorem State.softReset_turns : s.softReset.turns = s.turns := rfl

@[simp] theorem State.hardReset_params : s.hardReset.params = s.params := rfl
@[simp] theorem State.hardReset_regs : s.hardReset.regs = Regs.reset := rfl
@[simp] theorem State.hardReset_pend : s.hardReset.pend = none := rfl
@[simp] theorem State.hardReset_pixbuf : s.hardReset.pixbuf = [] := rfl
@[simp] theorem State.hardReset_maskbuf : s.hardReset.maskbuf = [] := rfl
@[simp] theorem State.hardReset_script : s.hardReset.script = s.script := rfl
@[simp] theorem State.hardReset_replies : s.hardReset.replies = s.replies := rfl
@[simp] theorem State.hardReset_turns : s.hardReset.turns = s.turns := rfl

@[simp] theorem State.setConv_params (c : Conv) : (s.setConv c).params = s.params := rfl
@[simp] theorem State.setConv_pend (c : Conv) : (s.setConv c).pend = s.pend := rfl
@[simp] theorem State.setConv_pixbuf (c : Conv) : (s.setConv c).pixbuf = s.pixbuf := rfl
@[simp] theorem State.setConv_maskbuf (c : Conv) : (s.setConv c).maskbuf = s.maskbuf := rfl
@[simp] theorem State.setConv_script (c : Conv) : (s.setConv c).script = s.script := rfl
@[simp] theorem State.setConv_replies (c : Conv) : (s.setConv c).replies = s.replies := rfl
@[simp] theorem State.setConv_turns (c : Conv) : (s.setConv c).turns = s.turns := rfl

@[simp] theorem State.setScore_params (o : ScoreOut) : (s.setScore o).params = s.params := rfl
@[simp] theorem State.setScore_regs (o : ScoreOut) : (s.setScore o).regs = { s.regs with scoreOut := o } := rfl
@[simp] theorem State.setScore_pend (o : ScoreOut) : (s.setScore o).pend = s.pend := rfl
@[simp] theorem State.setScore_pixbuf (o : ScoreOut) : (s.setScore o).pixbuf = s.pixbuf := rfl
@[simp] theorem State.setScore_maskbuf (o : ScoreOut) : (s.setScore o).maskbuf = s.maskbuf := rfl
@[simp] theorem State.setScore_script (o : ScoreOut) : (s.setScore o).script = s.script := rfl
@[simp] theorem State.setScore_replies (o : ScoreOut) : (s.setScore o).replies = s.replies := rfl
@[simp] theorem State.setScore_turns (o : ScoreOut) : (s.setScore o).turns = s.turns := rfl

@[simp] theorem State.setMask_params (out : Memory) (len : Nat) : (s.setMask out len).params = s.params := rfl
@[simp] theorem State.setMask_regs (out : Memory) (len : Nat) : (s.setMask out len).regs = { s.regs with maskLen := BitVec.ofNat 32 len } := rfl
@[simp] theorem State.setMask_pend (out : Memory) (len : Nat) : (s.setMask out len).pend = s.pend := rfl
@[simp] theorem State.setMask_pixbuf (out : Memory) (len : Nat) : (s.setMask out len).pixbuf = s.pixbuf := rfl
@[simp] theorem State.setMask_maskbuf (out : Memory) (len : Nat) : (s.setMask out len).maskbuf = out := rfl
@[simp] theorem State.setMask_script (out : Memory) (len : Nat) : (s.setMask out len).script = s.script := rfl
@[simp] theorem State.setMask_replies (out : Memory) (len : Nat) : (s.setMask out len).replies = s.replies := rfl
@[simp] theorem State.setMask_turns (out : Memory) (len : Nat) : (s.setMask out len).turns = s.turns := rfl

@[simp] theorem State.setLocate_params (n : Nat) (o : LocateOutcome) : (s.setLocate n o).params = s.params := rfl
@[simp] theorem State.setLocate_pend (n : Nat) (o : LocateOutcome) : (s.setLocate n o).pend = s.pend := rfl
@[simp] theorem State.setLocate_pixbuf (n : Nat) (o : LocateOutcome) : (s.setLocate n o).pixbuf = s.pixbuf := rfl
@[simp] theorem State.setLocate_maskbuf (n : Nat) (o : LocateOutcome) : (s.setLocate n o).maskbuf = s.maskbuf := rfl
@[simp] theorem State.setLocate_script (n : Nat) (o : LocateOutcome) : (s.setLocate n o).script = s.script := rfl
@[simp] theorem State.setLocate_replies (n : Nat) (o : LocateOutcome) : (s.setLocate n o).replies = s.replies := rfl
@[simp] theorem State.setLocate_turns (n : Nat) (o : LocateOutcome) : (s.setLocate n o).turns = s.turns := rfl

@[simp] theorem State.writeReg_params (r : Reg) (d : Word) : (s.writeReg r d).params = s.params := rfl
@[simp] theorem State.writeReg_regs (r : Reg) (d : Word) : (s.writeReg r d).regs = s.regs.write d r := rfl
@[simp] theorem State.writeReg_pend (r : Reg) (d : Word) : (s.writeReg r d).pend = s.pend := rfl
@[simp] theorem State.writeReg_pixbuf (r : Reg) (d : Word) : (s.writeReg r d).pixbuf = s.pixbuf := rfl
@[simp] theorem State.writeReg_maskbuf (r : Reg) (d : Word) : (s.writeReg r d).maskbuf = s.maskbuf := rfl
@[simp] theorem State.writeReg_script (r : Reg) (d : Word) : (s.writeReg r d).script = s.script := rfl
@[simp] theorem State.writeReg_replies (r : Reg) (d : Word) : (s.writeReg r d).replies = s.replies := rfl
@[simp] theorem State.writeReg_turns (r : Reg) (d : Word) : (s.writeReg r d).turns = s.turns := rfl

@[simp] theorem State.answer_params (r : Reply) : (s.answer r).params = s.params := rfl
@[simp] theorem State.answer_regs (r : Reply) : (s.answer r).regs = s.regs := rfl
@[simp] theorem State.answer_pend (r : Reply) : (s.answer r).pend = s.pend := rfl
@[simp] theorem State.answer_pixbuf (r : Reply) : (s.answer r).pixbuf = s.pixbuf := rfl
@[simp] theorem State.answer_maskbuf (r : Reply) : (s.answer r).maskbuf = s.maskbuf := rfl
@[simp] theorem State.answer_script (r : Reply) : (s.answer r).script = s.script := rfl
@[simp] theorem State.answer_replies (r : Reply) : (s.answer r).replies = r :: s.replies := rfl
@[simp] theorem State.answer_turns (r : Reply) : (s.answer r).turns = s.turns := rfl

@[simp] theorem State.popScript_params : s.popScript.params = s.params := rfl
@[simp] theorem State.popScript_regs : s.popScript.regs = s.regs := rfl
@[simp] theorem State.popScript_pend : s.popScript.pend = s.pend := rfl
@[simp] theorem State.popScript_pixbuf : s.popScript.pixbuf = s.pixbuf := rfl
@[simp] theorem State.popScript_maskbuf : s.popScript.maskbuf = s.maskbuf := rfl
@[simp] theorem State.popScript_script : s.popScript.script = s.script.tail := rfl
@[simp] theorem State.popScript_replies : s.popScript.replies = s.replies := rfl
@[simp] theorem State.popScript_turns : s.popScript.turns = s.turns := rfl

@[simp] theorem State.endTurn_params : s.endTurn.params = s.params := rfl
@[simp] theorem State.endTurn_regs : s.endTurn.regs = s.regs := rfl
@[simp] theorem State.endTurn_pend : s.endTurn.pend = s.pend := rfl
@[simp] theorem State.endTurn_pixbuf : s.endTurn.pixbuf = s.pixbuf := rfl
@[simp] theorem State.endTurn_maskbuf : s.endTurn.maskbuf = s.maskbuf := rfl
@[simp] theorem State.endTurn_script : s.endTurn.script = s.script := rfl
@[simp] theorem State.endTurn_replies : s.endTurn.replies = s.replies := rfl
@[simp] theorem State.endTurn_turns : s.endTurn.turns = s.turns.tail := rfl

@[simp] theorem State.setConv_regs_status (c : Conv) : (s.setConv c).regs.status = s.regs.status := rfl
@[simp] theorem State.setConv_regs_intEn (c : Conv) : (s.setConv c).regs.intEn = s.regs.intEn := rfl
@[simp] theorem State.setConv_regs_tgtH (c : Conv) : (s.setConv c).regs.tgtH = s.regs.tgtH := rfl
@[simp] theorem State.setConv_regs_tgtS (c : Conv) : (s.setConv c).regs.tgtS = s.regs.tgtS := rfl
@[simp] theorem State.setConv_regs_tgtV (c : Conv) : (s.setConv c).regs.tgtV = s.regs.tgtV := rfl
@[simp] theorem State.setConv_regs_hueTol (c : Conv) : (s.setConv c).regs.hueTol = s.regs.hueTol := rfl
@[simp] theorem State.setConv_regs_rowSel (c : Conv) : (s.setConv c).regs.rowSel = s.regs.rowSel := rfl
@[simp] theorem State.setConv_regs_probeCol (c : Conv) : (s.setConv c).regs.probeCol = s.regs.probeCol := rfl
@[simp] theorem State.setConv_regs_bufLen (c : Conv) : (s.setConv c).regs.bufLen = s.regs.bufLen := rfl
@[simp] theorem State.setConv_regs_maskLen (c : Conv) : (s.setConv c).regs.maskLen = s.regs.maskLen := rfl
@[simp] theorem State.setConv_regs_pixIn (c : Conv) : (s.setConv c).regs.pixIn = s.regs.pixIn := rfl
@[simp] theorem State.setConv_regs_smpH (c : Conv) : (s.setConv c).regs.smpH = s.regs.smpH := rfl
@[simp] theorem State.setConv_regs_smpS (c : Conv) : (s.setConv c).regs.smpS = s.regs.smpS := rfl
@[simp] theorem State.setConv_regs_smpV (c : Conv) : (s.setConv c).regs.smpV = s.regs.smpV := rfl
@[simp] theorem State.setConv_regs_scoreOut (c : Conv) : (s.setConv c).regs.scoreOut = s.regs.scoreOut := rfl
@[simp] theorem State.setConv_regs_resXY (c : Conv) : (s.setConv c).regs.resXY = s.regs.resXY := rfl
@[simp] theorem State.setConv_regs_resRow (c : Conv) : (s.setConv c).regs.resRow = s.regs.resRow := rfl
@[simp] theorem State.setConv_regs_resEdges (c : Conv) : (s.setConv c).regs.resEdges = s.regs.resEdges := rfl
@[simp] theorem State.setConv_regs_side (c : Conv) : (s.setConv c).regs.side = s.regs.side := rfl
@[simp] theorem State.setConv_regs_convHn (c : Conv) : (s.setConv c).regs.convHn = BitVec.ofInt 11 c.hn := rfl
@[simp] theorem State.setConv_regs_convOut_max (c : Conv) : (s.setConv c).regs.convOut.max = BitVec.ofNat 8 c.max := rfl
@[simp] theorem State.setConv_regs_convOut_min (c : Conv) : (s.setConv c).regs.convOut.min = BitVec.ofNat 8 c.min := rfl
@[simp] theorem State.setConv_regs_convOut_delta (c : Conv) : (s.setConv c).regs.convOut.delta = BitVec.ofNat 8 c.delta := rfl
@[simp] theorem State.setConv_regs_convOut_sect (c : Conv) : (s.setConv c).regs.convOut.sect = BitVec.ofNat 2 c.sect := rfl

@[simp] theorem State.setLocate_regs_status (n : Nat) (o : LocateOutcome) :
    (s.setLocate n o).regs.status = { s.regs.status with found := o.isFound, fail := o.fail } := rfl
@[simp] theorem State.setLocate_regs_intEn (n : Nat) (o : LocateOutcome) :
    (s.setLocate n o).regs.intEn = s.regs.intEn := rfl
@[simp] theorem State.setLocate_regs_tgtH (n : Nat) (o : LocateOutcome) : (s.setLocate n o).regs.tgtH = s.regs.tgtH := rfl
@[simp] theorem State.setLocate_regs_tgtS (n : Nat) (o : LocateOutcome) : (s.setLocate n o).regs.tgtS = s.regs.tgtS := rfl
@[simp] theorem State.setLocate_regs_tgtV (n : Nat) (o : LocateOutcome) : (s.setLocate n o).regs.tgtV = s.regs.tgtV := rfl
@[simp] theorem State.setLocate_regs_hueTol (n : Nat) (o : LocateOutcome) :
    (s.setLocate n o).regs.hueTol = s.regs.hueTol := rfl
@[simp] theorem State.setLocate_regs_rowSel (n : Nat) (o : LocateOutcome) :
    (s.setLocate n o).regs.rowSel = s.regs.rowSel := rfl
@[simp] theorem State.setLocate_regs_probeCol (n : Nat) (o : LocateOutcome) :
    (s.setLocate n o).regs.probeCol = s.regs.probeCol := rfl
@[simp] theorem State.setLocate_regs_bufLen (n : Nat) (o : LocateOutcome) :
    (s.setLocate n o).regs.bufLen = s.regs.bufLen := rfl
@[simp] theorem State.setLocate_regs_maskLen (n : Nat) (o : LocateOutcome) :
    (s.setLocate n o).regs.maskLen = s.regs.maskLen := rfl
@[simp] theorem State.setLocate_regs_pixIn (n : Nat) (o : LocateOutcome) :
    (s.setLocate n o).regs.pixIn = s.regs.pixIn := rfl
@[simp] theorem State.setLocate_regs_smpH (n : Nat) (o : LocateOutcome) : (s.setLocate n o).regs.smpH = s.regs.smpH := rfl
@[simp] theorem State.setLocate_regs_smpS (n : Nat) (o : LocateOutcome) : (s.setLocate n o).regs.smpS = s.regs.smpS := rfl
@[simp] theorem State.setLocate_regs_smpV (n : Nat) (o : LocateOutcome) : (s.setLocate n o).regs.smpV = s.regs.smpV := rfl
@[simp] theorem State.setLocate_regs_convOut (n : Nat) (o : LocateOutcome) :
    (s.setLocate n o).regs.convOut = s.regs.convOut := rfl
@[simp] theorem State.setLocate_regs_convHn (n : Nat) (o : LocateOutcome) :
    (s.setLocate n o).regs.convHn = s.regs.convHn := rfl
@[simp] theorem State.setLocate_regs_scoreOut (n : Nat) (o : LocateOutcome) :
    (s.setLocate n o).regs.scoreOut = s.regs.scoreOut := rfl
@[simp] theorem State.setLocate_regs_resXY (n : Nat) (o : LocateOutcome) : (s.setLocate n o).regs.resXY = o.xy := rfl
@[simp] theorem State.setLocate_regs_resRow (n : Nat) (o : LocateOutcome) : (s.setLocate n o).regs.resRow = o.row := rfl
@[simp] theorem State.setLocate_regs_resEdges (n : Nat) (o : LocateOutcome) :
    (s.setLocate n o).regs.resEdges = o.edges := rfl
@[simp] theorem State.setLocate_regs_side (n : Nat) (o : LocateOutcome) :
    (s.setLocate n o).regs.side = BitVec.ofNat 16 n := rfl

@[simp] theorem State.setMem_pixbuf_pixbuf (m : Memory) : (s.setMem .pixbuf m).pixbuf = m := rfl
@[simp] theorem State.setMem_pixbuf_maskbuf (m : Memory) : (s.setMem .pixbuf m).maskbuf = s.maskbuf := rfl
@[simp] theorem State.setMem_maskbuf_pixbuf (m : Memory) : (s.setMem .maskbuf m).pixbuf = s.pixbuf := rfl
@[simp] theorem State.setMem_maskbuf_maskbuf (m : Memory) : (s.setMem .maskbuf m).maskbuf = m := rfl
@[simp] theorem State.setMem_params (which : MemId) (m : Memory) : (s.setMem which m).params = s.params := by
  cases which <;> rfl
@[simp] theorem State.setMem_regs (which : MemId) (m : Memory) : (s.setMem which m).regs = s.regs := by
  cases which <;> rfl
@[simp] theorem State.setMem_pend (which : MemId) (m : Memory) : (s.setMem which m).pend = s.pend := by
  cases which <;> rfl
@[simp] theorem State.setMem_script (which : MemId) (m : Memory) : (s.setMem which m).script = s.script := by
  cases which <;> rfl
@[simp] theorem State.setMem_replies (which : MemId) (m : Memory) : (s.setMem which m).replies = s.replies := by
  cases which <;> rfl
@[simp] theorem State.setMem_turns (which : MemId) (m : Memory) : (s.setMem which m).turns = s.turns := by
  cases which <;> rfl
@[simp] theorem State.memWrite_params (which : MemId) (off n : Nat) (v : Word) :
    (s.memWrite which off n v).params = s.params := by
  simp [State.memWrite]
@[simp] theorem State.memWrite_regs (which : MemId) (off n : Nat) (v : Word) :
    (s.memWrite which off n v).regs = s.regs := by
  simp [State.memWrite]
@[simp] theorem State.memWrite_pend (which : MemId) (off n : Nat) (v : Word) :
    (s.memWrite which off n v).pend = s.pend := by
  simp [State.memWrite]
@[simp] theorem State.memWrite_script (which : MemId) (off n : Nat) (v : Word) :
    (s.memWrite which off n v).script = s.script := by
  simp [State.memWrite]
@[simp] theorem State.memWrite_replies (which : MemId) (off n : Nat) (v : Word) :
    (s.memWrite which off n v).replies = s.replies := by
  simp [State.memWrite]
@[simp] theorem State.memWrite_turns (which : MemId) (off n : Nat) (v : Word) :
    (s.memWrite which off n v).turns = s.turns := by
  simp [State.memWrite]

/-- The bits of a one-bit field (R48). -/
theorem getElem_bitAt (i j : Nat) (hj : j < 32) (b : Bool) : (bitAt i b)[j] = (b && decide (i = j)) := by
  unfold bitAt
  cases b
  · simp
  · rw [if_pos rfl, ← BitVec.getLsbD_eq_getElem, BitVec.getLsbD_ofNat, Nat.testBit_two_pow]
    simp [hj]

@[simp] theorem State.busy_none (h : s.pend = none) : s.busy = false := by simp [State.busy, h]
@[simp] theorem State.busy_some (c : Command) (h : s.pend = some c) : s.busy = true := by simp [State.busy, h]

/-- BUSY and PEND are one storage (R21). -/
theorem State.busy_iff_pend : s.busy = true ↔ s.pend ≠ none := by
  cases h : s.pend <;> simp [State.busy, h]

@[simp] theorem mapNext_next (f : State → State) (t : State) : mapNext f (.next t) = .next (f t) := rfl
@[simp] theorem mapNext_fault (f : State → State) (r : Fault) : mapNext f (.fault r) = .fault r := rfl
@[simp] theorem mapNext_refused (f : State → State) (r : Refusal) : mapNext f (.refused r) = .refused r := rfl

/-- A next state after `mapNext` comes from a next state before it. -/
theorem mapNext_eq_next {f : State → State} {o : Host.Outcome State Fault Refusal} {t : State}
    (h : mapNext f o = .next t) : ∃ u, o = .next u ∧ t = f u := by
  cases o with
  | next u => exact ⟨u, rfl, by simpa using h.symm⟩
  | fault r => simp at h
  | refused r => simp at h

/-- A fault after `mapNext` is the fault before it. -/
theorem mapNext_eq_fault {f : State → State} {o : Host.Outcome State Fault Refusal} {r : Fault} :
    mapNext f o = .fault r ↔ o = .fault r := by
  cases o <;> simp

/-- A refusal after `mapNext` is the refusal before it. -/
theorem mapNext_eq_refused {f : State → State} {o : Host.Outcome State Fault Refusal} {r : Refusal} :
    mapNext f o = .refused r ↔ o = .refused r := by
  cases o <;> simp

end Sys2Proof.Machine
end

