-- ==== Sys2Proof/Laws/Ops.lean ====
section
/-! SUPPORT. What the two steps of a command and a CTRL write can do, said once. -/

namespace Sys2Proof.Machine

variable {s t : State} {c : Command} {effect : State → Except Fault State}

theorem State.completes_iff : s.completes c = true ↔ s.pend = some c ∧ s.sequencerMoves = true := by
  simp [State.completes]

theorem State.completes_busy (h : s.completes c = true) : s.busy = true :=
  s.busy_some c (State.completes_iff.mp h).1

/-- The sequencer moves only while a command is pending (R120). -/
theorem State.sequencerMoves_busy (h : s.sequencerMoves = true) : s.busy = true := by
  simp only [State.sequencerMoves, Bool.and_eq_true] at h
  exact h.1

theorem State.completes_of_idle (h : s.busy = false) : s.completes c = false := by
  cases hc : s.completes c
  · rfl
  · rw [State.completes_busy hc] at h; cases h

theorem State.completes_of_host (h : s.sequencerMoves = false) : s.completes c = false := by
  simp [State.completes, h]

/-- A completion step whose effect succeeds (R122). -/
theorem runCommand_finish (h : s.completes c = true) (he : effect s = .ok t) : runCommand c effect s = .next t.finish := by
  simp [runCommand, h, he]

/-- A completion step whose effect faults (R122, R226). -/
theorem runCommand_fault {f : Fault} (h : s.completes c = true) (he : effect s = .error f) :
    runCommand c effect s = .fault f := by
  simp [runCommand, h, he]

/-- The start step (R121). -/
theorem runCommand_start (h : s.busy = false) : runCommand c effect s = .next (s.start c) := by
  simp [runCommand, State.completes_of_idle h, State.ctrlWrite, h]

/-- A command word written while BUSY (R79). -/
theorem runCommand_dropped (hb : s.busy = true) (hc : s.completes c = false) :
    runCommand c effect s = .next s.signalErrWbusy := by
  simp [runCommand, hc, State.ctrlWrite, hb]

/-- Everything a command can do when it answers a next state. -/
theorem runCommand_cases (h : runCommand c effect s = .next t) :
    (s.completes c = true ∧ ∃ u, effect s = .ok u ∧ t = u.finish) ∨
      (s.busy = false ∧ t = s.start c) ∨ (s.busy = true ∧ s.completes c = false ∧ t = s.signalErrWbusy) := by
  cases hc : s.completes c with
  | true =>
    cases he : effect s with
    | ok u =>
      rw [runCommand_finish hc he] at h
      exact .inl ⟨rfl, u, rfl, by simpa using h.symm⟩
    | error f =>
      rw [runCommand_fault hc he] at h
      cases h
  | false =>
    cases hb : s.busy with
    | true =>
      rw [runCommand_dropped hb hc] at h
      exact .inr (.inr ⟨rfl, rfl, by simpa using h.symm⟩)
    | false =>
      rw [runCommand_start hb] at h
      exact .inr (.inl ⟨rfl, by simpa using h.symm⟩)

/-- A command faults only in its completion step, with its effect's fault. -/
theorem runCommand_eq_fault {f : Fault} :
    runCommand c effect s = .fault f ↔ s.completes c = true ∧ effect s = .error f := by
  constructor
  · intro h
    cases hc : s.completes c with
    | true =>
      cases he : effect s with
      | ok u => rw [runCommand_finish hc he] at h; cases h
      | error g => rw [runCommand_fault hc he] at h; exact ⟨rfl, by simpa using h⟩
    | false => simp [runCommand, hc] at h
  · rintro ⟨hc, he⟩
    exact runCommand_fault hc he

theorem runCommand_ne_refused (r : Refusal) : runCommand c effect s ≠ .refused r := by
  unfold runCommand
  split
  · split <;> simp
  · simp

/-- A CTRL write with SRST = 0, whole (R102). -/
theorem State.ctrlWrite_idle (h : s.busy = false) (accept : State → State) : s.ctrlWrite accept = accept s := by
  simp [State.ctrlWrite, h]

theorem State.ctrlWrite_busy (h : s.busy = true) (accept : State → State) : s.ctrlWrite accept = s.signalErrWbusy := by
  simp [State.ctrlWrite, h]

/-- MASKBUF after a soft reset, byte by byte (R126). -/
theorem State.read_maskbufAfterSrst (s : State) (o : Nat) :
    s.maskbufAfterSrst.read o =
      if (s.pend = some .mask ∨ s.pend = some .frame) ∧ s.regs.bufLen.toNat / 4 ≤ s.params.pixCap ∧
          o < s.regs.bufLen.toNat / 4 then none
      else s.maskbuf.read o := by
  unfold State.maskbufAfterSrst
  cases hp : s.pend with
  | none => simp
  | some c =>
    cases c <;> simp only [Option.some.injEq, reduceCtorEq, or_self, false_and, if_false, or_true, true_or, true_and]
    all_goals
      split
      · rename_i h
        simp [Memory.read_forget, h]
      · rename_i h
        simp [h]

theorem State.maskbufAfterSrst_wf (h : s.maskbuf.wf) : s.maskbufAfterSrst.wf := by
  unfold State.maskbufAfterSrst
  split
  · split
    · exact Memory.forget_wf h _
    · exact h
  · split
    · exact Memory.forget_wf h _
    · exact h
  all_goals exact h

theorem State.maskbufAfterSrst_within {n : Nat} (h : s.maskbuf.within n) : s.maskbufAfterSrst.within n := by
  unfold State.maskbufAfterSrst
  split
  · split
    · exact Memory.forget_within h _
    · exact h
  · split
    · exact Memory.forget_within h _
    · exact h
  all_goals exact h

end Sys2Proof.Machine
end

