-- ==== Sys2Proof/Laws/Mask.lean ====
section
/-! SUPPORT. What reading a pixel and the mask loop do, said once. -/

namespace Sys2Proof.Machine

theorem readByte_ok {which : MemId} {m : Memory} {off : Nat} {b : Byte} :
    readByte which m off = .ok b ↔ m.read off = some b := by
  unfold readByte
  cases m.read off <;> simp

theorem readByte_error {which : MemId} {m : Memory} {off : Nat} {f : Fault} :
    readByte which m off = .error f ↔ m.read off = none ∧ f = .uninitRead which off := by
  unfold readByte
  cases m.read off <;> simp [eq_comm]

/-- A pixel is read exactly when its four bytes are written (R182). -/
theorem readPixel_ok {m : Memory} {i : Nat} {p : Pixel} :
    readPixel m i = .ok p ↔
      m.read (4 * i) = some p.blue ∧ m.read (4 * i + 1) = some p.green ∧ m.read (4 * i + 2) = some p.red ∧
        (m.read (4 * i + 3)).isSome = true := by
  obtain ⟨r, g, b⟩ := p
  unfold readPixel readByte
  cases m.read (4 * i) <;> cases m.read (4 * i + 1) <;> cases m.read (4 * i + 2) <;> cases m.read (4 * i + 3) <;>
    simp [Pixel.mk.injEq]
  tauto

/-- A pixel that is not read names its first unwritten byte (R182, R226). -/
theorem readPixel_error {m : Memory} {i : Nat} {f : Fault} (h : readPixel m i = .error f) :
    ∃ k < 4, f = .uninitRead .pixbuf (4 * i + k) ∧ m.read (4 * i + k) = none ∧
      ∀ j < k, (m.read (4 * i + j)).isSome = true := by
  unfold readPixel readByte at h
  rw [Nat.add_zero] at h
  cases h0 : m.read (4 * i) with
  | none => simp only [h0] at h; exact ⟨0, by omega, by simpa using h.symm, by simpa using h0, by omega⟩
  | some b =>
    cases h1 : m.read (4 * i + 1) with
    | none =>
      simp only [h0, h1] at h
      refine ⟨1, by omega, by simpa using h.symm, h1, fun j hj => ?_⟩
      interval_cases j; simp [h0]
    | some g =>
      cases h2 : m.read (4 * i + 2) with
      | none =>
        simp only [h0, h1, h2] at h
        refine ⟨2, by omega, by simpa using h.symm, h2, fun j hj => ?_⟩
        interval_cases j <;> simp [h0, h1]
      | some r =>
        cases h3 : m.read (4 * i + 3) with
        | none =>
          simp only [h0, h1, h2, h3] at h
          refine ⟨3, by omega, by simpa using h.symm, h3, fun j hj => ?_⟩
          interval_cases j <;> simp [h0, h1, h2]
        | some a => simp [h0, h1, h2, h3] at h

/-- The mask loop with every pixel read: the bytes it writes and the bytes it leaves (R182, R183). -/
theorem maskLoop_ok {r : Regs} {pix : Memory} {px : Nat → Pixel} (n i : Nat) (out : Memory)
    (h : ∀ j, i ≤ j → j < i + n → readPixel pix j = .ok (px j)) :
    ∃ out', maskLoop r pix n i out = .ok out' ∧
      ∀ o, out'.read o = if i ≤ o ∧ o < i + n then some (scorePixel r (px o)).byte else out.read o := by
  induction n generalizing i out with
  | zero =>
    refine ⟨out, rfl, fun o => ?_⟩
    rw [if_neg (by omega)]
  | succ n ih =>
    have h0 := h i (by omega) (by omega)
    obtain ⟨out', h1, h2⟩ := ih (i + 1) (out.write i (scorePixel r (px i)).byte)
      (fun j hj hj' => h j (by omega) (by omega))
    refine ⟨out', by simp only [maskLoop, h0, h1], fun o => ?_⟩
    rw [h2 o, Memory.read_write]
    by_cases ho : o = i
    · subst ho
      rw [if_neg (by omega), if_pos rfl, if_pos (by omega)]
    · rw [if_neg ho]
      by_cases hr : i + 1 ≤ o ∧ o < i + 1 + n
      · rw [if_pos hr, if_pos (by omega)]
      · rw [if_neg hr, if_neg (by omega)]

/-- A mask loop that answers has read every pixel. -/
theorem maskLoop_reads {r : Regs} {pix : Memory} (n i : Nat) (out : Memory) {out' : Memory}
    (h : maskLoop r pix n i out = .ok out') : ∀ j, i ≤ j → j < i + n → ∃ p, readPixel pix j = .ok p := by
  induction n generalizing i out with
  | zero => intro j h1 h2; omega
  | succ n ih =>
    intro j h1 h2
    simp only [maskLoop] at h
    cases hp : readPixel pix i with
    | error f => simp [hp] at h
    | ok p =>
      simp only [hp] at h
      by_cases hj : j = i
      · exact ⟨p, by rw [hj, hp]⟩
      · exact ih (i + 1) _ h j (by omega) (by omega)

/-- A mask loop that faults names the first unwritten byte of its pixels (R182, R226). -/
theorem maskLoop_error {r : Regs} {pix : Memory} (n i : Nat) (out : Memory) {f : Fault}
    (h : maskLoop r pix n i out = .error f) :
    ∃ o, 4 * i ≤ o ∧ o < 4 * (i + n) ∧ f = .uninitRead .pixbuf o ∧ pix.read o = none ∧
      ∀ o', 4 * i ≤ o' → o' < o → (pix.read o').isSome = true := by
  induction n generalizing i out with
  | zero => simp [maskLoop] at h
  | succ n ih =>
    simp only [maskLoop] at h
    cases hp : readPixel pix i with
    | error g =>
      simp only [hp, Except.error.injEq] at h
      subst h
      obtain ⟨k, hk, hf, hn, hb⟩ := readPixel_error hp
      refine ⟨4 * i + k, by omega, by omega, hf, hn, fun o' h1 h2 => ?_⟩
      have := hb (o' - 4 * i) (by omega)
      rwa [show 4 * i + (o' - 4 * i) = o' by omega] at this
    | ok p =>
      simp only [hp] at h
      obtain ⟨o, h1, h2, hf, hn, hb⟩ := ih (i + 1) _ h
      refine ⟨o, by omega, by omega, hf, hn, fun o' h3 h4 => ?_⟩
      by_cases h5 : 4 * (i + 1) ≤ o'
      · exact hb o' h5 h4
      · obtain ⟨q0, q1, q2, q3⟩ := readPixel_ok.mp hp
        have : o' = 4 * i ∨ o' = 4 * i + 1 ∨ o' = 4 * i + 2 ∨ o' = 4 * i + 3 := by omega
        rcases this with rfl | rfl | rfl | rfl
        · simp [q0]
        · simp [q1]
        · simp [q2]
        · exact q3

theorem maskLoop_wf {r : Regs} {pix : Memory} (n i : Nat) {out out' : Memory} (hw : out.wf)
    (h : maskLoop r pix n i out = .ok out') : out'.wf := by
  induction n generalizing i out with
  | zero => simp only [maskLoop, Except.ok.injEq] at h; exact h ▸ hw
  | succ n ih =>
    simp only [maskLoop] at h
    cases hp : readPixel pix i with
    | error f => simp [hp] at h
    | ok p => simp only [hp] at h; exact ih _ (Memory.write_wf hw _ _) h

theorem maskLoop_within {r : Regs} {pix : Memory} {k : Nat} (n i : Nat) {out out' : Memory} (hw : out.within k)
    (hk : i + n ≤ k) (h : maskLoop r pix n i out = .ok out') : out'.within k := by
  induction n generalizing i out with
  | zero => simp only [maskLoop, Except.ok.injEq] at h; exact h ▸ hw
  | succ n ih =>
    simp only [maskLoop] at h
    cases hp : readPixel pix i with
    | error f => simp [hp] at h
    | ok p => simp only [hp] at h; exact ih _ (Memory.write_within hw (by omega) _) (by omega) h

/-- Everything Exec_MASK can do when it answers (R181 to R183). -/
theorem maskEffect_cases {s t : State} (h : maskEffect s = .ok t) :
    (s.params.pixCap < s.regs.pixelCount ∧ t = s.signalErrLen) ∨
      (s.regs.pixelCount ≤ s.params.pixCap ∧
        ∃ out, maskLoop s.regs s.pixbuf s.regs.pixelCount 0 s.maskbuf = .ok out ∧ t = s.setMask out s.regs.pixelCount) := by
  unfold maskEffect at h
  split at h
  · exact .inl ⟨by assumption, by simpa using h.symm⟩
  · split at h
    · cases h
    · rename_i hl _ out ho
      exact .inr ⟨by omega, out, ho, by simpa using h.symm⟩

end Sys2Proof.Machine
end

