-- ==== Sys2Proof/Laws/Locate.lean ====
section
/-! SUPPORT. The candidate sets and the outcome of a locate, said once. -/

namespace Sys2Proof.Machine

/-- A hit is a written non-zero byte (R201). -/
theorem Memory.hit_iff (m : Memory) (o : Nat) : m.hit o = true ↔ ∃ b, m.read o = some b ∧ b ≠ 0 := by
  unfold Memory.hit
  cases m.read o <;> simp

theorem Memory.firstUnwritten_none {m : Memory} {offs : List Nat} :
    m.firstUnwritten offs = none ↔ ∀ o ∈ offs, (m.read o).isSome = true := by
  unfold Memory.firstUnwritten
  rw [List.find?_eq_none]
  refine forall₂_congr fun o _ => ?_
  cases m.read o <;> simp

theorem Memory.firstUnwritten_some {m : Memory} {offs : List Nat} {o : Nat} (h : m.firstUnwritten offs = some o) :
    o ∈ offs ∧ m.read o = none := by
  unfold Memory.firstUnwritten at h
  refine ⟨List.mem_of_find?_eq_some h, ?_⟩
  have := List.find?_some h
  cases hr : m.read o <;> simp_all

theorem mem_probeRows {m : Memory} {n p y : Nat} : y ∈ probeRows m n p ↔ y < n / 2 ∧ m.hit (y * n + p) = true := by
  simp [probeRows]

theorem mem_leftCols {m : Memory} {n r x : Nat} : x ∈ leftCols m n r ↔ x ≤ n / 2 ∧ m.hit (r * n + x) = true := by
  simp [leftCols]

theorem mem_rightCols {m : Memory} {n r x : Nat} :
    x ∈ rightCols m n r ↔ x < n ∧ n / 2 < x ∧ m.hit (r * n + x) = true := by
  simp [rightCols]

theorem mem_probeOffsets {n p o : Nat} : o ∈ probeOffsets n p ↔ ∃ y < n / 2, y * n + p = o := by
  simp [probeOffsets]

theorem mem_rowOffsets {n r o : Nat} : o ∈ rowOffsets n r ↔ ∃ x < n, r * n + x = o := by
  simp [rowOffsets]

theorem probeRow_none {sel : RowSel} {cand : List Nat} : probeRow sel cand = none ↔ cand = [] := by
  cases sel <;> simp [probeRow]

theorem probeRow_nearest {cand : List Nat} {y : Nat} :
    probeRow .nearest cand = some y ↔ y ∈ cand ∧ ∀ z ∈ cand, z ≤ y := by
  simp only [probeRow]
  exact List.max?_eq_some_iff

theorem probeRow_topmost {cand : List Nat} {y : Nat} :
    probeRow .topmost cand = some y ↔ y ∈ cand ∧ ∀ z ∈ cand, y ≤ z := by
  simp only [probeRow]
  exact List.min?_eq_some_iff

theorem probeRow_mem {sel : RowSel} {cand : List Nat} {y : Nat} (h : probeRow sel cand = some y) : y ∈ cand := by
  cases sel with
  | nearest => exact (probeRow_nearest.mp h).1
  | topmost => exact (probeRow_topmost.mp h).1

/-- What the outcome of steps 2 and 3 says of the edges (R194, R195). -/
theorem neckOutcome_found {m : Memory} {n row row' l r : Nat} (h : neckOutcome m n row = .found row' l r) :
    row' = row ∧ l ∈ leftCols m n (row + 1) ∧ (∀ x ∈ leftCols m n (row + 1), x ≤ l) ∧
      r ∈ rightCols m n (row + 1) ∧ ∀ x ∈ rightCols m n (row + 1), r ≤ x := by
  unfold neckOutcome at h
  split at h
  · cases h
  · split at h
    · cases h
    · rename_i l' hl _ r' hr
      simp only [LocateOutcome.found.injEq] at h
      obtain ⟨rfl, rfl, rfl⟩ := h
      obtain ⟨h1, h2⟩ := List.max?_eq_some_iff.mp hl
      obtain ⟨h3, h4⟩ := List.min?_eq_some_iff.mp hr
      exact ⟨rfl, h1, h2, h3, h4⟩

theorem neckOutcome_noLeft {m : Memory} {n row row' : Nat} (h : neckOutcome m n row = .noLeftEdge row') :
    row' = row ∧ leftCols m n (row + 1) = [] := by
  unfold neckOutcome at h
  split at h
  · rename_i hl
    simp only [LocateOutcome.noLeftEdge.injEq] at h
    exact ⟨h.symm, by simpa using hl⟩
  · split at h <;> cases h

theorem neckOutcome_noRight {m : Memory} {n row row' l : Nat} (h : neckOutcome m n row = .noRightEdge row' l) :
    row' = row ∧ l ∈ leftCols m n (row + 1) ∧ (∀ x ∈ leftCols m n (row + 1), x ≤ l) ∧ rightCols m n (row + 1) = [] := by
  unfold neckOutcome at h
  split at h
  · cases h
  · split at h
    · rename_i l' hl _ hr
      simp only [LocateOutcome.noRightEdge.injEq] at h
      obtain ⟨rfl, rfl⟩ := h
      obtain ⟨h1, h2⟩ := List.max?_eq_some_iff.mp hl
      exact ⟨rfl, h1, h2, by simpa using hr⟩
    · cases h

/-- Steps 2 and 3 end in one of three ways (R190). -/
theorem neckOutcome_cases (m : Memory) (n row : Nat) :
    neckOutcome m n row = .noLeftEdge row ∨ (∃ l, neckOutcome m n row = .noRightEdge row l) ∨
      ∃ l r, neckOutcome m n row = .found row l r := by
  unfold neckOutcome
  split
  · exact .inl rfl
  · split
    · exact .inr (.inl ⟨_, rfl⟩)
    · exact .inr (.inr ⟨_, _, rfl⟩)

/-- Everything a locate can answer (R192 to R195). -/
theorem locateOutcome_cases {sel : RowSel} {m : Memory} {n p : Nat} {o : LocateOutcome}
    (h : locateOutcome sel m n p = .ok o) :
    (n ≤ p ∧ o = .probeOutOfRange) ∨
      (p < n ∧ probeRows m n p = [] ∧ o = .noProbeRow) ∨
        (p < n ∧ ∃ row, probeRow sel (probeRows m n p) = some row ∧ o = neckOutcome m n row) := by
  unfold locateOutcome at h
  split at h
  · exact .inl ⟨by assumption, by simpa using h.symm⟩
  · split at h
    · cases h
    · split at h
      · rename_i hr
        exact .inr (.inl ⟨by omega, probeRow_none.mp hr, by simpa using h.symm⟩)
      · rename_i row hr
        split at h
        · cases h
        · exact .inr (.inr ⟨by omega, row, hr, by simpa using h.symm⟩)

/-- A locate faults only on an unwritten byte of its scan window (R198). -/
theorem locateOutcome_error {sel : RowSel} {m : Memory} {n p : Nat} {f : Fault}
    (h : locateOutcome sel m n p = .error f) :
    p < n ∧ ∃ o, f = .uninitRead .maskbuf o ∧ m.read o = none ∧
      (o ∈ probeOffsets n p ∨
        ∃ row, probeRow sel (probeRows m n p) = some row ∧ o ∈ rowOffsets n (row + 1)) := by
  unfold locateOutcome at h
  split at h
  · cases h
  · refine ⟨by omega, ?_⟩
    split at h
    · rename_i o ho
      obtain ⟨h1, h2⟩ := Memory.firstUnwritten_some ho
      exact ⟨o, by simpa using h.symm, h2, .inl h1⟩
    · split at h
      · cases h
      · rename_i row hr
        split at h
        · rename_i o ho
          obtain ⟨h1, h2⟩ := Memory.firstUnwritten_some ho
          exact ⟨o, by simpa using h.symm, h2, .inr ⟨row, hr, h1⟩⟩
        · cases h

/-- With its scan window written a locate answers. -/
theorem locateOutcome_ok {sel : RowSel} {m : Memory} {n p : Nat}
    (h1 : p < n → ∀ y < n / 2, (m.read (y * n + p)).isSome = true)
    (h2 : p < n → ∀ row, probeRow sel (probeRows m n p) = some row → ∀ x < n, (m.read ((row + 1) * n + x)).isSome = true) :
    ∃ o, locateOutcome sel m n p = .ok o := by
  cases h : locateOutcome sel m n p with
  | ok o => exact ⟨o, rfl⟩
  | error f =>
    obtain ⟨hp, o, -, hn, ho | ⟨row, hr, ho⟩⟩ := locateOutcome_error h
    · obtain ⟨y, hy, rfl⟩ := mem_probeOffsets.mp ho
      have := h1 hp y hy
      simp [hn] at this
    · obtain ⟨x, hx, rfl⟩ := mem_rowOffsets.mp ho
      have := h2 hp row hr x hx
      simp [hn] at this

/-- Everything Exec_LOCATE can do when it answers (R191, R197). -/
theorem locateEffect_cases {s t : State} (h : locateEffect s = .ok t) :
    (s.params.pixCap < s.regs.maskLength ∧ t = s.signalErrLen) ∨
      (s.regs.maskLength ≤ s.params.pixCap ∧
        ∃ o, locateOutcome s.regs.rowSel s.maskbuf (isqrt s.regs.maskLength) s.regs.probe = .ok o ∧
          t = s.setLocate (isqrt s.regs.maskLength) o) := by
  unfold locateEffect at h
  split at h
  · exact .inl ⟨by assumption, by simpa using h.symm⟩
  · split at h
    · cases h
    · rename_i hl _ o ho
      exact .inr ⟨by omega, o, ho, by simpa using h.symm⟩

/-- Everything Exec_FRAME can do when it answers (R199). -/
theorem frameEffect_cases {s t : State} (h : frameEffect s = .ok t) :
    (s.params.pixCap < s.regs.pixelCount ∧ t = s.signalErrLen) ∨
      (s.regs.pixelCount ≤ s.params.pixCap ∧ ∃ u, maskEffect s = .ok u ∧ locateEffect u = .ok t) := by
  unfold frameEffect at h
  split at h
  · exact .inl ⟨by assumption, by simpa using h.symm⟩
  · split at h
    · cases h
    · rename_i hl _ u hu
      exact .inr ⟨by omega, u, hu, h⟩

end Sys2Proof.Machine
end

