-- ==== Sys2Proof/Laws/Step.lean ====
section
/-! SUPPORT. What `exec`, a transaction and `step` can do, said once: the inversion lemmas the proofs about the whole machine
cite. -/

namespace Sys2Proof.Machine

/-- Exec_c of a command (R122). -/
def commandEffect : Command → State → Except Fault State
  | .nop => nopEffect
  | .convert => convertEffect
  | .scorePix => scorePixEffect
  | .scoreHsv => scoreHsvEffect
  | .mask => maskEffect
  | .locate => locateEffect
  | .frame => frameEffect

/-- The seven commands are one shared operation over their effects. -/
theorem exec_command (c : Command) (s : State) : exec c.instr s = runCommand c (commandEffect c) s := by
  cases c <;> rfl

/-- Every instruction is a command, a reserved code or SRST (R101). -/
theorem instr_cases (i : Instr) :
    (∃ c : Command, i = c.instr) ∨ i = .reserved7 ∨ (∃ cmd, i = .reserved8F cmd) ∨ i = .srst := by
  cases i with
  | nop => exact .inl ⟨.nop, rfl⟩
  | convert => exact .inl ⟨.convert, rfl⟩
  | scorePix => exact .inl ⟨.scorePix, rfl⟩
  | scoreHsv => exact .inl ⟨.scoreHsv, rfl⟩
  | mask => exact .inl ⟨.mask, rfl⟩
  | locate => exact .inl ⟨.locate, rfl⟩
  | frame => exact .inl ⟨.frame, rfl⟩
  | reserved7 => exact .inr (.inl rfl)
  | reserved8F cmd => exact .inr (.inr (.inl ⟨cmd, rfl⟩))
  | srst => exact .inr (.inr (.inr rfl))

/-- Everything `exec` can do when it answers a next state. -/
theorem exec_cases {i : Instr} {s t : State} (h : exec i s = .next t) :
    (∃ c u, i = Command.instr c ∧ s.completes c = true ∧ commandEffect c s = .ok u ∧ t = u.finish) ∨
      (∃ c, i = Command.instr c ∧ s.busy = false ∧ t = s.start c) ∨
        (s.busy = true ∧ i ≠ .srst ∧ t = s.signalErrWbusy) ∨
          (s.busy = false ∧ (i = .reserved7 ∨ ∃ cmd, i = .reserved8F cmd) ∧ t = s.signalErrCmd) ∨
            (i = .srst ∧ t = s.softReset) := by
  rcases instr_cases i with ⟨c, rfl⟩ | rfl | ⟨cmd, rfl⟩ | rfl
  · rw [exec_command] at h
    rcases runCommand_cases h with ⟨hc, u, hu, ht⟩ | ⟨hb, ht⟩ | ⟨hb, -, ht⟩
    · exact .inl ⟨c, u, rfl, hc, hu, ht⟩
    · exact .inr (.inl ⟨c, rfl, hb, ht⟩)
    · exact .inr (.inr (.inl ⟨hb, by cases c <;> simp [Command.instr], ht⟩))
  · have ht : t = reservedCode s := by simpa [exec, execReserved7] using h.symm
    cases hb : s.busy
    · exact .inr (.inr (.inr (.inl ⟨rfl, .inl rfl, by rw [ht, reservedCode, State.ctrlWrite_idle hb]⟩)))
    · exact .inr (.inr (.inl ⟨rfl, by simp, by rw [ht, reservedCode, State.ctrlWrite_busy hb]⟩))
  · have ht : t = reservedCode s := by simpa [exec, execReserved8F] using h.symm
    cases hb : s.busy
    · exact .inr (.inr (.inr (.inl ⟨rfl, .inr ⟨cmd, rfl⟩, by rw [ht, reservedCode, State.ctrlWrite_idle hb]⟩)))
    · exact .inr (.inr (.inl ⟨rfl, by simp, by rw [ht, reservedCode, State.ctrlWrite_busy hb]⟩))
  · exact .inr (.inr (.inr (.inr ⟨rfl, by simpa [exec, execSrst] using h.symm⟩)))

/-- No instruction is refused. -/
theorem exec_ne_refused (i : Instr) (s : State) (r : Refusal) : exec i s ≠ .refused r := by
  rcases instr_cases i with ⟨c, rfl⟩ | rfl | ⟨cmd, rfl⟩ | rfl
  · rw [exec_command]
    exact runCommand_ne_refused r
  all_goals simp [exec, execReserved7, execReserved8F, execSrst]

/-- An instruction faults only as the completion step of its command (R122, R226). -/
theorem exec_eq_fault {i : Instr} {s : State} {f : Fault} (h : exec i s = .fault f) :
    ∃ c, i = Command.instr c ∧ s.completes c = true ∧ commandEffect c s = .error f := by
  rcases instr_cases i with ⟨c, rfl⟩ | rfl | ⟨cmd, rfl⟩ | rfl
  · rw [exec_command] at h
    exact ⟨c, rfl, runCommand_eq_fault.mp h⟩
  all_goals simp [exec, execReserved7, execReserved8F, execSrst] at h

/-- Everything a Read transaction can do when it answers a next state: it changes the answers only (R76, R83). -/
theorem readTxn_next {a : Offset} {sz : Size} {s t : State} (h : readTxn a sz s = .next t) :
    ∃ d r, t = s.answer (.read d r) := by
  unfold readTxn at h
  split at h
  · exact ⟨_, _, by simpa using h.symm⟩
  · exact ⟨_, _, by simpa using h.symm⟩
  · split at h
    · exact ⟨_, _, by simpa using h.symm⟩
    · split at h
      · exact ⟨_, _, by simpa using h.symm⟩
      · cases h

/-- Everything a Write transaction can do when it answers a next state (R75, R77 to R79, R82). -/
theorem writeTxn_next {a : Offset} {sz : Size} {d : Word} {s t : State} (h : writeTxn a sz d s = .next t) :
    (target s.params a sz = .busError ∧ t = s.answer (.write .error)) ∨
      (target s.params a sz = .reg .ctrl ∧ ∃ u, exec (decode d) s = .next u ∧ t = u.answer (.write .okay)) ∨
        (s.busy = true ∧ target s.params a sz ≠ .busError ∧ target s.params a sz ≠ .reg .ctrl ∧
            t = s.signalErrWbusy.answer (.write .okay)) ∨
          (s.busy = false ∧ ∃ r, target s.params a sz = .reg r ∧ r ≠ .ctrl ∧
            t = (s.writeReg r d).answer (.write .okay)) ∨
            (s.busy = false ∧ ∃ which off, target s.params a sz = .mem which off ∧
              t = (s.memWrite which off sz.bytes d).answer (.write .okay)) := by
  unfold writeTxn at h
  split at h
  · rename_i ht
    exact .inl ⟨ht, by simpa using h.symm⟩
  · rename_i ht
    obtain ⟨u, hu, rfl⟩ := mapNext_eq_next h
    exact .inr (.inl ⟨ht, u, hu, rfl⟩)
  · rename_i r hr ht
    cases hb : s.busy
    · simp only [hb, Bool.false_eq_true, if_false] at h
      exact .inr (.inr (.inr (.inl ⟨rfl, r, ht, fun hc => hr hc, by simpa using h.symm⟩)))
    · simp only [hb, if_true] at h
      exact .inr (.inr (.inl ⟨rfl, by rw [ht]; simp, fun hc => hr (Target.reg.inj (ht.symm.trans hc)), by simpa using h.symm⟩))
  · rename_i which off ht
    cases hb : s.busy
    · simp only [hb, Bool.false_eq_true, if_false] at h
      exact .inr (.inr (.inr (.inr ⟨rfl, which, off, ht, by simpa using h.symm⟩)))
    · simp only [hb, if_true] at h
      exact .inr (.inr (.inl ⟨rfl, by rw [ht]; simp, by rw [ht]; simp, by simpa using h.symm⟩))

/-- A memory target lies inside its memory (R70, R223). -/
theorem target_mem {p : Config.Params} {a : Offset} {sz : Size} {which : MemId} {off : Nat}
    (h : target p a sz = .mem which off) : off + sz.bytes ≤ memSize p which := by
  unfold target targetOf at h
  split at h
  · cases h
  · split at h
    · split at h <;> cases h
    · split at h
      · cases h
      · split at h
        · unfold windowTarget at h
          split at h
          · cases h; assumption
          · cases h
        · split at h
          · unfold windowTarget at h
            split at h
            · cases h; assumption
            · cases h
          · cases h

/-- Everything the block and its host side can do in one step: the completion step of the pending command, or one host
operation (R85). -/
theorem step_cases {s t : State} (h : step s = .next t) :
    (∃ c u, s.completes c = true ∧ commandEffect c s = .ok u ∧ t = u.finish.endTurn) ∨
      (s.sequencerMoves = false ∧ s.script = [] ∧ t = s.endTurn) ∨
        (s.sequencerMoves = false ∧ (∃ rest, s.script = .wait :: rest) ∧ t = (pollStatus s).endTurn) ∨
          (s.sequencerMoves = false ∧ (∃ rest, s.script = .hardReset :: rest) ∧ t = s.hardReset.popScript.endTurn) ∨
            (s.sequencerMoves = false ∧ ∃ tx rest u, s.script = .txn tx :: rest ∧ runTxn tx s = .next u ∧
              t = u.popScript.endTurn) := by
  obtain ⟨v, hv, rfl⟩ := mapNext_eq_next h
  have host : s.sequencerMoves = false → hostStep s = .next v →
      (s.sequencerMoves = false ∧ s.script = [] ∧ v.endTurn = s.endTurn) ∨
        (s.sequencerMoves = false ∧ (∃ rest, s.script = .wait :: rest) ∧ v.endTurn = (pollStatus s).endTurn) ∨
          (s.sequencerMoves = false ∧ (∃ rest, s.script = .hardReset :: rest) ∧
            v.endTurn = s.hardReset.popScript.endTurn) ∨
            (s.sequencerMoves = false ∧ ∃ tx rest u, s.script = .txn tx :: rest ∧ runTxn tx s = .next u ∧
              v.endTurn = u.popScript.endTurn) := by
    intro hm hs
    unfold hostStep at hs
    split at hs
    · rename_i hsc
      exact .inl ⟨hm, hsc, by rw [← (Host.Outcome.next.inj hs)]⟩
    · rename_i tx rest hsc
      obtain ⟨u, hu, rfl⟩ := mapNext_eq_next hs
      exact .inr (.inr (.inr ⟨hm, tx, rest, u, hsc, hu, rfl⟩))
    · rename_i rest hsc
      exact .inr (.inl ⟨hm, ⟨rest, hsc⟩, by rw [← (Host.Outcome.next.inj hs)]⟩)
    · rename_i rest hsc
      exact .inr (.inr (.inl ⟨hm, ⟨rest, hsc⟩, by rw [← (Host.Outcome.next.inj hs)]⟩))
  unfold agentStep at hv
  split at hv
  · rename_i c hp
    cases hm : s.sequencerMoves with
    | true =>
      simp only [hm, if_true] at hv
      have hc : s.completes c = true := State.completes_iff.mpr ⟨hp, hm⟩
      rw [exec_command] at hv
      rcases runCommand_cases hv with ⟨-, u, hu, rfl⟩ | ⟨hb, -⟩ | ⟨-, hc', -⟩
      · exact .inl ⟨c, u, hc, hu, rfl⟩
      · rw [State.completes_busy hc] at hb; cases hb
      · rw [hc] at hc'; cases hc'
    | false =>
      simp only [hm, Bool.false_eq_true, if_false] at hv
      exact .inr (hm ▸ host hm hv)
  · rename_i hp
    have hm : s.sequencerMoves = false := by simp [State.sequencerMoves, State.busy, hp]
    exact .inr (host hm hv)

/-- Every way a step can fault (R226, R128): the completion step of a command, or a host read of a memory window. -/
theorem step_fault_cases {s : State} {f : Fault} (h : step s = .fault f) :
    (∃ c, s.completes c = true ∧ commandEffect c s = .error f) ∨
      (s.busy = false ∧ ∃ a sz rest which off, s.script = .txn (.read a sz) :: rest ∧
        target s.params a sz = .mem which off ∧ s.memRead which off sz.bytes = .error f) := by
  have hv : agentStep s = .fault f := mapNext_eq_fault.mp h
  have host : s.sequencerMoves = false → hostStep s = .fault f →
      (s.busy = false ∧ ∃ a sz rest which off, s.script = .txn (.read a sz) :: rest ∧
        target s.params a sz = .mem which off ∧ s.memRead which off sz.bytes = .error f) := by
    intro hm hs
    unfold hostStep at hs
    split at hs
    · cases hs
    · rename_i tx rest hsc
      have hr := mapNext_eq_fault.mp hs
      cases tx with
      | read a sz =>
        simp only [runTxn, readTxn] at hr
        split at hr
        · cases hr
        · cases hr
        · rename_i which off ht
          cases hb : s.busy with
          | true => simp [hb] at hr
          | false =>
            simp only [hb, Bool.false_eq_true, if_false] at hr
            refine ⟨rfl, a, sz, rest, which, off, hsc, ht, ?_⟩
            cases hmr : s.memRead which off sz.bytes with
            | ok v => simp [hmr] at hr
            | error g => simp only [hmr] at hr; rw [Host.Outcome.fault.inj hr]
      | write a sz d =>
        simp only [runTxn, writeTxn] at hr
        split at hr
        · cases hr
        · have he := mapNext_eq_fault.mp hr
          obtain ⟨c, -, hc, -⟩ := exec_eq_fault he
          rw [State.completes_of_host hm] at hc
          cases hc
        · cases hr
        · cases hr
    · cases hs
    · cases hs
  unfold agentStep at hv
  split at hv
  · rename_i c hp
    cases hm : s.sequencerMoves with
    | true =>
      simp only [hm, if_true] at hv
      rw [exec_command] at hv
      exact .inl ⟨c, runCommand_eq_fault.mp hv⟩
    | false =>
      simp only [hm, Bool.false_eq_true, if_false] at hv
      exact .inr (host hm hv)
  · rename_i hp
    have hm : s.sequencerMoves = false := by simp [State.sequencerMoves, State.busy, hp]
    exact .inr (host hm hv)

end Sys2Proof.Machine
end

