-- ==== Sys2Proof/Laws/HostPort.lean ====
section
/-! SUPPORT. What a host transaction reaches, said once, and the host's step as an equation: proofs about the port cite these and
do not unfold the address map. -/

namespace Sys2Proof.Machine

theorem Size.bytes_cases (sz : Size) : sz.bytes = 1 ∨ sz.bytes = 2 ∨ sz.bytes = 4 := by
  cases sz <;> simp [Size.bytes]

/-- The bus errors of R75, case by case. -/
theorem target_busError_iff (p : Config.Params) (a : Offset) (sz : Size) :
    target p a sz = .busError ↔
      (sz.bytes = 2 ∧ a.toNat % 2 ≠ 0) ∨ (sz.bytes = 4 ∧ a.toNat % 4 ≠ 0) ∨ (a.toNat ≤ 0x000FF ∧ sz.bytes ≠ 4) ∨
        (0x00100 ≤ a.toNat ∧ a.toNat ≤ 0x0FFFF) ∨
          (0x10000 ≤ a.toNat ∧ a.toNat ≤ 0x1FFFF ∧ 4 * p.pixCap < (a.toNat - 0x10000) + sz.bytes) ∨
            (0x20000 ≤ a.toNat ∧ a.toNat ≤ 0x23FFF ∧ p.pixCap < (a.toNat - 0x20000) + sz.bytes) ∨
              0x24000 ≤ a.toNat := by
  have hp : memSize p .pixbuf = 4 * p.pixCap := rfl
  have hm : memSize p .maskbuf = p.pixCap := rfl
  have h := sz.bytes_cases
  unfold target targetOf windowTarget
  generalize memSize p .pixbuf = mp at *
  generalize memSize p .maskbuf = mm at *
  generalize sz.bytes = n at *
  generalize a.toNat = a at *
  rcases h with rfl | rfl | rfl
  all_goals
    (repeat' split)
    all_goals
      first
      | exact iff_of_true rfl (by omega)
      | exact iff_of_false (by simp) (by omega)

/-- A word access at an aligned offset of the register window (R70). -/
theorem target_reg (p : Config.Params) (a : Offset) (h : a.toNat ≤ 0x000FF) (h4 : a.toNat % 4 = 0) :
    target p a .four = .reg (regAt a.toNat) := by
  simp [target, targetOf, Size.bytes, h, h4]

/-- What reaches a register is a word access at an aligned offset of the register window (R70, R74). -/
theorem target_eq_reg {p : Config.Params} {a : Offset} {sz : Size} {r : Reg} (h : target p a sz = .reg r) :
    sz = .four ∧ a.toNat ≤ 0x000FF ∧ a.toNat % 4 = 0 ∧ r = regAt a.toNat := by
  unfold target targetOf windowTarget at h
  split_ifs at h with h1 h2 h3
  have hs : sz = .four := by cases sz <;> simp [Size.bytes] at h3 ⊢
  subst hs
  exact ⟨rfl, h2, by simpa [Size.bytes] using h1, (Target.reg.inj h).symm⟩

/-- CTRL stands at offset 0x008 alone (R20). -/
theorem regAt_ctrl {n : Nat} (h : n % 4 = 0) : regAt n = .ctrl ↔ n = 8 := by
  constructor
  · intro hr
    unfold regAt at hr
    split at hr <;> first | omega | cases hr
  · rintro rfl
    rfl

/-- What reaches a byte of a memory window (R70). -/
theorem target_mem_iff (p : Config.Params) (a : Offset) (sz : Size) (which : MemId) (off : Nat) :
    target p a sz = .mem which off ↔
      target p a sz ≠ .busError ∧
        ((which = .pixbuf ∧ a.toNat = 0x10000 + off ∧ off ≤ 0xFFFF) ∨
          (which = .maskbuf ∧ a.toNat = 0x20000 + off ∧ off ≤ 0x3FFF)) := by
  constructor
  · intro h
    refine ⟨by rw [h]; simp, ?_⟩
    revert h
    unfold target targetOf windowTarget
    (repeat' split)
    all_goals intro h
    all_goals first | (cases h; done) | skip
    all_goals
      cases h
      simp
      omega
  · rintro ⟨hb, h⟩
    revert hb
    unfold target targetOf windowTarget
    generalize a.toNat = a at *
    rcases h with ⟨rfl, rfl, h⟩ | ⟨rfl, rfl, h⟩
    all_goals
      (repeat' split)
      all_goals intro hb
      all_goals
        first
        | exact absurd rfl hb
        | (simp only [Target.mem.injEq, true_and, reduceCtorEq, false_and]; omega)

/-- The host's step where its next operation is a transaction (R71, R85). -/
theorem step_txn {s : State} {tx : Txn} {rest : List HostOp} (h : s.sequencerMoves = false)
    (hs : s.script = .txn tx :: rest) :
    step s = mapNext State.endTurn (mapNext State.popScript (runTxn tx s)) := by
  unfold step agentStep hostStep
  cases hp : s.pend <;> simp [hs, h]

/-- The host's step where it asserts reset (R250). -/
theorem step_hardReset {s : State} {rest : List HostOp} (h : s.sequencerMoves = false)
    (hs : s.script = .hardReset :: rest) : step s = .next s.hardReset.popScript.endTurn := by
  unfold step agentStep hostStep
  cases hp : s.pend <;> simp [hs, h]

/-- The host's step in a polling loop (R108). -/
theorem step_wait {s : State} {rest : List HostOp} (h : s.sequencerMoves = false) (hs : s.script = .wait :: rest) :
    step s = .next (pollStatus s).endTurn := by
  unfold step agentStep hostStep
  cases hp : s.pend <;> simp [hs, h]

/-- In the host's step an instruction always answers a next state (R102). -/
theorem exec_host_next {s : State} (h : s.sequencerMoves = false) (i : Instr) : ∃ t, exec i s = .next t := by
  cases hx : exec i s with
  | next t => exact ⟨t, rfl⟩
  | fault f =>
    obtain ⟨c, -, hc, -⟩ := exec_eq_fault hx
    rw [State.completes_of_host h] at hc
    cases hc
  | refused r => exact absurd hx (exec_ne_refused i s r)

/-- A run whose first step answers goes on from its state. -/
theorem run_next (M : Host.Core) (k : Nat) {s t : M.State} (h : M.step s = .next t) : M.run (k + 1) s = M.run k t := by
  simp [Host.Core.run, h]

/-- A run of one step is the step. -/
theorem run_one (M : Host.Core) (s : M.State) : M.run 1 s = M.step s := by
  unfold Host.Core.run
  cases M.step s <;> rfl

/-- `run_next` for this machine. -/
theorem core_run_next {s t : State} (k : Nat) (h : step s = .next t) :
    Sys2Proof.core.run (k + 1) s = Sys2Proof.core.run k t := run_next Sys2Proof.core k h

/-- `run_one` for this machine. -/
theorem core_run_one (s : State) : Sys2Proof.core.run 1 s = step s := run_one Sys2Proof.core s

end Sys2Proof.Machine
end

