-- ==== Sys2Proof/Laws/PerInstr.lean ====
section
/-! SUPPORT. A fact about each instruction as syntax. -/

namespace Sys2Proof.Laws.Padding

/-- The encoder writes 0 in every bit that does not select the instruction (R100: software writes 0 in IGN). -/
def Statement (i : Instr) : Prop := WellFormed i → encode i &&& ~~~ careBits i = 0

theorem nop : Statement .nop := fun _ => by decide
theorem convert : Statement .convert := fun _ => by decide
theorem scorePix : Statement .scorePix := fun _ => by decide
theorem scoreHsv : Statement .scoreHsv := fun _ => by decide
theorem mask : Statement .mask := fun _ => by decide
theorem locate : Statement .locate := fun _ => by decide
theorem frame : Statement .frame := fun _ => by decide
theorem reserved7 : Statement .reserved7 := fun _ => by decide
theorem reserved8F (cmd : BitVec 4) : Statement (.reserved8F cmd) := by
  intro _
  revert cmd
  decide
theorem srst : Statement .srst := fun _ => by decide

end Sys2Proof.Laws.Padding
end

