-- ==== Sys2Proof/Laws/Script.lean ====
section
/-! SUPPORT. The encoding of host scripts (R107 to R109) and the launch premise (R255): the small lemmas of their
definitions, and what one step does to the script and to the answers. -/

namespace Sys2Proof.Machine

@[simp] theorem Size.ofBytes_bytes (sz : Size) : Size.ofBytes sz.bytes = some sz := by cases sz <;> rfl

/-- A tuple decodes back to its transaction (R109). -/
@[simp] theorem Txn.ofTuple_tuple (t : Txn) : Txn.ofTuple t.tuple = some t := by
  cases t <;> simp [Txn.tuple, Txn.ofTuple]

/-- A transaction's tuple is the only one that decodes to it (R109). -/
theorem Txn.tuple_of_ofTuple {x : TxnOp × Nat × Offset × Word} {t : Txn} (h : Txn.ofTuple x = some t) : t.tuple = x := by
  have hs : ∀ {n : Nat} {sz : Size}, Size.ofBytes n = some sz → sz.bytes = n := by
    intro n sz hn
    unfold Size.ofBytes at hn
    split at hn <;> cases hn <;> rfl
  obtain ⟨op, n, a, d⟩ := x
  cases op
  all_goals
    simp only [Txn.ofTuple] at h
    split at h
  · rename_i sz hn
    split at h
    · rename_i hd
      cases h
      simp [Txn.tuple, hs hn, hd]
    · cases h
  · cases h
  · rename_i sz hn
    cases h
    simp [Txn.tuple, hs hn]
  · cases h

@[simp] theorem Txn.tuple_op (t : Txn) : t.tuple.1 = t.op := by cases t <;> rfl

@[simp] theorem pollTxn_tuple : pollTxn.tuple = (.r, 4, 0x0000C, 0) := rfl

/-! The expansion, line by line. -/

@[simp] theorem expandScript_nil (busy : List Nat) : expandScript [] busy = [] := rfl

@[simp] theorem expandScript_txn (t : Txn) (rest : List HostOp) (busy : List Nat) :
    expandScript (.txn t :: rest) busy = t :: expandScript rest busy := rfl

@[simp] theorem expandScript_hardReset (rest : List HostOp) (busy : List Nat) :
    expandScript (.hardReset :: rest) busy = expandScript rest busy := rfl

/-- A `wait` that ends at once. -/
theorem expandScript_wait_zero (rest : List HostOp) (busy : List Nat) :
    expandScript (.wait :: rest) (0 :: busy) = pollTxn :: expandScript rest busy := rfl

/-- A `wait` with one more poll that reads BUSY = 1. -/
theorem expandScript_wait_succ (rest : List HostOp) (busy : List Nat) :
    expandScript (.wait :: rest) ((busy.headD 0 + 1) :: busy.tail) = pollTxn :: expandScript (.wait :: rest) busy := rfl

/-- A script's encoding decodes to its expansion (R109). -/
theorem ofTuple_encodeScript (script : List HostOp) (busy : List Nat) :
    (encodeScript script busy).map Txn.ofTuple = (expandScript script busy).map some := by
  simp [encodeScript]

/-! The answers. -/

/-- A Read transaction that answers gives one answer, to a read. -/
theorem readTxn_replies {a : Offset} {sz : Size} {s t : State} (h : readTxn a sz s = .next t) :
    t.script = s.script ∧ ∃ r : Reply, t.replies = r :: s.replies ∧ r.op = .r := by
  obtain ⟨d, r, rfl⟩ := readTxn_next h
  exact ⟨rfl, _, rfl, rfl⟩

/-- No instruction gives an answer or touches the script (R124). -/
theorem exec_host_side {i : Instr} {s t : State} (hm : s.sequencerMoves = false) (h : exec i s = .next t) :
    t.script = s.script ∧ t.replies = s.replies := by
  rcases exec_cases h with ⟨c, u, -, hc, -⟩ | ⟨c, -, -, rfl⟩ | ⟨-, -, rfl⟩ | ⟨-, -, rfl⟩ | ⟨-, rfl⟩
  · rw [State.completes_of_host hm] at hc
    cases hc
  all_goals exact ⟨rfl, rfl⟩

/-- A Write transaction that answers gives one answer, to a write. -/
theorem writeTxn_replies {a : Offset} {sz : Size} {d : Word} {s t : State} (hm : s.sequencerMoves = false)
    (h : writeTxn a sz d s = .next t) : t.script = s.script ∧ ∃ r : Reply, t.replies = r :: s.replies ∧ r.op = .w := by
  rcases writeTxn_next h with ⟨-, rfl⟩ | ⟨-, u, hu, rfl⟩ | ⟨-, -, -, rfl⟩ | ⟨-, r, -, -, rfl⟩ | ⟨-, which, off, -, rfl⟩
  · exact ⟨rfl, _, rfl, rfl⟩
  · obtain ⟨h1, h2⟩ := exec_host_side hm hu
    exact ⟨h1, _, by rw [← h2]; rfl, rfl⟩
  · exact ⟨rfl, _, rfl, rfl⟩
  · exact ⟨rfl, _, rfl, rfl⟩
  · exact ⟨by simp [State.answer], .write .okay, by simp [State.answer], rfl⟩

/-- A transaction that answers gives one answer, of its op (R71). -/
theorem runTxn_replies {tx : Txn} {s t : State} (hm : s.sequencerMoves = false) (h : runTxn tx s = .next t) :
    t.script = s.script ∧ ∃ r : Reply, t.replies = r :: s.replies ∧ r.op = tx.op := by
  cases tx with
  | read a sz => exact readTxn_replies h
  | write a sz d => exact writeTxn_replies hm h

/-! The launch premise. -/

/-- A launch meets the launch premise where the start state's STATUS is 0 (R255). -/
theorem StartState.launch_clean {start : StartState} (script : List HostOp) (turns : List Agent)
    (h : (start.launch [] []).statusWord = 0) : (start.launch script turns).Clean start :=
  ⟨rfl, h, ⟨rfl, rfl⟩, fun _ => rfl, fun _ => rfl⟩

end Sys2Proof.Machine
end

