-- ==== Sys2Proof/Tests/Slice0.lean ====
section
/-! SUPPORT. The model's own tests: single steps whose expected results are the vectors of 95_test_vectors.md, and for every
statement with hypotheses a named witness that meets them. -/

open Sys2Proof Sys2Proof.Machine Sys2Proof.Claims

namespace Sys2Proof.Tests

/-! Helpers. -/

/-- Reset, with the registers changed by `f`. -/
def withRegs (f : Regs → Regs) : State := { State.reset with regs := f Regs.reset }

/-- `s` with `c` pending and the sequencer to move: the step that comes is the completion step. -/
def pending (c : Command) (s : State) : State := { s with pend := some c, turns := [] }

/-- `s` with `op` as the host's next operation and the turn the host's. -/
def hostNext (op : HostOp) (s : State) : State := { s with script := [op], turns := [.host] }

/-- `s` with a NOP running. -/
def running (s : State) : State := { s with pend := some .nop }

/-- A memory that holds `bs` from offset 0 on. -/
def memOf (bs : List Byte) : Memory := bs.zipIdx.map fun p => (p.2, p.1)

/-- A PIXBUF that holds the pixel words `ws`. -/
def pixels (ws : List Word) : Memory := memOf (ws.flatMap bytesOfWord)

/-- What a register reads after an outcome. -/
def regAfter (r : Reg) : Host.Outcome State Fault Refusal → Option Word
  | .next t => some (readReg t r)
  | .fault _ => none
  | .refused _ => none

/-- The MASKBUF after an outcome. -/
def maskAfter : Host.Outcome State Fault Refusal → Option Memory
  | .next t => some t.maskbuf
  | .fault _ => none
  | .refused _ => none

/-- The last answer after an outcome. -/
def replyAfter : Host.Outcome State Fault Refusal → Option Reply
  | .next t => t.replies.head?
  | .fault _ => none
  | .refused _ => none

/-- The irq level after an outcome. -/
def irqAfter : Host.Outcome State Fault Refusal → Option Bool
  | .next t => some t.irq
  | .fault _ => none
  | .refused _ => none

/-- The fault of an outcome. -/
def faultOf : Host.Outcome State Fault Refusal → Option Fault
  | .next _ => none
  | .fault f => some f
  | .refused _ => none

/-- The pixel of PIX_IN, converted. -/
def convertState (w : Word) : State := pending .convert (withRegs fun r => { r with pixIn := w })

/-- The pixel of PIX_IN, scored at a tolerance. -/
def scorePixState (w : Word) (tol : Half) : State :=
  pending .scorePix (withRegs fun r => { r with pixIn := w, hueTol := tol })

/-- A MASK over the pixel words. -/
def maskState (c : Command) (ws : List Word) (len : Word) (tol : Half) : State :=
  pending c { withRegs (fun r => { r with bufLen := len, hueTol := tol }) with pixbuf := pixels ws }

/-- A LOCATE over a mask. -/
def locateState (m : Memory) (len : Word) (p : Half) (sel : RowSel) : State :=
  pending .locate { withRegs (fun r => { r with maskLen := len, probeCol := p, rowSel := sel }) with maskbuf := m }

/-- The bytes of the mask Q, with the byte at `k` replaced by `v`. -/
def qMask (k : Nat) (v : Byte) : Memory :=
  memOf ((List.range 64).map fun o =>
    if o = k then v
    else if o = 4 ∨ o = 12 ∨ o = 20 then 9
    else if o = 25 then 7
    else if o = 30 then 5
    else 0)

/-- The mask Q. -/
def maskQ : Memory := qMask 64 0

/-- The capture of program P4, row by row. -/
def captureP4 : List Word :=
  [0xFF000000, 0xFF000000, 0xFFFFFF00, 0xFF000000,
    0xFFFFFF00, 0xFF000000, 0xFF000000, 0xFFC8C800,
    0xFF000000, 0xFF000000, 0xFF000000, 0xFF000000,
    0xFF000000, 0xFF000000, 0xFF000000, 0xFF000000]

/-- FRAME of program P4, about to complete. -/
def frameP4 : State :=
  pending .frame
    { withRegs (fun r => { r with bufLen := 64, probeCol := 2 }) with pixbuf := pixels captureP4 }

/-! Well-formedness and decoding. -/

/-- The one check of WellFormed refuses codes below 0x8. -/
theorem test_wellFormed_refuses_low_code : ¬ WellFormed (.reserved8F 0x3) := by decide

theorem test_wellFormed_accepts_high_code : WellFormed (.reserved8F 0x8) := by decide

/-! R100, R101: SRST (bit 31), IGN (bits 30 to 4), CMD (bits 3 to 0), written out, for every constructor. -/

theorem test_decode_nop : decode (0b0#1 ++ 0b000000000000000000000000000#27 ++ 0b0000#4) = .nop := by decide

theorem test_decode_nop_ignored_bits : decode (0b0#1 ++ 0b111111111111111111111111111#27 ++ 0b0000#4) = .nop := by decide

theorem test_decode_convert : decode (0b0#1 ++ 0b000000000000000000000000000#27 ++ 0b0001#4) = .convert := by decide

theorem test_decode_scorePix : decode (0b0#1 ++ 0b000000000000000000000000000#27 ++ 0b0010#4) = .scorePix := by decide

theorem test_decode_scoreHsv : decode (0b0#1 ++ 0b000000000000000000000000000#27 ++ 0b0011#4) = .scoreHsv := by decide

theorem test_decode_mask : decode (0b0#1 ++ 0b100000000000000000000000000#27 ++ 0b0100#4) = .mask := by decide

theorem test_decode_locate : decode (0b0#1 ++ 0b000000000000000000000000001#27 ++ 0b0101#4) = .locate := by decide

theorem test_decode_frame : decode (0b0#1 ++ 0b000000000000000000000000000#27 ++ 0b0110#4) = .frame := by decide

theorem test_decode_reserved7 : decode (0b0#1 ++ 0b000000000000000000000000000#27 ++ 0b0111#4) = .reserved7 := by decide

theorem test_decode_reserved8 : decode (0b0#1 ++ 0b000000000000000000000000000#27 ++ 0b1000#4) = .reserved8F 0x8 := by
  decide

theorem test_decode_reservedF : decode (0b0#1 ++ 0b010000000000000000000000000#27 ++ 0b1111#4) = .reserved8F 0xF := by
  decide

theorem test_decode_srst : decode (0b1#1 ++ 0b000000000000000000000000000#27 ++ 0b0000#4) = .srst := by decide

theorem test_decode_srst_over_cmd : decode (0b1#1 ++ 0b000000000000000000000000000#27 ++ 0b0100#4) = .srst := by decide

/-- The bytes of `LOCATE`, least significant first (R73, R108), with one byte after them. -/
theorem test_decode_bytes : decodeBytes [0x05, 0x00, 0x00, 0x00, 0xAA] = .ok (.locate, [0xAA]) := by rfl

theorem test_decodeTableWord : decodeTableWord 32 0x80000006 = some .srst := by decide

theorem test_withFetchWord : regAfter .status (step (State.reset.withFetchWord 32 0x9)) = some 0x00000100 := by decide

/-! Instructions, one step each. -/

/-- K1, the start of NOP. -/
theorem test_nop_start : regAfter .status (step (State.reset.withFetchWord 32 0x7FFFFFF0)) = some 0x00000001 := by decide

/-- K1, its completion. -/
theorem test_nop : regAfter .status (step (pending .nop State.reset)) = some 0x00000002 := by decide

/-- C7: the wrapped red sector. -/
theorem test_convert_wraps :
    regAfter .convOut (step (convertState 0x00FF0080)) = some 0x01FF00FF ∧
      regAfter .convHn (step (convertState 0x00FF0080)) = some 0x0000057A := by decide

/-- C18: alpha is ignored. -/
theorem test_convert_alpha :
    regAfter .convOut (step (convertState 0xABE1E100)) = some 0x01E100E1 ∧
      regAfter .convHn (step (convertState 0xABE1E100)) = some 0x000000E1 := by decide

/-- X16: a hue within tolerance, at an exact square. -/
theorem test_scorePix_tolerance : regAfter .scoreOut (step (scorePixState 0x00FEFF00 128)) = some 0x000000FD := by decide

/-- X15: the tolerance passes, the distance is above 30. -/
theorem test_scorePix_neg : regAfter .scoreOut (step (scorePixState 0x00FFFFFF 7680)) = some 0x00000200 := by decide

/-- S2: the cyclic hue gap is 20 degrees. -/
theorem test_scoreHsv_cyclic :
    regAfter .scoreOut
        (step (pending .scoreHsv (withRegs fun r =>
          { r with tgtH := 1280, tgtS := 32768, tgtV := 32768, smpH := 44800, smpS := 32768, smpV := 32768, hueTol := 23040 }))) =
      some 0x00000055 := by decide

/-- S11: hues are not reduced modulo 360. -/
theorem test_scoreHsv_negative_difference :
    regAfter .scoreOut
        (step (pending .scoreHsv (withRegs fun r => { r with tgtH := 65535, tgtS := 0, tgtV := 0 }))) =
      some 0x00000200 := by decide

/-- M9: blue, orange, yellow, white at tolerance 180 degrees. -/
theorem test_mask_bytes :
    maskAfter (step (maskState .mask [0xFF0000FF, 0xFFFF8000, 0xFFFFFF00, 0xFFFFFFFF] 16 23040)) =
      some [(0, 0), (1, 1), (2, 255), (3, 0)] := by decide +kernel

/-- M8: an unwritten alpha byte. -/
theorem test_mask_alpha_unwritten :
    faultOf (step { maskState .mask [] 4 0 with pixbuf := memOf [0x00, 0xFF, 0xFF] }) = some (.uninitRead .pixbuf 3) := by
  decide

/-- L9. -/
theorem test_locate_point :
    regAfter .status (step (locateState maskQ 64 4 .nearest)) = some 0x00000006 ∧
      regAfter .resXY (step (locateState maskQ 64 4 .nearest)) = some 0x00030003 ∧
        regAfter .resEdges (step (locateState maskQ 64 4 .nearest)) = some 0x00060001 := by decide +kernel

/-- L10: the same mask under TOPMOST. -/
theorem test_locate_topmost :
    regAfter .status (step (locateState maskQ 64 4 .topmost)) = some 0x00000032 ∧
      regAfter .resEdges (step (locateState maskQ 64 4 .topmost)) = some 0x00000004 := by decide +kernel

/-- F1, program P4. -/
theorem test_frame_point :
    regAfter .status (step frameP4) = some 0x00000006 ∧ regAfter .resXY (step frameP4) = some 0x00010001 ∧
      regAfter .resEdges (step frameP4) = some 0x00030000 := by decide +kernel

/-- F3: the length check. -/
theorem test_frame_length : regAfter .status (step (maskState .frame [] 65540 0)) = some 0x00000402 := by decide

/-- R127: the code 0x7 while idle. -/
theorem test_reserved7_idle : regAfter .status (step (State.reset.withFetchWord 32 0x7)) = some 0x00000100 := by decide

/-- R79: the code 0x7 while BUSY. -/
theorem test_reserved7_busy : regAfter .status (step ((running State.reset).withFetchWord 32 0x7)) = some 0x00000201 := by
  decide

/-- E2: a reserved code raises irq where ERR_IE is set. -/
theorem test_reservedF_irq :
    irqAfter (step ((withRegs fun r => { r with intEn := ⟨false, true⟩ }).withFetchWord 32 0xF)) = some true := by decide

/-- K5: a reserved code while BUSY. -/
theorem test_reserved9_busy : regAfter .status (step ((running State.reset).withFetchWord 32 0x9)) = some 0x00000201 := by
  decide

/-- K2. -/
theorem test_srst_target :
    regAfter .tgtH (step ((withRegs fun r => { r with tgtH := 0 }).withFetchWord 32 0x80000000)) = some 0x00001E00 := by
  decide

/-- K7: the abort of a MASK; byte 4 lies above its write set. -/
theorem test_srst_aborts_mask :
    maskAfter
        (step ({ maskState .mask [] 16 0 with maskbuf := memOf [1, 2, 3, 4, 5] }.withFetchWord 32 0x80000000)) =
      some [(4, 5)] := by decide

/-! The host port. -/

/-- B1. -/
theorem test_read_little_endian :
    replyAfter (step (hostNext (rd16 0x10002) { State.reset with pixbuf := pixels [0x11223344] })) =
      some (.read 0x1122 .okay) := by decide

/-- B2, its last write. -/
theorem test_write_little_endian :
    replyAfter (step (hostNext (rd32 0x10004) (State.memWrite { State.reset with pixbuf := [(4, 0xAA), (5, 0xBB)] } .pixbuf 6 2 0xDDCC))) =
      some (.read 0xDDCCBBAA .okay) := by decide

/-- B9. -/
theorem test_read_unwritten : faultOf (step (hostNext (rd8 0x20007) State.reset)) = some (.uninitRead .maskbuf 7) := by
  decide

/-- B3 and B5. -/
theorem test_bus_errors :
    replyAfter (step (hostNext (rd32 0x10002) State.reset)) = some (.read 0 .error) ∧
      replyAfter (step (hostNext (rd32 0x24000) State.reset)) = some (.read 0 .error) := by decide

/-- B10. -/
theorem test_reg_write_upper_bits : regAfter .tgtH (step (hostNext (wr32 0x014 0xFFFF1234) State.reset)) = some 0x00001234 := by
  decide

/-- B11: a memory read while BUSY. -/
theorem test_busy_memory_read :
    replyAfter (step (hostNext (rd32 0x20000) (running State.reset))) = some (.read 0 .okay) := by decide

/-! Witnesses: for each statement with hypotheses, a state and operands that meet them. -/

theorem witness_DecodeMatchesOpcodeTable : WellFormed (.reserved8F 0xF) ∧ WellFormed .srst := by decide

theorem witness_DecodeReadsCommandCodes :
    (0x80000004 : Word).getLsbD 31 = true ∧ (0x7FFFFFF0 : Word).getLsbD 31 = false ∧
      (0x7FFFFFF0 : Word).extractLsb' 0 4 = commandCode .nop ∧ (0x00000006 : Word).extractLsb' 0 4 = commandCode .frame ∧
        (0x00000007 : Word).extractLsb' 0 4 = 0x7 ∧ 0x8 ≤ ((0x00000008 : Word).extractLsb' 0 4).toNat ∧
          0x8 ≤ ((0x0000000F : Word).extractLsb' 0 4).toNat := by decide

theorem witness_CommandWordBytesLittleEndian : ([] : List Byte).length < 4 ∧ [0x05, 0x00, (0x00 : Byte)].length < 4 := by
  decide

theorem witness_StepRunsCommandWord : HostCommands (State.reset.placeWord 0x00000005) 0x00000005 :=
  ⟨by decide, _, rfl⟩

theorem witness_StepRunsCommandWord_busy : HostCommands ((running State.reset).placeWord 0x80000000) 0x80000000 :=
  ⟨by decide, _, rfl⟩

theorem witness_StepRunsPendingCommand : (pending .frame State.reset).completes .frame = true := by decide

theorem witness_StartStepLatchesCommand :
    (0x7FFFFFF6 : Word).getLsbD 31 = false ∧ State.reset.busy = false ∧
      (0x7FFFFFF6 : Word).extractLsb' 0 4 = commandCode .frame := by decide

/-- A start the host writes while idle. -/
theorem witness_StartStepLatchesCommand_write :
    HostCommands (State.reset.placeWord 0x7FFFFFF6) 0x7FFFFFF6 ∧ (State.reset.placeWord 0x7FFFFFF6).busy = false :=
  ⟨⟨by decide, _, rfl⟩, by decide⟩

/-- Reserved codes the host writes, idle and BUSY. -/
theorem witness_ReservedCodesSignalError_write :
    (HostCommands (State.reset.placeWord 0x0000000F) 0x0000000F ∧ (State.reset.placeWord 0x0000000F).busy = false) ∧
      HostCommands ((running State.reset).placeWord 0x00000007) 0x00000007 ∧
        ((running State.reset).placeWord 0x00000007).busy = true :=
  ⟨⟨⟨by decide, _, rfl⟩, by decide⟩, ⟨by decide, _, rfl⟩, by decide⟩

/-- SRST written while a command runs. -/
theorem witness_SoftResetEffect_write : HostCommands ((running State.reset).placeWord 0x80000007) 0x80000007 :=
  ⟨by decide, _, rfl⟩

theorem witness_ReservedCodesSignalError :
    (0x00000007 : Word).getLsbD 31 = false ∧ 0x7 ≤ ((0x00000007 : Word).extractLsb' 0 4).toNat ∧
      State.reset.busy = false ∧ (running State.reset).busy = true := by decide

theorem witness_SoftResetEffect : (0x80000007 : Word).getLsbD 31 = true := by decide

/-- The aborted MASK of SoftResetEffect: byte 3 is forgotten, byte 4 is not. -/
theorem witness_SoftResetEffect_abort :
    (maskState .mask [] 16 0).pend = some .mask ∧
      (maskState .mask [] 16 0).regs.bufLen.toNat / 4 ≤ (maskState .mask [] 16 0).params.pixCap ∧
        3 < (maskState .mask [] 16 0).regs.bufLen.toNat / 4 ∧ ¬ 4 < (maskState .mask [] 16 0).regs.bufLen.toNat / 4 := by
  decide

theorem witness_NopCompletes : (pending .nop State.reset).completes .nop = true := by decide

theorem witness_NopCompletes_turn :
    State.completes { pending .nop State.reset with turns := [.sequencer, .host] } .nop = true := by decide

theorem witness_ConvertCompletes : (convertState 0x00FF0080).completes .convert = true := by decide

/-- The three ties of HueIndependentOfTies: yellow, magenta, cyan. -/
theorem witness_HueIndependentOfTies :
    (⟨255, 255, 0⟩ : Pixel).red = (⟨255, 255, 0⟩ : Pixel).green ∧ (0 : Byte).toNat < (255 : Byte).toNat ∧
      (⟨255, 0, 255⟩ : Pixel).red = (⟨255, 0, 255⟩ : Pixel).blue ∧
        (⟨0, 255, 255⟩ : Pixel).green = (⟨0, 255, 255⟩ : Pixel).blue := by decide

/-- The clauses of ConverterIntegers: every sector, and both signs of red's, by C6, C16, C7, C2 and C3. -/
theorem witness_ConverterIntegers :
    (conv ⟨0, 0, 0⟩).sect = 0 ∧ (conv ⟨255, 128, 0⟩).sect = 1 ∧ (conv ⟨255, 0, 128⟩).sect = 1 ∧
      (conv ⟨0, 255, 0⟩).sect = 2 ∧ (conv ⟨0, 0, 255⟩).sect = 3 ∧ 0 < (conv ⟨1, 0, 0⟩).delta := by decide

theorem witness_OperandCodesAreExact : 0 < 512 ∧ 511 < 512 := by decide

/-- Both clauses of ScoreMatchesRealFormula: at tolerance 0 two hues of 10 and 350 degrees are gated, at tolerance 20 they are
not (S3, S4). -/
theorem witness_ScoreMatchesRealFormula :
    ∃ (t p : Hsv) (raw dh d2 : ℚ),
      raw = |t.hue.toRat - p.hue.toRat| ∧ dh = (if 180 < raw then 360 - raw else raw) ∧
        d2 = dh ^ 2 + (t.sat.toRat - p.sat.toRat) ^ 2 + (t.val.toRat - p.val.toRat) ^ 2 ∧
          (hueValue 0).toRat < dh ∧ dh ≤ (hueValue 2560).toRat := by
  have h1 : (hueValue 1280).toRat = 10 := by
    rw [Frac.toRat, hueValue, show (1280 : Half).toNat = 1280 from rfl]
    norm_num
  have h2 : (hueValue 44800).toRat = 350 := by
    rw [Frac.toRat, hueValue, show (44800 : Half).toNat = 44800 from rfl]
    norm_num
  have h3 : (hueValue 2560).toRat = 20 := by
    rw [Frac.toRat, hueValue, show (2560 : Half).toNat = 2560 from rfl]
    norm_num
  have h4 : (hueValue 0).toRat = 0 := by
    rw [Frac.toRat, hueValue, show (0 : Half).toNat = 0 from rfl]
    norm_num
  refine ⟨⟨hueValue 1280, unitValue 0, unitValue 0⟩, ⟨hueValue 44800, unitValue 0, unitValue 0⟩, 340, 20, 400, ?_, ?_, ?_, ?_, ?_⟩
  · rw [h1, h2]
    norm_num
  · norm_num
  · norm_num
  · rw [h4]
    norm_num
  · rw [h3]

theorem witness_ScoreIdentityAndSymmetry :
    (score ⟨hueValue 1280, unitValue 0, unitValue 0⟩ ⟨hueValue 44800, unitValue 0, unitValue 0⟩ (hueValue 0)).gate = true ∧
      (score ⟨hueValue 0, unitValue 0, unitValue 0⟩ ⟨hueValue 23040, unitValue 0, unitValue 0⟩ (hueValue 23040)).neg = true := by
  decide

theorem witness_ZeroToleranceByteBound : Regs.reset.hueTol = 0 ∧ Regs.reset.tgtH.toNat < 46080 := by decide

/-- The boundary 360 degrees less one code. -/
theorem witness_ZeroToleranceByteBound_boundary :
    ({ Regs.reset with tgtH := 46079 } : Regs).hueTol = 0 ∧ ({ Regs.reset with tgtH := 46079 } : Regs).tgtH.toNat < 46080 := by
  decide

theorem witness_ScorePixCompletes : (scorePixState 0x00FEFF00 128).completes .scorePix = true := by decide

theorem witness_ScoreHsvCompletes : (pending .scoreHsv State.reset).completes .scoreHsv = true := by decide

theorem witness_MaskCompletes :
    (maskState .mask [0xFFFFFF00, 0xFFC8C800] 10 0).completes .mask = true ∧
      2 = (maskState .mask [0xFFFFFF00, 0xFFC8C800] 10 0).regs.bufLen.toNat / 4 ∧
        2 ≤ (maskState .mask [0xFFFFFF00, 0xFFC8C800] 10 0).params.pixCap ∧
          (∀ o < 4 * 2, Written (maskState .mask [0xFFFFFF00, 0xFFC8C800] 10 0).pixbuf o) ∧
            PixelAt (maskState .mask [0xFFFFFF00, 0xFFC8C800] 10 0).pixbuf 1 ⟨0xC8, 0xC8, 0x00⟩ := by decide

/-- No pixel at all (M5). -/
theorem witness_MaskCompletes_empty :
    (maskState .mask [] 3 0).completes .mask = true ∧ 0 = (maskState .mask [] 3 0).regs.bufLen.toNat / 4 ∧
      ∀ o < 4 * 0, Written (maskState .mask [] 3 0).pixbuf o := by decide

/-- One pixel beyond PIX_CAP, for MASK, FRAME and LOCATE (M6, F3, L14). -/
theorem witness_LengthCheckFails :
    ((maskState .mask [] 65540 0).completes .mask = true ∧
        (maskState .mask [] 65540 0).params.pixCap < (maskState .mask [] 65540 0).regs.bufLen.toNat / 4) ∧
      ((maskState .frame [] 65540 0).completes .frame = true ∧
          (maskState .frame [] 65540 0).params.pixCap < (maskState .frame [] 65540 0).regs.bufLen.toNat / 4) ∧
        (locateState [] 16385 0 .nearest).completes .locate = true ∧
          (locateState [] 16385 0 .nearest).params.pixCap < (locateState [] 16385 0 .nearest).regs.maskLen.toNat := by
  decide

/-- M8. -/
theorem witness_MaskFaultsOnUnwrittenPixel :
    State.completes { maskState .mask [] 4 0 with pixbuf := memOf [0x00, 0xFF, 0xFF] } .mask = true ∧
      (maskState .mask [] 4 0).regs.bufLen.toNat / 4 ≤ (maskState .mask [] 4 0).params.pixCap ∧
        3 < 4 * ((maskState .mask [] 4 0).regs.bufLen.toNat / 4) ∧ (memOf [0x00, 0xFF, 0xFF]).read 3 = none ∧
          ∀ o' < 3, Written (memOf [0x00, 0xFF, 0xFF]) o' := by decide

theorem witness_MaskFaultsOnUnwrittenPixel_frame :
    (maskState .frame [] 4 0).completes .frame = true ∧
      (maskState .frame [] 4 0).regs.bufLen.toNat / 4 ≤ (maskState .frame [] 4 0).params.pixCap ∧
        0 < 4 * ((maskState .frame [] 4 0).regs.bufLen.toNat / 4) ∧
          (maskState .frame [] 4 0).pixbuf.read 0 = none := by decide

/-- L15, the probe column equal to the side, with nothing written. -/
theorem witness_LocateProbeOutOfRange : LocateReady (locateState [] 64 8 .nearest) 8 8 ∧ 8 ≤ 8 := by decide

/-- L6: no row above the midpoint, and the probe column below the side. -/
theorem witness_LocateNoProbeRow :
    LocateReady (locateState [] 1 0 .nearest) 1 0 ∧ 0 < 1 ∧
      ∀ y < 1 / 2, ZeroByte (locateState [] 1 0 .nearest).maskbuf (y * 1 + 0) := by decide

/-- A side of 2 whose one probe byte is 0. -/
theorem witness_LocateNoProbeRow_zero :
    LocateReady (locateState (memOf [0, 0]) 4 1 .nearest) 2 1 ∧ 1 < 2 ∧
      ∀ y < 2 / 2, ZeroByte (locateState (memOf [0, 0]) 4 1 .nearest).maskbuf (y * 2 + 1) := by decide

/-- L12, under NEAREST, and L13, the last row above the midpoint. -/
theorem witness_LocateNoLeftEdge :
    (LocateReady (locateState (qMask 25 0) 64 4 .nearest) 8 4 ∧ 4 < 8 ∧
        IsProbeRow (locateState (qMask 25 0) 64 4 .nearest) 8 4 2 ∧
          (∀ x < 8, Written (locateState (qMask 25 0) 64 4 .nearest).maskbuf ((2 + 1) * 8 + x)) ∧
            ∀ x ≤ 8 / 2, ZeroByte (locateState (qMask 25 0) 64 4 .nearest).maskbuf ((2 + 1) * 8 + x)) ∧
      LocateReady (locateState (qMask 28 3) 64 4 .nearest) 8 4 ∧
        IsProbeRow (locateState (qMask 28 3) 64 4 .nearest) 8 4 3 ∧
          (∀ x < 8, Written (locateState (qMask 28 3) 64 4 .nearest).maskbuf ((3 + 1) * 8 + x)) ∧
            ∀ x ≤ 8 / 2, ZeroByte (locateState (qMask 28 3) 64 4 .nearest).maskbuf ((3 + 1) * 8 + x) :=
  ⟨⟨by decide +kernel, by decide, ⟨by decide +kernel, by decide, ⟨9, by decide +kernel⟩, by decide +kernel, by decide +kernel⟩,
      by decide +kernel, by decide +kernel⟩,
    by decide +kernel, ⟨by decide +kernel, by decide, ⟨3, by decide +kernel⟩, by decide +kernel, by decide +kernel⟩,
    by decide +kernel, by decide +kernel⟩

/-- L10, under TOPMOST. -/
theorem witness_LocateNoRightEdge :
    LocateReady (locateState maskQ 64 4 .topmost) 8 4 ∧ 4 < 8 ∧ IsProbeRow (locateState maskQ 64 4 .topmost) 8 4 0 ∧
      (∀ x < 8, Written (locateState maskQ 64 4 .topmost).maskbuf ((0 + 1) * 8 + x)) ∧
        IsLeftEdge (locateState maskQ 64 4 .topmost).maskbuf 8 (0 + 1) 4 ∧
          ∀ x < 8, 8 / 2 < x → ZeroByte (locateState maskQ 64 4 .topmost).maskbuf ((0 + 1) * 8 + x) :=
  ⟨by decide +kernel, by decide, ⟨by decide +kernel, by decide, ⟨9, by decide +kernel⟩, by decide +kernel, by decide +kernel⟩,
    by decide +kernel, ⟨by decide, ⟨9, by decide +kernel⟩, by decide +kernel⟩, by decide +kernel⟩

/-- L7: a left edge at column 0, on a side of 2. -/
theorem witness_LocateNoRightEdge_column_zero :
    LocateReady (locateState (memOf [255, 0, 255, 0]) 4 0 .nearest) 2 0 ∧ 0 < 2 ∧
      IsProbeRow (locateState (memOf [255, 0, 255, 0]) 4 0 .nearest) 2 0 0 ∧
        (∀ x < 2, Written (memOf [255, 0, 255, 0]) ((0 + 1) * 2 + x)) ∧
          IsLeftEdge (memOf [255, 0, 255, 0]) 2 (0 + 1) 0 ∧
            ∀ x < 2, 2 / 2 < x → ZeroByte (memOf [255, 0, 255, 0]) ((0 + 1) * 2 + x) :=
  ⟨by decide, by decide, ⟨by decide, by decide, ⟨255, by decide⟩, by decide, by decide⟩, by decide,
    ⟨by decide, ⟨255, by decide⟩, by decide⟩, by decide⟩

/-- L9, under NEAREST. -/
theorem witness_LocateFindsPoint :
    LocateReady (locateState maskQ 64 4 .nearest) 8 4 ∧ 4 < 8 ∧ IsProbeRow (locateState maskQ 64 4 .nearest) 8 4 2 ∧
      (∀ x < 8, Written (locateState maskQ 64 4 .nearest).maskbuf ((2 + 1) * 8 + x)) ∧
        IsLeftEdge (locateState maskQ 64 4 .nearest).maskbuf 8 (2 + 1) 1 ∧
          IsRightEdge (locateState maskQ 64 4 .nearest).maskbuf 8 (2 + 1) 6 :=
  ⟨by decide +kernel, by decide, ⟨by decide +kernel, by decide, ⟨9, by decide +kernel⟩, by decide +kernel, by decide +kernel⟩,
    by decide +kernel, ⟨by decide, ⟨7, by decide +kernel⟩, by decide +kernel⟩,
    ⟨by decide, by decide, ⟨5, by decide +kernel⟩, by decide +kernel⟩⟩

/-- The smallest side that has a right edge, 3, under TOPMOST: a probe hit in row 0, edges at columns 0 and 2 of row 1. -/
theorem witness_LocateFindsPoint_topmost :
    LocateReady (locateState (memOf [1, 0, 0, 1, 0, 1]) 9 0 .topmost) 3 0 ∧ 0 < 3 ∧
      IsProbeRow (locateState (memOf [1, 0, 0, 1, 0, 1]) 9 0 .topmost) 3 0 0 ∧
        (∀ x < 3, Written (memOf [1, 0, 0, 1, 0, 1]) ((0 + 1) * 3 + x)) ∧
          IsLeftEdge (memOf [1, 0, 0, 1, 0, 1]) 3 (0 + 1) 0 ∧ IsRightEdge (memOf [1, 0, 0, 1, 0, 1]) 3 (0 + 1) 2 :=
  ⟨by decide, by decide, ⟨by decide, by decide, ⟨1, by decide⟩, by decide, by decide⟩, by decide,
    ⟨by decide, ⟨1, by decide⟩, by decide⟩, ⟨by decide, by decide, ⟨1, by decide⟩, by decide⟩⟩

/-- L16, and its second clause: a probe row whose row below is not written. -/
theorem witness_LocateFaultsOnUnwrittenWindow :
    (LocateReady (locateState [] 64 4 .nearest) 8 4 ∧ 4 < 8 ∧
        ∃ y < 8 / 2, (locateState [] 64 4 .nearest).maskbuf.read (y * 8 + 4) = none) ∧
      LocateReady (locateState (memOf [255, 0]) 4 0 .nearest) 2 0 ∧
        ∃ y, IsProbeRow (locateState (memOf [255, 0]) 4 0 .nearest) 2 0 y ∧
          ∃ x < 2, (memOf [255, 0]).read ((y + 1) * 2 + x) = none :=
  ⟨⟨by decide, by decide, 0, by decide, by decide⟩, by decide, 0,
    ⟨by decide, by decide, ⟨255, by decide⟩, by decide, by decide⟩, 1, by decide, by decide⟩

/-- A memory listed by a function reads as the function. -/
theorem read_map_range (f : Nat → Byte) (a n o : Nat) (ha : a ≤ o) (ho : o < a + n) :
    Memory.read ((List.range' a n).map fun k => (k, f k)) o = some (f o) := by
  induction n generalizing a with
  | zero => omega
  | succ n ih =>
    rw [List.range'_succ, List.map_cons, Memory.read]
    split
    · rename_i h
      rw [h]
    · exact ih (a + 1) (by omega) (by omega)

/-- A byte of the bar mask B(10) of L1. -/
def barByte (o : Nat) : Byte :=
  if o % 100 = 50 ∧ o / 100 ≤ 10 ∨ o / 100 = 10 + 1 ∧ (o % 100 = 40 ∨ o % 100 = 60) then 255 else 0

/-- The bar mask B(10), about to be located. -/
def barState : State :=
  locateState ((List.range' 0 10000).map fun k => (k, barByte k)) 10000 50 .nearest

/-- L1. -/
theorem witness_BarMaskGivesNeckPoint :
    barState.completes .locate = true ∧ barState.regs.maskLen = 10000 ∧ barState.regs.probeCol = 50 ∧
      barState.regs.rowSel = .nearest ∧ 10000 ≤ barState.params.pixCap ∧ 10 ≤ 49 ∧
        (∀ o < 10000, Written barState.maskbuf o) ∧
          ∀ y < 100, ∀ x < 100,
            (NonZeroByte barState.maskbuf (y * 100 + x) ↔ (x = 50 ∧ y ≤ 10) ∨ (y = 10 + 1 ∧ (x = 40 ∨ x = 60))) := by
  have hr : ∀ o < 10000, barState.maskbuf.read o = some (barByte o) := fun o ho =>
    read_map_range barByte 0 10000 o (Nat.zero_le o) (by omega)
  refine ⟨by rfl, by rfl, by rfl, by rfl, by decide, by decide, fun o ho => by rw [Written, hr o ho]; rfl, fun y hy x hx => ?_⟩
  have h1 : (y * 100 + x) % 100 = x := by omega
  have h2 : (y * 100 + x) / 100 = y := by omega
  rw [NonZeroByte, hr _ (by omega), barByte, h1, h2]
  split <;> simp_all

/-- Both phases of program P4. -/
theorem witness_FrameIsMaskThenLocate :
    frameP4.completes .frame = true ∧ frameP4.regs.bufLen.toNat / 4 ≤ frameP4.params.pixCap := by decide

theorem witness_FrameCompletes :
    frameP4.completes .frame = true ∧ 16 = frameP4.regs.bufLen.toNat / 4 ∧ 16 ≤ frameP4.params.pixCap ∧ IsSide 4 16 ∧
      (∀ o < 4 * 16, Written frameP4.pixbuf o) ∧ PixelAt frameP4.pixbuf 7 ⟨200, 200, 0⟩ := by decide +kernel

theorem witness_InstructionWriteSets : ∃ t, exec .srst State.reset = .next t := ⟨_, rfl⟩

theorem witness_InstructionWriteSets_convert : ∃ t, exec .convert (convertState 0x00FF0080) = .next t := ⟨_, rfl⟩

/-- Two states that agree on CONVERT's read set and differ in the target. -/
theorem witness_CommandsArePure :
    (convertState 0x00FF0080).completes .convert = true ∧
      State.completes (pending .convert (withRegs fun r => { r with pixIn := 0x00FF0080, tgtH := 0 })) .convert = true ∧
        SameReadSet .convert (convertState 0x00FF0080)
          (pending .convert (withRegs fun r => { r with pixIn := 0x00FF0080, tgtH := 0 })) :=
  ⟨by decide, by decide, rfl⟩

/-- The same for LOCATE: the states differ below the scan window. -/
theorem witness_CommandsArePure_locate :
    (locateState (memOf [0, 0, 0, 0]) 4 1 .nearest).completes .locate = true ∧
      (locateState (memOf [0, 0, 0, 7]) 4 1 .nearest).completes .locate = true ∧
        SameReadSet .locate (locateState (memOf [0, 0, 0, 0]) 4 1 .nearest) (locateState (memOf [0, 0, 0, 7]) 4 1 .nearest) := by
  refine ⟨by decide, by decide, rfl, rfl, rfl, rfl, fun n p hn hp _ => ?_⟩
  subst hp
  have h : n = 2 := by
    have h1 : n * n ≤ 4 := hn.1
    have h2 : 4 < (n + 1) * (n + 1) := hn.2
    have : n ≤ 2 := by nlinarith
    interval_cases n <;> omega
  subst h
  refine ⟨by decide, fun y hy => ?_⟩
  obtain ⟨-, hy2, ⟨b, hb, hb0⟩, -, -⟩ := hy
  interval_cases y
  exact absurd (Option.some.inj hb).symm hb0

theorem witness_RegisterMapReads : 0x060 ≤ 0x060 ∧ 0x060 ≤ 0x0FF ∧ 0x0FF ≤ 0x0FF := by decide

theorem witness_RegisterReadAnswers :
    HostDoes (hostNext (rd32 0x000FC) State.reset) (.txn (.read 0x000FC .four)) ∧ (0x000FC : Offset).toNat ≤ 0x000FF ∧
      (0x000FC : Offset).toNat % 4 = 0 ∧
        HostDoes (hostNext (rd32 0x0000C) (running State.reset)) (.txn (.read 0x0000C .four)) :=
  ⟨⟨by decide, _, rfl⟩, by decide, by decide, ⟨by decide, _, rfl⟩⟩

/-- The host's operation in front is what the host does. -/
theorem hostNext_does (op : HostOp) (s : State) : HostDoes (hostNext op s) op :=
  ⟨by simp [State.sequencerMoves, hostNext], _, rfl⟩

/-- The host writes `d` at `a`, while idle. -/
theorem witness_IdleRegisterWrite (a : Offset) (d : Word) :
    HostDoes (hostNext (.txn (.write a .four d)) State.reset) (.txn (.write a .four d)) ∧
      (hostNext (.txn (.write a .four d)) State.reset).busy = false := ⟨hostNext_does _ _, rfl⟩

/-- A storing register, STATUS, an RO register and a reserved offset. -/
theorem witness_IdleRegisterWrite_offsets :
    ∀ k ∈ [0x00014, 0x0000C, 0x00000, 0x000FC],
      (BitVec.ofNat 18 k).toNat ≤ 0x000FF ∧ (BitVec.ofNat 18 k).toNat % 4 = 0 ∧ (BitVec.ofNat 18 k).toNat ≠ 0x008 := by
  decide

/-- Every clause of BusErrorCase at its bounds on CTB-CORE 1. -/
theorem witness_BusErrorsExactly :
    ∀ q ∈ [(1, 2), (0x10002, 4), (0xFF, 1), (0xFE, 2), (0x100, 4), (0xFFFF, 1), (0x24000, 4), (0x3FFFF, 1)],
      BusErrorCase Config.Params.ctbCore1 q.1 q.2 := by decide

/-- The clauses on the memory windows at their bounds, where PIX_CAP is 2. -/
theorem witness_BusErrorsExactly_small :
    ∀ q ∈ [(0x10008, 1), (0x1FFFF, 1), (0x20002, 1), (0x20000, 4), (0x23FFF, 1)], BusErrorCase ⟨2, 4⟩ q.1 q.2 := by
  decide

/-- The accesses next to those bounds. -/
theorem witness_BusErrorsExactly_none :
    (∀ q ∈ [(0, 4), (0xFC, 4), (0x10000, 1), (0x1FFFF, 1), (0x1FFFC, 4), (0x20000, 2), (0x23FFC, 4)],
        ¬ BusErrorCase Config.Params.ctbCore1 q.1 q.2) ∧
      ∀ q ∈ [(0x10004, 4), (0x20000, 2)], ¬ BusErrorCase ⟨2, 4⟩ q.1 q.2 := by decide

theorem witness_BusErrorsExactly_host :
    HostDoes (hostNext (rd32 0x10002) State.reset) (.txn (.read 0x10002 .four)) ∧
      HostDoes (hostNext (wr16 0x0000C 0) (running State.reset)) (.txn (.write 0x0000C .two 0)) :=
  ⟨hostNext_does _ _, hostNext_does _ _⟩

/-- Every state with the host's operation in front has a next state where the read is of a register (BusErrorsExactly). -/
theorem witness_BusErrorsExactly_okay :
    ¬ BusErrorCase State.reset.params (0x00000 : Offset).toNat Size.four.bytes ∧
      ∃ t, step (hostNext (rd32 0x00000) State.reset) = .next t := ⟨by decide, _, rfl⟩

theorem witness_BusyWritesDropped :
    (HostDoes (hostNext (wr32 0x00034 5) (running State.reset)) (.txn (.write 0x00034 .four 5)) ∧
        (hostNext (wr32 0x00034 5) (running State.reset)).busy = true ∧
          ¬ BusErrorCase State.reset.params (0x00034 : Offset).toNat Size.four.bytes ∧
            ¬ ((0x00034 : Offset) = 0x00008 ∧ (5 : Word).getLsbD 31 = true)) ∧
      HostDoes (hostNext (wr32 0x00008 0x80000000) (running State.reset)) (.txn (.write 0x00008 .four 0x80000000)) ∧
        (0x80000000 : Word).getLsbD 31 = true :=
  ⟨⟨⟨by decide, _, rfl⟩, by decide, by decide, by decide⟩, ⟨by decide, _, rfl⟩, by decide⟩

/-- A register and a memory byte that nothing has written. -/
theorem witness_BusyReadsAnswer :
    HostDoes (hostNext (rd8 0x23FFF) (running State.reset)) (.txn (.read 0x23FFF .one)) ∧
      (hostNext (rd8 0x23FFF) (running State.reset)).busy = true ∧
        ¬ BusErrorCase State.reset.params (0x23FFF : Offset).toNat Size.one.bytes ∧
          ¬ BusErrorCase State.reset.params (0x000FC : Offset).toNat Size.four.bytes :=
  ⟨⟨by decide, _, rfl⟩, by decide, by decide, by decide⟩

/-- A written word, and the last byte of MASKBUF unwritten. -/
theorem witness_IdleMemoryRead :
    (HostDoes (hostNext (rd32 0x10000) { State.reset with pixbuf := pixels [0x11223344] }) (.txn (.read 0x10000 .four)) ∧
        MemAccess State.reset.params 0x10000 Size.four.bytes .pixbuf 0 ∧
          ∀ k < Size.four.bytes, (pixels [0x11223344]).read (0 + k) = some (BitVec.ofNat 8 (0x44 - 0x11 * k))) ∧
      HostDoes (hostNext (rd8 0x23FFF) State.reset) (.txn (.read 0x23FFF .one)) ∧
        MemAccess State.reset.params 0x23FFF Size.one.bytes .maskbuf 0x3FFF ∧
          ∃ k < Size.one.bytes, (State.reset.mem .maskbuf).read (0x3FFF + k) = none :=
  ⟨⟨⟨by decide, _, rfl⟩, ⟨by decide, by decide, by decide⟩, by decide⟩, ⟨by decide, _, rfl⟩,
    ⟨by decide, by decide, by decide⟩, 0, by decide, by decide⟩

theorem witness_IdleMemoryWrite :
    HostDoes (hostNext (wr32 0x1FFFC 0xDDCCBBAA) State.reset) (.txn (.write 0x1FFFC .four 0xDDCCBBAA)) ∧
      (hostNext (wr32 0x1FFFC 0xDDCCBBAA) State.reset).busy = false ∧
        MemAccess State.reset.params 0x1FFFC Size.four.bytes .pixbuf 0xFFFC :=
  ⟨⟨by decide, _, rfl⟩, by decide, by decide, by decide, by decide⟩

theorem witness_HardResetStep : HostDoes (hostNext .hardReset (running State.reset)) .hardReset :=
  ⟨by decide, _, rfl⟩

theorem witness_StepKeepsMemoryCanonical :
    State.reset.MemoryConsistent ∧ ∃ t, step State.reset = .next t := ⟨by decide, _, rfl⟩

/-- The premise with both memories listed and a MASK that completes. -/
theorem witness_StepKeepsMemoryCanonical_mask :
    State.MemoryConsistent { maskState .mask [0xFFFFFF00] 4 0 with maskbuf := memOf [1, 2] } ∧
      ∃ t, step { maskState .mask [0xFFFFFF00] 4 0 with maskbuf := memOf [1, 2] } = .next t := ⟨by decide, _, rfl⟩

/-- The premise in a state that holds a conversion, a score and a found point, a LOCATE completing. -/
theorem witness_StepKeepsResultsConsistent :
    ∃ s t : State,
      (s.LatchConsistent ∧ s.regs.status.Consistent ∧ s.regs.ConvConsistent ∧ s.regs.scoreOut.Consistent ∧
          s.regs.LocateConsistent ∧ s.regs.side.toNat * s.regs.side.toNat ≤ s.params.pixCap) ∧
        s.regs.status.found = true ∧ s.completes .locate = true ∧ step s = .next t := by
  refine ⟨{ locateState (memOf [255, 0, 255, 0]) 4 0 .nearest with
    regs := { Regs.reset with
      maskLen := 4
      probeCol := 0
      status := { Status.reset with found := true }
      convOut := { max := 255, min := 0, delta := 255, sect := 1 }
      convHn := 1402
      scoreOut := { byte := 0, gate := false, neg := true }
      side := 8
      resXY := { x := 3, y := 3 }
      resRow := 2
      resEdges := { left := 1, right := 6 } } }, _, by decide, by decide, by decide, rfl⟩

/-- A fault by a completion step, and one by a host read while idle (M8, B9). -/
theorem witness_StepStopsOnlyOnUnwrittenByte :
    (∃ f, step { maskState .mask [] 4 0 with pixbuf := memOf [0x00, 0xFF, 0xFF] } = .fault f) ∧
      ∃ f, step (hostNext (rd8 0x20007) State.reset) = .fault f := ⟨⟨_, rfl⟩, _, rfl⟩

/-- BUSY raised by a start, and cleared by a completion, SRST and hard reset. -/
theorem witness_BusyOrigins :
    (State.reset.busy = false ∧ ∃ t, step (State.reset.withFetchWord 32 0x6) = .next t ∧ t.busy = true) ∧
      (∃ t, step (pending .nop State.reset) = .next t ∧ t.busy = false) ∧
        (∃ t, step ((running State.reset).withFetchWord 32 0x80000000) = .next t ∧ t.busy = false) ∧
          ∃ t, step (hostNext .hardReset (running State.reset)) = .next t ∧ t.busy = false :=
  ⟨⟨by decide, _, rfl, by decide⟩, ⟨_, rfl, by decide⟩, ⟨_, rfl, by decide⟩, _, rfl, by decide⟩

/-- Each bit raised: DONE, ERR_CMD, ERR_WBUSY, and ERR_LEN by MASK, FRAME and LOCATE. -/
theorem witness_StatusBitOrigins :
    (∃ t, step (pending .nop State.reset) = .next t ∧ t.regs.status.done = true) ∧
      (∃ t, step (State.reset.withFetchWord 32 0xF) = .next t ∧ t.regs.status.errCmd = true) ∧
        (∃ t, step ((running State.reset).withFetchWord 32 0x1) = .next t ∧ t.regs.status.errWbusy = true) ∧
          (∃ t, step (maskState .mask [] 65540 0) = .next t ∧ t.regs.status.errLen = true) ∧
            (∃ t, step (maskState .frame [] 65540 0) = .next t ∧ t.regs.status.errLen = true) ∧
              ∃ t, step (locateState [] 16385 0 .nearest) = .next t ∧ t.regs.status.errLen = true :=
  ⟨⟨_, rfl, by decide⟩, ⟨_, rfl, by decide⟩, ⟨_, rfl, by decide⟩, ⟨_, rfl, by decide⟩, ⟨_, rfl, by decide⟩, _, rfl, by decide⟩

/-- A host write and a hard reset, each changing PIXBUF. -/
theorem witness_PixbufWrittenByHostOnly :
    (∃ t, step (hostNext (wr8 0x10000 0xFF) State.reset) = .next t ∧ t.pixbuf ≠ State.reset.pixbuf) ∧
      ∃ t, step (hostNext .hardReset { State.reset with pixbuf := memOf [1] }) = .next t ∧ t.pixbuf ≠ memOf [1] :=
  ⟨⟨_, rfl, by decide⟩, _, rfl, by decide⟩

theorem witness_IdentityRegistersConstant :
    (∃ t, step State.reset = .next t) ∧ State.reset.params = Config.Params.ctbCore1 := ⟨⟨_, rfl⟩, rfl⟩

/-- A dropped write, a poll, and an idle host. -/
theorem witness_InputsStableWhileBusy :
    ∀ script ∈ [[wr32 0x00034 5], [HostOp.wait], []],
      ∃ t, step { running State.reset with script := script, turns := [.host] } = .next t ∧
        State.busy { running State.reset with script := script, turns := [.host] } = true ∧
          State.sequencerMoves { running State.reset with script := script, turns := [.host] } = false := by
  intro script h
  fin_cases h <;> exact ⟨_, rfl, by decide, by decide⟩

/-- Its exclusions: neither hard reset nor SRST is the host's operation in front. -/
theorem witness_InputsStableWhileBusy_exclusions :
    ¬ HostDoes (hostNext .wait (running State.reset)) .hardReset ∧
      ¬ ∃ w : Word, HostCommands (hostNext .wait (running State.reset)) w ∧ w.getLsbD 31 = true := by
  constructor
  · rintro ⟨-, rest, h⟩
    cases h
  · rintro ⟨w, ⟨-, rest, h⟩, -⟩
    cases h

theorem witness_WaitEndsInCompletion :
    State.pend { running State.reset with script := [.wait], turns := [.host, .host] } = some .nop ∧
      State.script { running State.reset with script := [.wait], turns := [.host, .host] } = .wait :: [] ∧
        State.turns { running State.reset with script := [.wait], turns := [.host, .host] } =
          List.replicate 2 Agent.host := by decide

theorem witness_WaitEndsInCompletion_no_turn :
    State.pend { running State.reset with script := [.wait] } = some .nop ∧
      State.turns { running State.reset with script := [.wait] } = List.replicate 0 Agent.host := by decide

/-- Program P1 of 95_test_vectors.md, column "encoding", with k = 2 reads of STATUS at its `wait` and its first read. -/
theorem test_encodeScript_P1 :
    encodeScript (wr32 0x00034 0x00E1E100 :: runLines .scorePix ++ [rd32 0x0004C]) [1] =
      [(.w, 4, 0x00034, 0x00E1E100), (.w, 4, 0x00008, 0x00000002), (.r, 4, 0x0000C, 0), (.r, 4, 0x0000C, 0),
        (.r, 4, 0x0004C, 0)] := by decide

/-- A start state with a written byte, launched: Clean for itself, and not for hard reset (R255). -/
theorem test_clean_start :
    let start := { StartState.hardReset Config.Params.ctbCore1 with pixbuf := memOf [7] }
    (start.launch [.wait] [.host]).Clean start ∧
      ¬ (start.launch [.wait] [.host]).Clean (StartState.hardReset Config.Params.ctbCore1) := by
  refine ⟨StartState.launch_clean _ _ (by decide), ?_⟩
  rintro ⟨-, -, -, h, -⟩
  exact absurd (h 0) (by decide)

/-- The host moves while idle, and while BUSY where the turn is its own. -/
theorem witness_WaitPollsStatus :
    State.reset.sequencerMoves = false ∧ (hostNext .wait (running State.reset)).sequencerMoves = false := by decide

/-- Runs that use up a read, a `wait` and a hard reset. -/
theorem witness_RunAnswersEncoding :
    ∀ op ∈ [rd32 0x00000, HostOp.wait, HostOp.hardReset],
      ∃ t, Sys2Proof.core.run 1 (hostNext op State.reset) = .next t ∧ t.script = [] := by
  intro op h
  fin_cases h <;> exact ⟨_, rfl, rfl⟩

theorem witness_HardResetIsClean :
    HostDoes (hostNext .hardReset (running State.reset)) .hardReset ∧
      ∃ t, step (hostNext .hardReset (running State.reset)) = .next t := ⟨⟨by decide, [], rfl⟩, _, rfl⟩

end Sys2Proof.Tests
end

section
/-! PROOFS. No step changes the parameters of the block, so ID and PARAM read constants (R22, R23). -/

namespace Sys2Proof.Machine

/-! The parameters through a step: no operation of the block or of the host writes them. -/

theorem locateEffect_params {s t : State} (h : locateEffect s = .ok t) : t.params = s.params := by
  rcases locateEffect_cases h with ⟨-, rfl⟩ | ⟨-, o, -, rfl⟩ <;> simp

theorem maskEffect_params {s t : State} (h : maskEffect s = .ok t) : t.params = s.params := by
  rcases maskEffect_cases h with ⟨-, rfl⟩ | ⟨-, out, -, rfl⟩ <;> simp

theorem frameEffect_params {s t : State} (h : frameEffect s = .ok t) : t.params = s.params := by
  rcases frameEffect_cases h with ⟨-, rfl⟩ | ⟨-, u, hu, ht⟩
  · simp
  · exact (locateEffect_params ht).trans (maskEffect_params hu)

/-- Only MASK, LOCATE and FRAME branch; the other effects always answer, and write result registers at most (R124). -/
theorem commandEffect_params {c : Command} {s t : State} (h : commandEffect c s = .ok t) : t.params = s.params := by
  cases c with
  | nop | convert | scorePix | scoreHsv => cases h; rfl
  | mask => exact maskEffect_params h
  | locate => exact locateEffect_params h
  | frame => exact frameEffect_params h

theorem exec_params {i : Instr} {s t : State} (h : exec i s = .next t) : t.params = s.params := by
  rcases exec_cases h with ⟨c, u, -, -, hu, rfl⟩ | ⟨c, -, -, rfl⟩ | ⟨-, -, rfl⟩ | ⟨-, -, rfl⟩ | ⟨-, rfl⟩
  · simpa using commandEffect_params hu
  all_goals simp

theorem writeTxn_params {a : Offset} {sz : Size} {d : Word} {s t : State} (h : writeTxn a sz d s = .next t) :
    t.params = s.params := by
  rcases writeTxn_next h with ⟨-, rfl⟩ | ⟨-, u, hu, rfl⟩ | ⟨-, -, -, rfl⟩ | ⟨-, r, -, -, rfl⟩ | ⟨-, which, off, -, rfl⟩
  · simp
  · simpa using exec_params hu
  all_goals simp

theorem runTxn_params {tx : Txn} {s t : State} (h : runTxn tx s = .next t) : t.params = s.params := by
  cases tx with
  | read a sz =>
    obtain ⟨d, r, rfl⟩ := readTxn_next h
    simp
  | write a sz d => exact writeTxn_params h

@[simp] theorem pollStatus_params (s : State) : (pollStatus s).params = s.params := by
  simp only [pollStatus]
  split <;> simp

/-- PIX_CAP and LANES are arguments of the model (R9; log entry 7): hard reset keeps them too. -/
theorem step_params {s t : State} (h : step s = .next t) : t.params = s.params := by
  rcases step_cases h with ⟨c, u, -, hu, rfl⟩ | ⟨-, -, rfl⟩ | ⟨-, -, rfl⟩ | ⟨-, -, rfl⟩ | ⟨-, tx, rest, u, -, hu, rfl⟩
  · simpa using commandEffect_params hu
  · simp
  · simp
  · simp
  · simpa using runTxn_params hu

/-! The two fields of PARAM (R23). -/

@[simp] theorem paramWord_lanes (p : Config.Params) : (paramWord p).extractLsb' 0 8 = BitVec.ofNat 8 p.lanes := by
  exact BitVec.extractLsb'_append_eq_right

@[simp] theorem paramWord_pixCap (p : Config.Params) : (paramWord p).extractLsb' 8 24 = BitVec.ofNat 24 p.pixCap := by
  exact BitVec.extractLsb'_append_eq_left

/-- Settles O55: ID reads a constant of the model, and PARAM reads the parameters, which no step changes (`step_params`). -/
theorem identityRegistersConstant : Obligations.IdentityRegistersConstant := by
  intro s t h
  refine ⟨rfl, rfl, ?_, paramWord_lanes s.params, paramWord_pixCap s.params, ?_⟩
  · exact congrArg paramWord (step_params h)
  · intro hp
    have hw : readReg s .param = paramWord Config.Params.ctbCore1 := congrArg paramWord hp
    rw [hw]
    decide

end Sys2Proof.Machine
end

section
/-! PROOFS. The transactions of the host port (R75 to R82): one equation for each thing a transaction can reach, the two halves
of a register write (the register written, every other register), and the bytes of a memory access. -/

namespace Sys2Proof.Machine

open Sys2Proof.Claims

/-! What a transaction reaches, by the cases the statements speak of. -/

theorem target_ne_busError {p : Config.Params} {a : Offset} {sz : Size} (h : ¬ BusErrorCase p a.toNat sz.bytes) :
    target p a sz ≠ .busError :=
  (target_busError_iff p a sz).not.mpr h

/-- An access that is no bus error reaches a register in the register window and a memory byte above it (R70). -/
theorem target_cases {p : Config.Params} {a : Offset} {sz : Size} (h : ¬ BusErrorCase p a.toNat sz.bytes) :
    (a.toNat ≤ 0x000FF ∧ target p a sz = .reg (regAt a.toNat)) ∨
      (0x000FF < a.toNat ∧ ∃ which off, target p a sz = .mem which off) := by
  cases ht : target p a sz with
  | busError => exact absurd ht (target_ne_busError h)
  | reg r =>
    obtain ⟨-, ha, -, rfl⟩ := target_eq_reg ht
    exact .inl ⟨ha, rfl⟩
  | mem which off =>
    obtain ⟨-, ha⟩ := (target_mem_iff p a sz which off).mp ht
    exact .inr ⟨by omega, which, off, rfl⟩

theorem target_of_memAccess {p : Config.Params} {a : Offset} {sz : Size} {which : MemId} {off : Nat}
    (h : MemAccess p a sz.bytes which off) : target p a sz = .mem which off := by
  obtain ⟨ha, hoff, hb⟩ := h
  refine (target_mem_iff p a sz which off).mpr ⟨target_ne_busError hb, ?_⟩
  cases which with
  | pixbuf => exact .inl ⟨rfl, ha, hoff⟩
  | maskbuf => exact .inr ⟨rfl, ha, hoff⟩

/-- Only an access at offset 0x008 reaches CTRL (R20). -/
theorem eq_of_target_ctrl {p : Config.Params} {a : Offset} {sz : Size} (h : target p a sz = .reg .ctrl) :
    a = 0x00008 := by
  obtain ⟨-, -, h4, hr⟩ := target_eq_reg h
  exact BitVec.eq_of_toNat_eq ((regAt_ctrl h4).mp hr.symm)

/-! The transactions and the host's step, an equation for each case. -/

section Transactions

variable {s t : State} {a : Offset} {sz : Size} {d : Word}

/-- The step in which a transaction is answered (R71, R85). -/
theorem step_of_answer {tx : Txn} {r : Reply} (h : HostDoes s (.txn tx)) (ht : runTxn tx s = .next (t.answer r)) :
    step s = .next (answered t r) := by
  obtain ⟨hm, rest, hs⟩ := h
  rw [step_txn hm hs, ht]
  rfl

/-- The step in which a transaction faults (R226). -/
theorem step_of_fault {tx : Txn} {f : Fault} (h : HostDoes s (.txn tx)) (ht : runTxn tx s = .fault f) :
    step s = .fault f := by
  obtain ⟨hm, rest, hs⟩ := h
  rw [step_txn hm hs, ht]
  rfl

theorem readTxn_reg {r : Reg} (ht : target s.params a sz = .reg r) :
    readTxn a sz s = .next (s.answer (.read (readReg s r) .okay)) := by
  simp [readTxn, ht]

theorem readTxn_mem_busy {which : MemId} {off : Nat} (ht : target s.params a sz = .mem which off)
    (hb : s.busy = true) : readTxn a sz s = .next (s.answer (.read 0 .okay)) := by
  simp [readTxn, ht, hb]

theorem readTxn_mem_ok {which : MemId} {off : Nat} {v : Word} (ht : target s.params a sz = .mem which off)
    (hb : s.busy = false) (hv : s.memRead which off sz.bytes = .ok v) :
    readTxn a sz s = .next (s.answer (.read v .okay)) := by
  simp [readTxn, ht, hb, hv]

theorem readTxn_mem_error {which : MemId} {off : Nat} {f : Fault} (ht : target s.params a sz = .mem which off)
    (hb : s.busy = false) (hf : s.memRead which off sz.bytes = .error f) : readTxn a sz s = .fault f := by
  simp [readTxn, ht, hb, hf]

theorem writeTxn_ctrl (ht : target s.params a sz = .reg .ctrl) (hx : exec (decode d) s = .next t) :
    writeTxn a sz d s = .next (t.answer (.write .okay)) := by
  simp [writeTxn, ht, hx]

theorem writeTxn_reg_idle {r : Reg} (ht : target s.params a sz = .reg r) (hr : r ≠ .ctrl) (hb : s.busy = false) :
    writeTxn a sz d s = .next ((s.writeReg r d).answer (.write .okay)) := by
  simp [writeTxn, ht, hb]

theorem writeTxn_mem_idle {which : MemId} {off : Nat} (ht : target s.params a sz = .mem which off)
    (hb : s.busy = false) :
    writeTxn a sz d s = .next ((s.memWrite which off sz.bytes d).answer (.write .okay)) := by
  simp [writeTxn, ht, hb]

/-- A CTRL write selects SRST by bit 31 alone (R101). -/
theorem decode_eq_srst_iff : decode d = .srst ↔ d.getLsbD 31 = true := by
  unfold decode srstField
  split
  · simp [*]
  · rename_i h
    refine iff_of_false ?_ h
    split <;> simp

/-- Every instruction but SRST is dropped in a host step while BUSY (R79, R102). -/
theorem exec_dropped {i : Instr} (hm : s.sequencerMoves = false) (hb : s.busy = true) (hi : i ≠ .srst) :
    exec i s = .next s.signalErrWbusy := by
  obtain ⟨t, ht⟩ := exec_host_next hm i
  rw [ht]
  rcases exec_cases ht with ⟨c, -, -, hc, -⟩ | ⟨-, -, hidle, -⟩ | ⟨-, -, rfl⟩ | ⟨hidle, -⟩ | ⟨rfl, -⟩
  · simp [State.completes_of_host hm] at hc
  · simp [hb] at hidle
  · rfl
  · simp [hb] at hidle
  · exact absurd rfl hi

/-- A write while BUSY to anything but CTRL is dropped (R79). -/
theorem writeTxn_busy (hb : s.busy = true) (he : target s.params a sz ≠ .busError)
    (hc : target s.params a sz ≠ .reg .ctrl) :
    writeTxn a sz d s = .next (s.signalErrWbusy.answer (.write .okay)) := by
  cases ht : target s.params a sz with
  | busError => exact absurd ht he
  | reg r =>
    have hr : r ≠ .ctrl := fun h => hc (h ▸ ht)
    simp [writeTxn, ht, hb]
  | mem which off => simp [writeTxn, ht, hb]

end Transactions

/-! A register write while idle: the register written, then every other one. -/

section RegisterWrite

/-- Masking a one-bit field keeps or clears it by the mask's bit. -/
theorem bitAt_and (i : Nat) (b : Bool) (w : Word) : bitAt i b &&& w = bitAt i (b && w.getLsbD i) := by
  ext j hj
  rw [BitVec.getElem_and, getElem_bitAt i j hj, getElem_bitAt i j hj]
  by_cases h : i = j
  · subst h
    simp [BitVec.getLsbD_eq_getElem hj]
  · simp [h]

/-- Clearing bits of a mask that a word has none of changes nothing. -/
theorem and_not_eq_self_of_disjoint {x m : Word} (d : Word) (h : x &&& m = 0) : x &&& ~~~(d &&& m) = x := by
  ext i hi
  have hbit : (x[i] && m[i]) = false := by rw [← BitVec.getElem_and, h]; simp
  rw [BitVec.getElem_and, BitVec.getElem_not, BitVec.getElem_and]
  cases hx : x[i]
  · rfl
  · have hm : m[i] = false := by simpa [hx] using hbit
    simp [hm]

/-- STATUS after a write to it reads with the W1C bits that the data sets cleared (R24). -/
theorem statusWord_writeReg_status (s : State) (d : Word) :
    (s.writeReg .status d).statusWord = s.statusWord &&& ~~~(d &&& 0x00000702) := by
  have hfail : (s.regs.status.fail.code.setWidth 32 <<< 4 : Word) &&& 0x00000702 = 0 := by
    cases s.regs.status.fail <;> decide
  simp only [State.statusWord, BitVec.and_or_distrib_right, bitAt_and, and_not_eq_self_of_disjoint d hfail]
  simp [State.writeReg, Regs.write, Status.clearW1C, State.busy]

theorem halfWord_setWidth (d : Word) : halfWord (d.setWidth 16) = d &&& 0x0000FFFF := by
  apply BitVec.eq_of_toNat_eq
  have hmask : (0x0000FFFF : Word).toNat = 2 ^ 16 - 1 := rfl
  rw [halfWord, BitVec.toNat_setWidth, BitVec.toNat_setWidth, BitVec.toNat_and, hmask, Nat.and_two_pow_sub_one_eq_mod]
  omega

theorem intEnWord_bits (d : Word) : IntEn.word ⟨d.getLsbD 0, d.getLsbD 1⟩ = d &&& 0x00000003 := by
  have h3 : (0x00000003 : Word) = bitAt 0 true ||| bitAt 1 true := by decide
  rw [h3, BitVec.and_comm, BitVec.and_or_distrib_right, bitAt_and, bitAt_and]
  rfl

theorem rowSelWord_bit (d : Word) :
    (if d.getLsbD 0 then RowSel.topmost else .nearest).word = d &&& 0x00000001 := by
  have h1 : (0x00000001 : Word) = bitAt 0 true := by decide
  rw [h1, BitVec.and_comm, bitAt_and]
  cases d.getLsbD 0 <;> rfl

/-- The register written reads what its access type says (R46, R77, R78). -/
theorem readReg_writeReg_same (s : State) (r : Reg) (d : Word) :
    readReg (s.writeReg r d) r = afterRegWrite (readReg s r) d r := by
  cases r with
  | status => exact statusWord_writeReg_status s d
  | intEn => exact intEnWord_bits d
  | cfg => exact rowSelWord_bit d
  | tgtH | tgtS | tgtV | hueTol | probeCol | smpH | smpS | smpV => exact halfWord_setWidth d
  | bufLen | maskLen | pixIn => rfl
  | id | param | ctrl | convOut | convHn | scoreOut | resXY | resRow | resEdges | side | reserved => rfl

/-- No register shares storage with another (R20). -/
theorem readReg_writeReg_other (s : State) {r r' : Reg} (d : Word) (h : r' ≠ r) :
    readReg (s.writeReg r d) r' = readReg s r' := by
  cases r with
  | id | param | ctrl | convOut | convHn | scoreOut | resXY | resRow | resEdges | side | reserved => rfl
  | status | intEn | tgtH | tgtS | tgtV | hueTol | cfg | probeCol | bufLen | maskLen | pixIn | smpH | smpS | smpV =>
    cases r' <;> try contradiction
    all_goals rfl

end RegisterWrite

/-! The bytes of a memory access. -/

section MemoryAccess

variable {s : State} {which : MemId} {off n : Nat}

@[simp] theorem State.mem_setMem_same (s : State) (which : MemId) (m : Memory) : (s.setMem which m).mem which = m := by
  cases which <;> rfl

@[simp] theorem State.mem_memWrite_same (s : State) (which : MemId) (off n : Nat) (v : Word) :
    (s.memWrite which off n v).mem which = (s.mem which).writeLe off n v.toNat :=
  s.mem_setMem_same which _

/-- Byte `k` of a word, as MemRead and MemWrite count it (R73). -/
theorem extractLsb'_byte (v : Word) (k : Nat) : v.extractLsb' (8 * k) 8 = BitVec.ofNat 8 (v.toNat / 256 ^ k) := by
  rw [BitVec.extractLsb', Nat.shiftRight_eq_div_pow, pow_mul]
  rfl

/-- A MemRead of unwritten bytes faults (R81, R226). -/
theorem State.memRead_of_unwritten (h : ∃ k < n, (s.mem which).read (off + k) = none) :
    s.memRead which off n = .error (.uninitRead which off) := by
  obtain ⟨k, hk, hr⟩ := h
  cases hv : (s.mem which).readLe off n with
  | none => simp [State.memRead, hv]
  | some v => simp [Memory.readLe_byte hv hk] at hr

/-- A MemRead of written bytes holds them in its low bytes, and 0 above them (R73, R81). -/
theorem State.memRead_of_written (hn : n ≤ 4) {bs : Nat → Byte}
    (h : ∀ k < n, (s.mem which).read (off + k) = some (bs k)) :
    ∃ v, s.memRead which off n = .ok v ∧ ∀ k, v.extractLsb' (8 * k) 8 = if k < n then bs k else 0 := by
  have hsome : ((s.mem which).readLe off n).isSome = true :=
    ((s.mem which).readLe_isSome off n).mpr fun k hk => by simp [h k hk]
  obtain ⟨v, hv⟩ := Option.isSome_iff_exists.mp hsome
  have hlt : v < 256 ^ n := Memory.readLe_lt hv
  have htoNat : (BitVec.ofNat 32 v).toNat = v :=
    Nat.mod_eq_of_lt (hlt.trans_le (Nat.pow_le_pow_right (by decide) hn))
  refine ⟨BitVec.ofNat 32 v, by simp [State.memRead, hv], fun k => ?_⟩
  rw [extractLsb'_byte, htoNat]
  by_cases hk : k < n
  · rw [if_pos hk]
    exact Option.some.inj ((Memory.readLe_byte hv hk).symm.trans (h k hk))
  · rw [if_neg hk, Nat.div_eq_of_lt (hlt.trans_le (Nat.pow_le_pow_right (by decide) (not_lt.mp hk)))]
    rfl

end MemoryAccess

/-! The statements. -/

/-- Settles O38: an aligned word access of the register window reaches its register whatever BUSY is, and the read changes
nothing but the host's side (R76). -/
theorem registerReadAnswers : Obligations.RegisterReadAnswers := by
  intro s a h ha h4
  exact step_of_answer h (readTxn_reg (target_reg s.params a ha h4))

/-- Settles O39: the write is `State.writeReg` of the register reached, which is read back register by register. -/
theorem idleRegisterWrite : Obligations.IdleRegisterWrite := by
  intro s a d h ha h4 hctrl hb
  have hr : regAt a.toNat ≠ .ctrl := (regAt_ctrl h4).not.mpr hctrl
  refine ⟨s.writeReg (regAt a.toNat) d,
    step_of_answer h (writeTxn_reg_idle (target_reg s.params a ha h4) hr hb), rfl, fun r => ?_⟩
  by_cases hreg : r = regAt a.toNat
  · rw [if_pos hreg, hreg]
    exact readReg_writeReg_same s _ d
  · rw [if_neg hreg]
    exact readReg_writeReg_other s d hreg

/-- Settles O41: what is no bus error reaches CTRL, where only SRST is not dropped, or anything else, where every write is. -/
theorem busyWritesDropped : Obligations.BusyWritesDropped := by
  intro s a sz d h hb he
  refine ⟨fun hns => step_of_answer h (t := s.signalErrWbusy) ?_, fun ha hd => ?_⟩
  · by_cases hc : target s.params a sz = .reg .ctrl
    · have hi : decode d ≠ .srst := fun hi => hns ⟨eq_of_target_ctrl hc, decode_eq_srst_iff.mp hi⟩
      exact writeTxn_ctrl hc (exec_dropped h.1 hb hi)
    · exact writeTxn_busy hb (target_ne_busError he) hc
  · subst ha
    have hc : target s.params 0x00008 sz = .reg .ctrl := by
      rcases target_cases he with ⟨-, ht⟩ | ⟨hlt, -⟩
      · exact ht
      · exact absurd hlt (by decide)
    have hx : exec (decode d) s = .next s.softReset := by rw [decode_eq_srst_iff.mpr hd]; rfl
    exact ⟨s.softReset, rfl, step_of_answer h (writeTxn_ctrl hc hx)⟩

/-- Settles O42: what is no bus error reaches a register, read as while idle, or a memory byte, which answers 0 (R80). -/
theorem busyReadsAnswer : Obligations.BusyReadsAnswer := by
  intro s a sz h hb he
  rcases target_cases he with ⟨ha, ht⟩ | ⟨ha, which, off, ht⟩
  · rw [if_pos ha]
    exact step_of_answer h (readTxn_reg ht)
  · rw [if_neg (not_le.mpr ha)]
    exact step_of_answer h (readTxn_mem_busy ht hb)

/-- Settles O43: the access is a MemRead of its bytes, by `State.memRead_of_written` and `State.memRead_of_unwritten`. -/
theorem idleMemoryRead : Obligations.IdleMemoryRead := by
  intro s a sz which off h hb hacc
  have ht := target_of_memAccess hacc
  have hn : sz.bytes ≤ 4 := by cases sz <;> decide
  refine ⟨fun bs hw => ?_, fun hu => step_of_fault h (readTxn_mem_error ht hb (State.memRead_of_unwritten hu))⟩
  obtain ⟨v, hv, hbytes⟩ := State.memRead_of_written hn hw
  exact ⟨v, step_of_answer h (readTxn_mem_ok ht hb hv), fun k _ => hbytes k⟩

/-- Settles O44: the access is a MemWrite of its bytes, whose range and frame are those of `Memory.writeLe`. -/
theorem idleMemoryWrite : Obligations.IdleMemoryWrite := by
  intro s a sz d which off h hb hacc
  refine ⟨s.memWrite which off sz.bytes d,
    step_of_answer h (writeTxn_mem_idle (target_of_memAccess hacc) hb), fun k hk => ?_, fun o ho => ?_, ?_⟩
  · rw [State.mem_memWrite_same, Memory.read_writeLe _ _ hk, extractLsb'_byte]
  · rw [State.mem_memWrite_same, Memory.read_writeLe_other _ _ ho]
  · rw [State.mem_memWrite_same]
    rfl

end Sys2Proof.Machine
end

section
/-! PROOFS. The decoder (R101, R102): with SRST = 0, one equation for each kind of code. -/

namespace Sys2Proof.Machine

open Sys2Proof.Claims

section Codes
variable {w : Word}

/-- A command's code selects that command (R101). -/
theorem decode_of_commandCode (h : w.getLsbD 31 = false) {c : Command} (hc : w.extractLsb' 0 4 = commandCode c) :
    decode w = c.instr := by
  simp only [decode, srstField, cmdField, h, hc]
  cases c <;> rfl

theorem decode_of_code_seven (h : w.getLsbD 31 = false) (hc : w.extractLsb' 0 4 = 0x7) : decode w = .reserved7 := by
  simp only [decode, srstField, cmdField, h, hc]
  rfl

/-- A code from 0x8 on has none of the numbered rows, so the last row takes it and keeps the code (R105). -/
theorem decode_of_eight_le_code (h : w.getLsbD 31 = false) (hc : 0x8 ≤ (w.extractLsb' 0 4).toNat) :
    decode w = .reserved8F (w.extractLsb' 0 4) := by
  simp only [decode, srstField, cmdField, h, Bool.false_eq_true, if_false]
  split
  case h_9 => rfl
  all_goals omega

end Codes

/-- Settles O2: SRST by `decode_eq_srst_iff`, and with SRST = 0 the equation of each kind of code. -/
theorem decodeReadsCommandCodes : Obligations.DecodeReadsCommandCodes := fun _ =>
  ⟨decode_eq_srst_iff.mpr, fun h =>
    ⟨fun _ => decode_of_commandCode h, decode_of_code_seven h, decode_of_eight_le_code h⟩⟩

end Sys2Proof.Machine
end

section
/-! PROOFS. Command control (R121, R126, R127): the start step, the reserved codes and SRST, each as the instruction and as the
host's write of a word that carries it. -/

namespace Sys2Proof.Machine

open Sys2Proof.Claims

section Instructions
variable {s : State}

/-- An idle block starts the command, whichever it is (R121). -/
theorem exec_command_idle (c : Command) (hb : s.busy = false) : exec c.instr s = .next (s.start c) := by
  rw [exec_command]
  exact runCommand_start hb

/-- Both rows of reserved codes have one meaning (R127). -/
theorem exec_reserved {i : Instr} (hi : i = .reserved7 ∨ ∃ cmd, i = .reserved8F cmd) :
    exec i s = .next (reservedCode s) := by
  rcases hi with rfl | ⟨cmd, rfl⟩ <;> rfl

theorem exec_reserved_idle {i : Instr} (hi : i = .reserved7 ∨ ∃ cmd, i = .reserved8F cmd) (hb : s.busy = false) :
    exec i s = .next s.signalErrCmd := by
  rw [exec_reserved hi, reservedCode, State.ctrlWrite_idle hb]

theorem exec_reserved_busy {i : Instr} (hi : i = .reserved7 ∨ ∃ cmd, i = .reserved8F cmd) (hb : s.busy = true) :
    exec i s = .next s.signalErrWbusy := by
  rw [exec_reserved hi, reservedCode, State.ctrlWrite_busy hb]

/-- SRST is accepted whether or not BUSY (R126). -/
theorem exec_srst : exec .srst s = .next s.softReset := rfl

end Instructions

/-- A code from 0x7 on selects one of the two rows of reserved codes (R105). -/
theorem decode_reserved {w : Word} (h : w.getLsbD 31 = false) (hc : 0x7 ≤ (w.extractLsb' 0 4).toNat) :
    decode w = .reserved7 ∨ ∃ cmd, decode w = .reserved8F cmd := by
  rcases Nat.eq_or_lt_of_le hc with h7 | h8
  · exact .inl (decode_of_code_seven h (BitVec.eq_of_toNat_eq h7.symm))
  · exact .inr ⟨_, decode_of_eight_le_code h h8⟩

/-- The host's write of a command word is the word's instruction, answered OKAY (R100, R102). -/
theorem step_of_command {s t : State} {w : Word} (h : HostCommands s w) (hx : exec (decode w) s = .next t) :
    step s = .next (answered t (.write .okay)) :=
  step_of_answer h (writeTxn_ctrl (target_reg s.params 0x00008 (by decide) (by decide)) hx)

/-! The registers after SRST: PARAM apart, they read as after reset, where most read 0 (R20, R126). -/

theorem readReg_softReset (s : State) {r : Reg} (h : r ≠ .param) : readReg s.softReset r = readReg State.reset r := by
  cases r with
  | param => exact absurd rfl h
  | _ => rfl

theorem readReg_reset_eq_zero {r : Reg} (h : r ∉ [.id, .param, .tgtH, .tgtS, .tgtV, .probeCol]) :
    readReg State.reset r = 0 := by
  revert h
  cases r <;> decide

/-- Settles O7: the word decodes to the command, which an idle block starts. -/
theorem startStepLatchesCommand : Obligations.StartStepLatchesCommand := by
  intro s w c h31 hb hc
  have hx : exec (decode w) s = .next (s.start c) := by
    rw [decode_of_commandCode h31 hc]
    exact exec_command_idle c hb
  exact ⟨hx, fun h => step_of_command h hx⟩

/-- Settles O8: the word decodes to a reserved instruction, which signals one error bit, by BUSY. -/
theorem reservedCodesSignalError : Obligations.ReservedCodesSignalError := by
  refine ⟨fun w h31 hc => ?_, fun s i hi => ⟨exec_reserved_idle hi, exec_reserved_busy hi⟩⟩
  have hi := decode_reserved h31 hc
  exact ⟨hi, fun s h =>
    ⟨fun hb => step_of_command h (exec_reserved_idle hi hb), fun hb => step_of_command h (exec_reserved_busy hi hb)⟩⟩

/-- Settles O9: the next state is `State.softReset`, read register by register and, in MASKBUF, byte by byte. -/
theorem softResetEffect : Obligations.SoftResetEffect := by
  refine ⟨fun w h31 => ?_, fun s => ⟨s.softReset, exec_srst, fun r => ?_, rfl, s.read_maskbufAfterSrst, rfl⟩⟩
  · have hd : decode w = .srst := decode_eq_srst_iff.mpr h31
    have hx (s : State) : exec (decode w) s = .next s.softReset := by rw [hd, exec_srst]
    exact ⟨hd, fun s h => ⟨s.softReset, exec_srst, step_of_command h (hx s)⟩⟩
  · cases r with
    | id | param | tgtH | tgtS | tgtV | probeCol => rfl
    | _ => exact (readReg_softReset s (by decide)).trans (readReg_reset_eq_zero (by decide))

end Sys2Proof.Machine
end

section
/-! PROOFS. The scorer (R161 to R165): the gap, the squared distance and m as rationals, and the match byte as the clamped and
truncated real 255 − 8.5·d. -/

namespace Sys2Proof.Machine

/-! The distance and its integer ceiling. -/

/-- R161 over the rationals. -/
theorem cyclicHueDiff_toRat (ht hp : Frac) :
    (cyclicHueDiff ht hp).toRat =
      if 180 < |ht.toRat - hp.toRat| then 360 - |ht.toRat - hp.toRat| else |ht.toRat - hp.toRat| := by
  have hc : (Frac.ofInt 180).lt (ht.sub hp).abs = true ↔ 180 < |ht.toRat - hp.toRat| := by simp [Frac.lt_iff]
  simp only [cyclicHueDiff, hc, apply_ite Frac.toRat, Frac.toRat_sub, Frac.toRat_abs, Frac.toRat_ofInt, Int.cast_ofNat]

/-- R163 over the rationals. -/
theorem squaredDistance_toRat (dh : Frac) (t p : Hsv) :
    (squaredDistance dh t p).toRat =
      dh.toRat ^ 2 + (t.sat.toRat - p.sat.toRat) ^ 2 + (t.val.toRat - p.val.toRat) ^ 2 := by
  simp only [squaredDistance, Frac.toRat_add, Frac.toRat_mul, Frac.toRat_sub, sq]

theorem squaredDistance_nonneg (dh : Frac) (t p : Hsv) : 0 ≤ (squaredDistance dh t p).toRat := by
  rw [squaredDistance_toRat]
  positivity

/-- The integer square root of a rational's floor is the largest natural whose square is at most the rational. -/
theorem le_isqrt_floor_iff {x : Frac} (h : 0 ≤ x.toRat) (k : ℕ) :
    k ≤ isqrt x.floor.toNat ↔ (k : ℚ) * k ≤ x.toRat := by
  rw [le_isqrt_iff, Frac.floor_eq, Int.floor_toNat, Nat.le_floor_iff h, Nat.cast_mul]

/-- The m of R164 is at most the naturals of which it is the least. Where the root of 289·D2/4 is no natural, m is the natural
above its integer part. -/
theorem scaledDistance_le_iff {d2 : Frac} (h : 0 ≤ d2.toRat) (k : ℕ) :
    scaledDistance d2 ≤ k ↔ 289 * d2.toRat ≤ 4 * (k : ℚ) * (k : ℚ) := by
  set x : Frac := (⟨289, 4, by decide⟩ : Frac).mul d2 with hx
  have hxr : x.toRat = 289 / 4 * d2.toRat := by simp [hx]
  have hroot := le_isqrt_floor_iff (x := x) (by rw [hxr]; positivity)
  have hgoal : 289 * d2.toRat ≤ 4 * (k : ℚ) * (k : ℚ) ↔ x.toRat ≤ (k : ℚ) * k := by
    rw [hxr]
    constructor <;> intro <;> linarith
  have hsq (a b : ℕ) : (a : ℚ) * a < b * b ↔ a < b := by rw [← Nat.mul_self_lt_mul_self_iff]; exact_mod_cast Iff.rfl
  rw [hgoal]
  simp only [scaledDistance, ← hx]
  set s := isqrt x.floor.toNat
  split
  next hlt =>
    have hlt : (s : ℚ) * s < x.toRat := by simpa [Frac.lt_iff] using hlt
    exact ⟨fun hk => (not_le.mp ((hroot k).not.mp (by omega))).le, fun hk => (hsq s k).mp (hlt.trans_le hk)⟩
  next hge =>
    have hge : x.toRat ≤ (s : ℚ) * s := by simpa [Frac.lt_iff] using hge
    rw [le_antisymm hge ((hroot s).mp le_rfl), ← not_lt, ← not_lt, hsq]

theorem isLeast_scaledDistance {d2 : Frac} (h : 0 ≤ d2.toRat) :
    IsLeast {k : ℕ | 289 * d2.toRat ≤ 4 * (k : ℚ) * (k : ℚ)} (scaledDistance d2) :=
  ⟨(scaledDistance_le_iff h _).mp le_rfl, fun k hk => (scaledDistance_le_iff h k).mpr hk⟩

/-- The m of R164 is the ceiling of 8.5·d. -/
theorem scaledDistance_eq_ceil {d2 : Frac} (h : 0 ≤ d2.toRat) :
    scaledDistance d2 = ⌈17 / 2 * Real.sqrt (d2.toRat : ℝ)⌉₊ := by
  refine eq_of_forall_ge_iff fun k => ?_
  have hsqrt : 17 / 2 * Real.sqrt (d2.toRat : ℝ) ≤ k ↔ Real.sqrt (d2.toRat : ℝ) ≤ 2 / 17 * k := by
    constructor <;> intro <;> linarith
  have hrat : 289 * d2.toRat ≤ 4 * (k : ℚ) * (k : ℚ) ↔ 289 * (d2.toRat : ℝ) ≤ 4 * (k : ℝ) * (k : ℝ) := by
    exact_mod_cast Iff.rfl
  rw [scaledDistance_le_iff h, hrat, Nat.ceil_le, hsqrt, Real.sqrt_le_left (by positivity)]
  constructor <;> intro <;> linarith

/-- Clamping to [0, 255] and truncating 255 − x is clamping the ceiling of x (R164). -/
theorem floor_clamp_sub {x : ℝ} (h : 0 ≤ x) :
    ⌊max 0 (min 255 (255 - x))⌋ = ((255 - min ⌈x⌉₊ 255 : ℕ) : ℤ) := by
  have hf : ⌊255 - x⌋ = 255 - (⌈x⌉₊ : ℤ) := by
    rw [Int.natCast_ceil_eq_ceil h, sub_eq_add_neg, Int.floor_ofNat_add, Int.floor_neg, sub_eq_add_neg]
  rw [Int.floor_mono.map_max, Int.floor_mono.map_min, hf, Int.floor_zero, Int.floor_ofNat]
  omega

/-! The two branches of the scorer (R165). -/

section Branches
variable {t p : Hsv} {tol : Frac}

theorem score_of_gated (h : tol.toRat < (cyclicHueDiff t.hue p.hue).toRat) :
    score t p tol = { byte := 0, gate := true, neg := false } :=
  if_pos ((Frac.lt_iff _ _).mpr h)

theorem score_of_passed (h : (cyclicHueDiff t.hue p.hue).toRat ≤ tol.toRat) :
    score t p tol =
      { byte := BitVec.ofNat 8 (255 - min (scaledDistance (squaredDistance (cyclicHueDiff t.hue p.hue) t p)) 255)
        gate := false
        neg := (Frac.ofInt 900).lt (squaredDistance (cyclicHueDiff t.hue p.hue) t p) } :=
  if_neg ((Frac.lt_iff _ _).not.mpr (not_lt.mpr h))

end Branches

/-- Settles O17: the branches of the scorer, where the gate passes with m as the least natural of its set
(`isLeast_scaledDistance`) and as the ceiling of 8.5·d (`scaledDistance_eq_ceil`). -/
theorem scoreMatchesRealFormula : Obligations.ScoreMatchesRealFormula := by
  intro t p tol raw dh d2 hraw hdh hd2
  have hgap : (cyclicHueDiff t.hue p.hue).toRat = dh := by rw [cyclicHueDiff_toRat, hdh, hraw]
  have hdist : (squaredDistance (cyclicHueDiff t.hue p.hue) t p).toRat = d2 := by rw [squaredDistance_toRat, hgap, hd2]
  have hnonneg := squaredDistance_nonneg (cyclicHueDiff t.hue p.hue) t p
  refine ⟨fun h => score_of_gated (hgap ▸ h), fun h => ?_⟩
  rw [score_of_passed (hgap ▸ h), ← hdist]
  set D2 := squaredDistance (cyclicHueDiff t.hue p.hue) t p
  have hbyte : (BitVec.ofNat 8 (255 - min (scaledDistance D2) 255)).toNat = 255 - min (scaledDistance D2) 255 := by
    rw [BitVec.toNat_ofNat, Nat.mod_eq_of_lt (by omega)]
  refine ⟨rfl, by simp [Frac.lt_iff], ⟨_, isLeast_scaledDistance hnonneg, hbyte⟩, ?_⟩
  have hx : 255 * (1 - Real.sqrt (D2.toRat : ℝ) / 30) = 255 - 17 / 2 * Real.sqrt (D2.toRat : ℝ) := by ring
  rw [hbyte, hx, floor_clamp_sub (by positivity), ← scaledDistance_eq_ceil hnonneg]

end Sys2Proof.Machine
end

section
/-! PROOFS. The locator (R191 to R196): a LOCATE whose length check passes completes with the result registers of its outcome. -/

namespace Sys2Proof.Machine

open Sys2Proof.Claims

/-- R15 has one solution, the model's `isqrt`. -/
theorem isqrt_eq_of_isSide {n l : Nat} (h : IsSide n l) : isqrt l = n := by
  rw [isqrt_eq_sqrt]
  exact (Nat.eq_sqrt.mpr h).symm

/-- MASK_LEN is a 32-bit register, so SIDE holds the whole of its square root (R45). -/
theorem side_lt_of_isSide {n : Nat} {len : Word} (h : IsSide n len.toNat) : n < 2 ^ 16 := by
  obtain ⟨hsq, -⟩ := h
  exact Nat.mul_self_lt_mul_self_iff.mp (hsq.trans_lt len.isLt)

/-- With P ≥ N no mask byte is read (R192). -/
theorem locateOutcome_of_side_le {n p : Nat} (h : n ≤ p) (sel : RowSel) (m : Memory) :
    locateOutcome sel m n p = .ok .probeOutOfRange :=
  if_pos h

section Completion
variable {s : State} {n p : Nat} {o : LocateOutcome}

/-- A LOCATE whose length check passes writes the registers of its outcome (R191, R196). -/
theorem locateEffect_of_outcome (hlen : s.regs.maskLen.toNat ≤ s.params.pixCap) (hside : IsSide n s.regs.maskLen.toNat)
    (ho : locateOutcome s.regs.rowSel s.maskbuf n s.regs.probe = .ok o) : locateEffect s = .ok (s.setLocate n o) := by
  have hn : isqrt s.regs.maskLength = n := isqrt_eq_of_isSide hside
  have hcheck : ¬ s.params.pixCap < s.regs.maskLength := not_lt.mpr hlen
  rw [locateEffect, if_neg hcheck, hn, ho]

/-- The completion step of such a LOCATE (R122, R197). -/
theorem exec_locate_of_outcome (h : LocateReady s n p) (ho : locateOutcome s.regs.rowSel s.maskbuf n p = .ok o) :
    exec .locate s = .next (s.setLocate n o).finish := by
  obtain ⟨hc, hlen, hside, rfl⟩ := h
  exact runCommand_finish hc (locateEffect_of_outcome hlen hside ho)

/-- A completed locate writes nothing but the lifecycle and the registers of R196. -/
theorem locateFrame_setLocate_finish (s : State) (n : Nat) (o : LocateOutcome) :
    LocateFrame s (s.setLocate n o).finish := rfl

/-- SIDE after a completed locate is N itself, not N modulo 2¹⁶ (R196). -/
theorem side_setLocate_finish (h : LocateReady s n p) (o : LocateOutcome) :
    (s.setLocate n o).finish.regs.side.toNat = n := by
  obtain ⟨-, -, hside, -⟩ := h
  exact Nat.mod_eq_of_lt (side_lt_of_isSide hside)

end Completion

/-- Settles O25: the outcome is decided by the probe range alone (`locateOutcome_of_side_le`), and its registers are 0. -/
theorem locateProbeOutOfRange : Obligations.LocateProbeOutOfRange := by
  intro s n p h hnp
  have ho := locateOutcome_of_side_le hnp s.regs.rowSel s.maskbuf
  exact ⟨_, exec_locate_of_outcome h ho, locateFrame_setLocate_finish s n _,
    side_setLocate_finish h _, rfl, rfl, rfl, rfl, rfl, rfl, rfl⟩

end Sys2Proof.Machine
end

section
/-! PROOFS. The irq level (R230): the bits of STATUS and INT_EN as a read returns them are the flags irq is made of. -/

namespace Sys2Proof.Machine

/-- FAIL has no bit of STATUS outside [6:4] (R24). -/
theorem getElem_failField (f : FailCode) {j : Nat} (hj : j < 32) (h : j < 4 ∨ 7 ≤ j) :
    (f.code.setWidth 32 <<< 4 : Word)[j] = false := by
  rw [BitVec.getElem_shiftLeft]
  rcases h with hlow | hhigh
  · simp [hlow]
  · simp [BitVec.getLsbD_of_ge f.code (j - 4) (by omega)]

/-- A bit of STATUS outside FAIL is the flag that has its place there (R24). -/
theorem getElem_statusWord (s : State) {j : Nat} (hj : j < 32) (h : j < 4 ∨ 7 ≤ j) :
    s.statusWord[j] =
      (s.busy && decide (0 = j) || s.regs.status.done && decide (1 = j) || s.regs.status.found && decide (2 = j) ||
        s.regs.status.errCmd && decide (8 = j) || s.regs.status.errWbusy && decide (9 = j) ||
          s.regs.status.errLen && decide (10 = j)) := by
  simp only [State.statusWord, BitVec.getElem_or, getElem_bitAt, getElem_failField _ hj h, Bool.or_false]

section ReadBits
variable (s : State)

theorem readReg_status_done : (readReg s .status).getLsbD 1 = s.regs.status.done := by
  simp [readReg, getElem_statusWord]

theorem readReg_status_errCmd : (readReg s .status).getLsbD 8 = s.regs.status.errCmd := by
  simp [readReg, getElem_statusWord]

theorem readReg_status_errWbusy : (readReg s .status).getLsbD 9 = s.regs.status.errWbusy := by
  simp [readReg, getElem_statusWord]

theorem readReg_status_errLen : (readReg s .status).getLsbD 10 = s.regs.status.errLen := by
  simp [readReg, getElem_statusWord]

theorem readReg_intEn_doneIe : (readReg s .intEn).getLsbD 0 = s.regs.intEn.doneIe := by
  simp [readReg, IntEn.word, getElem_bitAt]

theorem readReg_intEn_errIe : (readReg s .intEn).getLsbD 1 = s.regs.intEn.errIe := by
  simp [readReg, IntEn.word, getElem_bitAt]

end ReadBits

/-- The irq level by the flags (R229, R230). -/
theorem State.irq_iff (s : State) : s.irq = true ↔
    (s.regs.status.done = true ∧ s.regs.intEn.doneIe = true) ∨
      ((s.regs.status.errCmd = true ∨ s.regs.status.errWbusy = true ∨ s.regs.status.errLen = true) ∧
        s.regs.intEn.errIe = true) := by
  simp [State.irq, Status.anyError, or_assoc]

/-- Settles O47: each bit reads as its flag, and `State.irq_iff` is the level by the flags. -/
theorem irqLevel : Obligations.IrqLevel := by
  refine ⟨fun s => ?_, rfl⟩
  rw [readReg_status_done, readReg_status_errCmd, readReg_status_errWbusy, readReg_status_errLen, readReg_intEn_doneIe,
    readReg_intEn_errIe]
  exact s.irq_iff

end Sys2Proof.Machine
end

section
/-! PROOFS. Encoding (R73, R100 to R102): a word matches a row of the opcode table where its SRST bit and, with SRST = 0, its CMD
are those of the row; and a command word from its four bytes. -/

namespace Sys2Proof.Machine

open Sys2Proof.Claims

/-! The rows of the opcode table, by the two fields of a command word. -/

section Rows
variable {w : Word}

/-- The row of SRST compares bit 31 alone (R100). -/
theorem and_srstMask_eq_iff : w &&& 0x80000000 = 0x80000000 ↔ w.getLsbD 31 = true := by
  have hmask : (0x80000000 : Word) = bitAt 31 true := by decide
  rw [hmask, BitVec.and_comm, bitAt_and, Bool.true_and]
  cases w.getLsbD 31 <;> decide

/-- Every other row compares bit 31 with 0 and CMD with the row's code (R100, R101). -/
theorem and_cmdMask_eq_iff (c : BitVec 4) :
    w &&& 0x8000000F = c.setWidth 32 ↔ w.getLsbD 31 = false ∧ w.extractLsb' 0 4 = c := by
  have hmask (i : Nat) (hi : i < 32) : (0x8000000F : Word).getLsbD i = (decide (i < 4) || decide (i = 31)) := by
    revert i; decide
  constructor
  · intro h
    have hbit (i : Nat) : (w.getLsbD i && (0x8000000F : Word).getLsbD i) = (decide (i < 32) && c.getLsbD i) := by
      rw [← BitVec.getLsbD_and, h, BitVec.getLsbD_setWidth]
    refine ⟨by simpa using hbit 31, BitVec.eq_of_getLsbD_eq fun i hi => ?_⟩
    have := hbit i
    rw [hmask i (by omega)] at this
    simpa [hi, show i < 32 by omega] using this
  · rintro ⟨h31, rfl⟩
    refine BitVec.eq_of_getLsbD_eq fun i hi => ?_
    rw [BitVec.getLsbD_and, hmask i hi]
    by_cases h4 : i < 4
    · simp [h4, hi]
    · by_cases hi31 : i = 31
      · subst hi31
        rw [h31]
        simp
      · simp [h4, hi31]

/-- A code is the CMD of the word that holds it in its low bits (R100). -/
theorem cmdField_setWidth (c : BitVec 4) : cmdField (c.setWidth 32) = c := by
  rw [cmdField, BitVec.extractLsb'_setWidth_of_le (by decide)]
  exact BitVec.extractLsb'_eq_self

/-- A word with SRST = 0 decodes to the instruction whose command word carries its CMD (R101, R105). -/
theorem decode_eq_iff_cmdField {i : Instr} (hw : WellFormed i) (hi : i ≠ .srst) :
    decode w = i ↔ w.getLsbD 31 = false ∧ w.extractLsb' 0 4 = cmdField (encode i) := by
  constructor
  · rintro rfl
    have h31 : w.getLsbD 31 = false := Bool.eq_false_iff.mpr (decode_eq_srst_iff.not.mp hi)
    refine ⟨h31, ?_⟩
    change cmdField w = _
    simp only [decode, srstField, h31, Bool.false_eq_true, if_false]
    split
    case h_9 => exact (cmdField_setWidth _).symm
    all_goals
      apply BitVec.eq_of_toNat_eq
      assumption
  · rintro ⟨h31, hc⟩
    rcases instr_cases i with ⟨c, rfl⟩ | rfl | ⟨cmd, rfl⟩ | rfl
    · exact decode_of_commandCode h31 (hc.trans (by cases c <;> rfl))
    · exact decode_of_code_seven h31 hc
    · have hcmd : w.extractLsb' 0 4 = cmd := hc.trans (cmdField_setWidth cmd)
      have h8 : ∀ cmd : BitVec 4, cmd.getLsbD 3 = true → 8 ≤ cmd.toNat := by decide
      rw [decode_of_eight_le_code h31 (hcmd ▸ h8 cmd hw), hcmd]
    · exact absurd rfl hi

end Rows

/-- Every row but SRST's has the care bits SRST and CMD, and a match whose CMD is its code (opcode_table.json). -/
theorem careBits_encode_of_ne_srst {i : Instr} (hi : i ≠ .srst) :
    careBits i = 0x8000000F ∧ encode i = (cmdField (encode i)).setWidth 32 := by
  cases i with
  | srst => exact absurd rfl hi
  | reserved8F cmd => exact ⟨rfl, by rw [encode, cmdField_setWidth]⟩
  | _ => exact ⟨rfl, by decide⟩

/-- Settles O1: both sides say which value bit 31 has and, for a row other than SRST's, which value CMD has. -/
theorem decodeMatchesOpcodeTable : Obligations.DecodeMatchesOpcodeTable := by
  intro w i hw
  by_cases hi : i = .srst
  · subst hi
    exact decode_eq_srst_iff.trans and_srstMask_eq_iff.symm
  · obtain ⟨hcare, hcode⟩ := careBits_encode_of_ne_srst hi
    rw [hcare, hcode, and_cmdMask_eq_iff]
    exact decode_eq_iff_cmdField hw hi

/-- Settles O3: thirteen closed words, evaluated. -/
theorem specWordsDecode : Obligations.SpecWordsDecode := by
  unfold Obligations.SpecWordsDecode
  decide

/-- The four bytes of a word, least significant first, are the word (R73). -/
theorem wordOfBytes_extractLsb' (w : Word) :
    wordOfBytes (w.extractLsb' 0 8) (w.extractLsb' 8 8) (w.extractLsb' 16 8) (w.extractLsb' 24 8) = w := by
  rw [wordOfBytes, BitVec.extractLsb'_append_extractLsb'_eq_extractLsb' (by decide),
    BitVec.extractLsb'_append_extractLsb'_eq_extractLsb' (by decide),
    BitVec.extractLsb'_append_extractLsb'_eq_extractLsb' (by decide)]
  exact BitVec.extractLsb'_eq_self

/-- Settles O4: the byte decoder decodes the word of its first four bytes, and no shorter list has four. -/
theorem commandWordBytesLittleEndian : Obligations.CommandWordBytesLittleEndian := by
  refine ⟨fun w rest => ?_, fun bs hbs => ?_⟩
  · rw [decodeBytes, wordOfBytes_extractLsb']
  · match bs, hbs with
    | [], _ | [_], _ | [_, _], _ | [_, _, _], _ => rfl
    | _ :: _ :: _ :: _ :: _, h => simp only [List.length_cons] at h; omega

end Sys2Proof.Machine
end

section
/-! PROOFS. The effects of MASK, LOCATE and FRAME as equations, by their length check (R181, R191, R199). -/

namespace Sys2Proof.Machine

section Effects
variable {s : State}

theorem maskEffect_of_oversize (h : s.params.pixCap < s.regs.pixelCount) : maskEffect s = .ok s.signalErrLen :=
  if_pos h

theorem maskEffect_of_fits (h : s.regs.pixelCount ≤ s.params.pixCap) :
    maskEffect s =
      (maskLoop s.regs s.pixbuf s.regs.pixelCount 0 s.maskbuf).map fun out => s.setMask out s.regs.pixelCount := by
  rw [maskEffect, if_neg (not_lt.mpr h)]
  cases maskLoop s.regs s.pixbuf s.regs.pixelCount 0 s.maskbuf <;> rfl

theorem locateEffect_of_oversize (h : s.params.pixCap < s.regs.maskLength) : locateEffect s = .ok s.signalErrLen :=
  if_pos h

theorem locateEffect_of_fits (h : s.regs.maskLength ≤ s.params.pixCap) :
    locateEffect s =
      (locateOutcome s.regs.rowSel s.maskbuf (isqrt s.regs.maskLength) s.regs.probe).map
        (s.setLocate (isqrt s.regs.maskLength)) := by
  rw [locateEffect, if_neg (not_lt.mpr h)]
  cases locateOutcome s.regs.rowSel s.maskbuf (isqrt s.regs.maskLength) s.regs.probe <;> rfl

theorem frameEffect_of_oversize (h : s.params.pixCap < s.regs.pixelCount) : frameEffect s = .ok s.signalErrLen :=
  if_pos h

theorem frameEffect_of_fits (h : s.regs.pixelCount ≤ s.params.pixCap) :
    frameEffect s = (maskEffect s).bind locateEffect := by
  rw [frameEffect, if_neg (not_lt.mpr h)]
  cases maskEffect s <;> rfl

end Effects

section Completion
variable {c : Command} {s t : State}

/-- A completion step whose effect answers, for each command (R122). -/
theorem exec_of_effect (h : s.completes c = true) (he : commandEffect c s = .ok t) :
    exec c.instr s = .next t.finish := by
  rw [exec_command, runCommand_finish h he]

/-- A completion step whose effect faults, for each command (R122, R226). -/
theorem exec_of_effect_error {f : Fault} (h : s.completes c = true) (he : commandEffect c s = .error f) :
    exec c.instr s = .fault f := by
  rw [exec_command, runCommand_fault h he]

end Completion

end Sys2Proof.Machine
end

section
/-! PROOFS. The converter (R140 to R148): the integers of a conversion by its sector, their bounds, the hue, saturation and value
as rationals, and what CONV_OUT and CONV_HN hold of them. -/

namespace Sys2Proof.Machine

open Sys2Proof.Claims

/-! Operand codes (R103). -/

theorem hueValue_toRat (h : Half) : (hueValue h).toRat = (h.toNat : ℚ) / 128 := rfl

theorem unitValue_toRat (v : Half) : (unitValue v).toRat = (v.toNat : ℚ) / 65535 := rfl

/-- Settles O11: a code below 2¹⁶ is the natural it is written from. -/
theorem operandCodesAreExact : Obligations.OperandCodesAreExact := by
  refine ⟨hueValue_toRat, unitValue_toRat, fun c => ?_, fun k hk => ?_, fun w => rfl⟩
  · have hc : (BitVec.ofNat 16 (257 * c.toNat)).toNat = 257 * c.toNat := Nat.mod_eq_of_lt (by omega)
    rw [unitValue_toRat, hc]
    push_cast
    ring
  · have hh : (BitVec.ofNat 16 (128 * k)).toNat = 128 * k := Nat.mod_eq_of_lt (by omega)
    rw [hueValue_toRat, hh]
    push_cast
    ring

/-! The integers of a conversion. -/

section Integers
variable (p : Pixel)

theorem conv_max : (conv p).max = max p.red.toNat (max p.green.toNat p.blue.toNat) := rfl

theorem conv_min : (conv p).min = min p.red.toNat (min p.green.toNat p.blue.toNat) := rfl

theorem conv_delta : (conv p).delta = (conv p).max - (conv p).min := rfl

theorem conv_hn :
    (conv p).hn = hueNumerator p.red.toNat p.green.toNat p.blue.toNat (conv p).delta (conv p).sect := rfl

theorem conv_max_le : (conv p).max ≤ 255 := by
  rw [conv_max]
  omega

theorem conv_min_add_delta : (conv p).min + (conv p).delta = (conv p).max := by
  rw [conv_delta, conv_max, conv_min]
  omega

theorem conv_min_le : (conv p).min ≤ 255 :=
  ((Nat.le_add_right _ _).trans_eq (conv_min_add_delta p)).trans (conv_max_le p)

theorem conv_delta_le : (conv p).delta ≤ 255 :=
  (Nat.sub_le _ _).trans (conv_max_le p)

/-- R140 to R142 as the spec writes them. -/
theorem convSpec_conv :
    ConvSpec p.red.toNat p.green.toNat p.blue.toNat (conv p).max (conv p).min (conv p).delta (conv p).sect (conv p).hn := by
  refine ⟨rfl, rfl, rfl, rfl, fun h => ?_, fun h hgb => ?_, fun h hgb => ?_, fun h => ?_, fun h => ?_⟩
  all_goals rw [conv_hn, h]
  case refine_2 => exact if_pos (by omega)
  case refine_3 => exact if_neg (by omega)
  all_goals rfl

/-- The sector of a pixel and its hue numerator (R141, R142): achromatic, red with the hue to either side of 0 degrees, green
or blue. -/
theorem conv_sector_cases :
    ((conv p).delta = 0 ∧ (conv p).sect = 0 ∧ (conv p).hn = 0) ∨
      (0 < (conv p).delta ∧ (conv p).sect = 1 ∧ (conv p).max = p.red.toNat ∧ p.blue.toNat ≤ p.green.toNat ∧
          (conv p).hn = (p.green.toNat : Int) - p.blue.toNat) ∨
        (0 < (conv p).delta ∧ (conv p).sect = 1 ∧ (conv p).max = p.red.toNat ∧ p.green.toNat < p.blue.toNat ∧
            (conv p).hn = 6 * ((conv p).delta : Int) + ((p.green.toNat : Int) - p.blue.toNat)) ∨
          (0 < (conv p).delta ∧ (conv p).sect = 2 ∧ p.red.toNat < (conv p).max ∧ (conv p).max = p.green.toNat ∧
              (conv p).hn = 2 * ((conv p).delta : Int) + ((p.blue.toNat : Int) - p.red.toNat)) ∨
            (0 < (conv p).delta ∧ (conv p).sect = 3 ∧ p.red.toNat < (conv p).max ∧ p.green.toNat < (conv p).max ∧
              (conv p).max = p.blue.toNat ∧
                (conv p).hn = 4 * ((conv p).delta : Int) + ((p.red.toNat : Int) - p.green.toNat)) := by
  obtain ⟨-, -, -, hsect, h0, h1, h1', h2, h3⟩ := convSpec_conv p
  have hmax := conv_max p
  split_ifs at hsect with hd hr hg
  · exact .inl ⟨hd, hsect, h0 hsect⟩
  · rcases le_or_gt p.blue.toNat p.green.toNat with hgb | hgb
    · exact .inr (.inl ⟨by omega, hsect, hr, hgb, h1 hsect hgb⟩)
    · exact .inr (.inr (.inl ⟨by omega, hsect, hr, hgb, h1' hsect hgb⟩))
  · exact .inr (.inr (.inr (.inl ⟨by omega, hsect, by omega, hg, h2 hsect⟩)))
  · exact .inr (.inr (.inr (.inr ⟨by omega, hsect, by omega, by omega, by omega, h3 hsect⟩)))

theorem conv_sect_eq_zero_iff : (conv p).sect = 0 ↔ (conv p).delta = 0 := by
  rcases conv_sector_cases p with h | h | h | h | h <;> omega

theorem conv_sect_lt : (conv p).sect < 4 := by
  rcases conv_sector_cases p with h | h | h | h | h <;> omega

theorem conv_hn_of_delta_eq_zero (h : (conv p).delta = 0) : (conv p).hn = 0 := by
  rcases conv_sector_cases p with h' | h' | h' | h' | h' <;> omega

theorem conv_hn_nonneg : 0 ≤ (conv p).hn := by
  have hmax := conv_max p
  have hmin := conv_min p
  have hdelta := conv_delta p
  rcases conv_sector_cases p with h | h | h | h | h <;> omega

/-- The hue stays below 360 degrees: a difference of channels is at least 1 where 6·DELTA is added to it (R142). -/
theorem conv_hn_lt (h : 0 < (conv p).delta) : (conv p).hn < 6 * ((conv p).delta : Int) := by
  have hmax := conv_max p
  have hmin := conv_min p
  have hdelta := conv_delta p
  rcases conv_sector_cases p with h' | h' | h' | h' | h' <;> omega

theorem conv_hn_le : (conv p).hn ≤ 1529 := by
  have hmax := conv_max_le p
  have hdelta := conv_delta p
  rcases Nat.eq_zero_or_pos (conv p).delta with h | h
  · rw [conv_hn_of_delta_eq_zero p h]
    decide
  · have := conv_hn_lt p h
    omega

end Integers

/-! Hue, saturation and value. -/

section Rationals
variable (p : Pixel)

theorem Conv.hue_toRat (c : Conv) :
    c.hue.toRat = if c.delta = 0 then 0 else 60 * (c.hn : ℚ) / (c.delta : ℚ) := by
  unfold Conv.hue
  split_ifs with h1 h2
  · omega
  · simp
  · simp
  · omega

theorem Conv.saturation_toRat (c : Conv) :
    c.saturation.toRat = if c.max = 0 then 0 else (c.delta : ℚ) / (c.max : ℚ) := by
  unfold Conv.saturation
  split_ifs with h1 h2
  · omega
  · simp
  · simp
  · omega

theorem Conv.value_toRat (c : Conv) : c.value.toRat = (c.max : ℚ) / 255 := rfl

theorem hue_conv_nonneg : 0 ≤ (conv p).hue.toRat := by
  have h : (0 : ℚ) ≤ (conv p).hn := by exact_mod_cast conv_hn_nonneg p
  rw [Conv.hue_toRat]
  split_ifs
  · rfl
  · positivity

theorem hue_conv_lt : (conv p).hue.toRat < 360 := by
  rw [Conv.hue_toRat]
  split_ifs with h
  · norm_num
  · have hpos : 0 < (conv p).delta := Nat.pos_of_ne_zero h
    have hhn : ((conv p).hn : ℚ) < 6 * (conv p).delta := by exact_mod_cast conv_hn_lt p hpos
    rw [div_lt_iff₀ (by exact_mod_cast hpos)]
    linarith

theorem saturation_conv_nonneg : 0 ≤ (conv p).saturation.toRat := by
  rw [Conv.saturation_toRat]
  split_ifs <;> positivity

theorem saturation_conv_le : (conv p).saturation.toRat ≤ 1 := by
  have hle : ((conv p).delta : ℚ) ≤ (conv p).max := by exact_mod_cast Nat.sub_le _ _
  rw [Conv.saturation_toRat]
  split_ifs
  · norm_num
  · exact div_le_one_of_le₀ hle (by positivity)

theorem value_conv_nonneg : 0 ≤ (conv p).value.toRat := by
  rw [Conv.value_toRat]
  positivity

theorem value_conv_le : (conv p).value.toRat ≤ 1 := by
  have hle : ((conv p).max : ℚ) ≤ 255 := by exact_mod_cast conv_max_le p
  rw [Conv.value_toRat]
  linarith

/-- A pixel without saturation is a grey (R147): black has DELTA = 0 too. -/
theorem saturation_conv_eq_zero_iff : (conv p).saturation.toRat = 0 ↔ p.red = p.green ∧ p.green = p.blue := by
  have hdelta : (conv p).saturation.toRat = 0 ↔ (conv p).delta = 0 := by
    have := conv_delta p
    rw [Conv.saturation_toRat]
    split_ifs with h
    · exact iff_of_true rfl (by omega)
    · simp [h]
  rw [hdelta, conv_delta, conv_max, conv_min, ← BitVec.toNat_inj, ← BitVec.toNat_inj]
  omega

/-- A hue of 60 degrees is HN = DELTA for a chromatic pixel (R142). -/
theorem hue_conv_eq_sixty_iff : (conv p).hue.toRat = 60 ↔ 0 < (conv p).delta ∧ (conv p).hn = (conv p).delta := by
  rw [Conv.hue_toRat]
  split_ifs with h
  · simp [h]
  · have hpos : 0 < (conv p).delta := Nat.pos_of_ne_zero h
    have hcast : ((conv p).hn : ℚ) = (conv p).delta ↔ (conv p).hn = (conv p).delta := by exact_mod_cast Iff.rfl
    rw [div_eq_iff (by exact_mod_cast h), mul_right_inj' (by norm_num), hcast]
    simp [hpos]

end Rationals

/-- Settles O12: `convSpec_conv` with the bounds of HN, and the hue as `Conv.hue_toRat` has it. -/
theorem converterIntegers : Obligations.ConverterIntegers := fun p =>
  ⟨convSpec_conv p, conv_hn_nonneg p, fun h => Int.le_sub_one_of_lt (conv_hn_lt p h), conv_hn_le p, (conv p).hue_toRat⟩

/-- Settles O14: in each tie the sector taken gives one formula, and DELTA, the difference of the tied channels and the third,
gives the other. -/
theorem hueIndependentOfTies : Obligations.HueIndependentOfTies := by
  intro p
  have hmax := conv_max p
  have hmin := conv_min p
  have hdelta := conv_delta p
  refine ⟨fun heq hlt => ?_, fun heq hlt => ?_, fun heq hlt => ?_⟩
  all_goals
    have heq := congrArg BitVec.toNat heq
    rcases conv_sector_cases p with h | h | h | h | h <;> omega

/-- Settles O15: value and saturation by their equations over the rationals, each bound by the lemma of its name. -/
theorem converterValueSaturationBounds : Obligations.ConverterValueSaturationBounds := fun p =>
  ⟨(conv p).value_toRat, (conv p).saturation_toRat, saturation_conv_nonneg p, saturation_conv_le p, value_conv_nonneg p,
    value_conv_le p, saturation_conv_eq_zero_iff p, hue_conv_nonneg p, hue_conv_lt p⟩

/-- Settles O16: HN = DELTA forces the red sector, where HN is G − B and DELTA is R − min, so G is the maximum too. -/
theorem yellowHueExactly : Obligations.YellowHueExactly := by
  intro p
  have hmax := conv_max p
  have hmin := conv_min p
  have hdelta := conv_delta p
  rw [hue_conv_eq_sixty_iff, ← BitVec.toNat_inj]
  rcases conv_sector_cases p with h | h | h | h | h <;> omega

/-! CONV_OUT and CONV_HN (R145): every integer of a conversion fits its field. -/

section Fields
variable (s : State) (p : Pixel)

theorem setConv_conv_max : (s.setConv (conv p)).regs.convOut.max.toNat = (conv p).max :=
  Nat.mod_eq_of_lt (Nat.lt_succ_of_le (conv_max_le p))

theorem setConv_conv_min : (s.setConv (conv p)).regs.convOut.min.toNat = (conv p).min :=
  Nat.mod_eq_of_lt (Nat.lt_succ_of_le (conv_min_le p))

theorem setConv_conv_delta : (s.setConv (conv p)).regs.convOut.delta.toNat = (conv p).delta :=
  Nat.mod_eq_of_lt (Nat.lt_succ_of_le (conv_delta_le p))

theorem setConv_conv_sect : (s.setConv (conv p)).regs.convOut.sect.toNat = (conv p).sect :=
  Nat.mod_eq_of_lt (conv_sect_lt p)

theorem setConv_conv_hn : ((s.setConv (conv p)).regs.convHn.toNat : Int) = (conv p).hn := by
  have hnonneg := conv_hn_nonneg p
  have hle := conv_hn_le p
  rw [State.setConv_regs_convHn, BitVec.toNat_ofInt]
  omega

/-- The registers a conversion is written to hold its integers. -/
theorem convSpec_setConv :
    ConvSpec p.red.toNat p.green.toNat p.blue.toNat (s.setConv (conv p)).regs.convOut.max.toNat
      (s.setConv (conv p)).regs.convOut.min.toNat (s.setConv (conv p)).regs.convOut.delta.toNat
      (s.setConv (conv p)).regs.convOut.sect.toNat (s.setConv (conv p)).regs.convHn.toNat := by
  rw [setConv_conv_max, setConv_conv_min, setConv_conv_delta, setConv_conv_sect, setConv_conv_hn]
  exact convSpec_conv p

end Fields

/-- Settles O13: the next state is `State.setConv` of the pixel's conversion, finished. -/
theorem convertCompletes : Obligations.ConvertCompletes := by
  intro s h
  exact ⟨_, exec_of_effect h rfl, convSpec_setConv s (pixelOfWord s.regs.pixIn), rfl⟩

end Sys2Proof.Machine
end

section
/-! PROOFS. The scorer's identity, symmetry, flags and zero-tolerance bound (R168, R169), and the completions of NOP, SCORE_PIX and
SCORE_HSV. -/

namespace Sys2Proof.Machine

open Sys2Proof.Claims

/-! Symmetry: a difference enters the score by its absolute value or its square only. -/

theorem Frac.abs_sub_comm (a b : Frac) : (a.sub b).abs = (b.sub a).abs := by
  simp only [Frac.sub, Frac.abs, Frac.mk.injEq]
  exact ⟨congrArg Nat.cast (by rw [← Int.natAbs_neg, neg_sub]), Nat.mul_comm _ _⟩

theorem Frac.sub_mul_self_comm (a b : Frac) : (a.sub b).mul (a.sub b) = (b.sub a).mul (b.sub a) := by
  simp only [Frac.sub, Frac.mul, Frac.mk.injEq]
  exact ⟨by ring, by ring⟩

theorem cyclicHueDiff_comm (a b : Frac) : cyclicHueDiff a b = cyclicHueDiff b a := by
  simp only [cyclicHueDiff, Frac.abs_sub_comm a b]

theorem squaredDistance_comm (dh : Frac) (x y : Hsv) : squaredDistance dh x y = squaredDistance dh y x := by
  simp only [squaredDistance, Frac.sub_mul_self_comm x.sat y.sat, Frac.sub_mul_self_comm x.val y.val]

theorem score_comm (x y : Hsv) (tol : Frac) : score x y tol = score y x tol := by
  simp only [score, cyclicHueDiff_comm x.hue y.hue, squaredDistance_comm _ x y]

/-! Identity. -/

theorem cyclicHueDiff_self (a : Frac) : (cyclicHueDiff a a).toRat = 0 := by
  simp [cyclicHueDiff_toRat]

theorem hueValue_nonneg (h : Half) : 0 ≤ (hueValue h).toRat := by
  rw [hueValue_toRat]
  positivity

/-- Equal triples pass every gate, at distance 0 (R168). -/
theorem score_self (x : Hsv) (tol : Half) : score x x (hueValue tol) = { byte := 255, gate := false, neg := false } := by
  have hd : (squaredDistance (cyclicHueDiff x.hue x.hue) x x).toRat = 0 := by
    simp [squaredDistance_toRat, cyclicHueDiff_self]
  have hm : scaledDistance (squaredDistance (cyclicHueDiff x.hue x.hue) x x) = 0 :=
    Nat.le_zero.mp ((scaledDistance_le_iff hd.ge 0).mpr (by simp [hd]))
  have hn : (Frac.ofInt 900).lt (squaredDistance (cyclicHueDiff x.hue x.hue) x x) = false := by
    rw [Bool.eq_false_iff, Ne, Frac.lt_iff, hd]
    norm_num
  rw [score_of_passed (by rw [cyclicHueDiff_self]; exact hueValue_nonneg tol), hm, hn]
  rfl

/-! The flags exclude a byte. -/

/-- Beyond distance 30 the clamped byte is 0: m exceeds 255 there (R164). -/
theorem byte_eq_zero_of_far {d2 : Frac} (h : 900 < d2.toRat) : BitVec.ofNat 8 (255 - min (scaledDistance d2) 255) = 0 := by
  have hm : ¬ scaledDistance d2 ≤ 255 := by
    rw [scaledDistance_le_iff (by linarith)]
    push_cast
    linarith
  rw [Nat.min_eq_right (not_le.mp hm).le]
  rfl

/-- GATE and NEG each exclude a byte and the other flag (R41, R168). -/
theorem score_consistent (x y : Hsv) (tol : Frac) : (score x y tol).Consistent := by
  rcases lt_or_ge tol.toRat (cyclicHueDiff x.hue y.hue).toRat with h | h
  · rw [score_of_gated h]
    exact ⟨fun _ => ⟨rfl, rfl⟩, fun _ => rfl⟩
  · rw [score_of_passed h]
    refine ⟨fun hg => by simp at hg, fun hn => byte_eq_zero_of_far ?_⟩
    simpa [Frac.lt_iff] using hn

/-- Settles O18: `score_self`, `score_comm` and `score_consistent`. -/
theorem scoreIdentityAndSymmetry : Obligations.ScoreIdentityAndSymmetry := by
  refine ⟨score_self, score_comm, fun x y tol => ?_⟩
  obtain ⟨hgate, hneg⟩ := score_consistent x y tol
  refine ⟨fun h => (hgate h).1, fun h => ⟨hneg h, Bool.eq_false_iff.mpr fun hg => ?_⟩⟩
  rw [(hgate hg).2] at h
  cases h

/-! The zero-tolerance bound (R169). -/

/-- Two hues below 360 degrees whose cyclic difference is at most 0 are at difference 0: the difference never reaches 360. -/
theorem cyclicHueDiff_eq_zero {a b : Frac} (ha : 0 ≤ a.toRat ∧ a.toRat < 360) (hb : 0 ≤ b.toRat ∧ b.toRat < 360)
    (h : (cyclicHueDiff a b).toRat ≤ 0) : (cyclicHueDiff a b).toRat = 0 := by
  have hraw : |a.toRat - b.toRat| < 360 := abs_lt.mpr ⟨by linarith [ha.1, hb.2], by linarith [ha.2, hb.1]⟩
  have hnonneg := abs_nonneg (a.toRat - b.toRat)
  rw [cyclicHueDiff_toRat] at h ⊢
  split_ifs at h ⊢ <;> linarith

theorem unitValue_nonneg (v : Half) : 0 ≤ (unitValue v).toRat := by
  rw [unitValue_toRat]
  positivity

theorem unitValue_le_one (v : Half) : (unitValue v).toRat ≤ 1 := by
  have hv : (v.toNat : ℚ) ≤ 65535 := by exact_mod_cast Nat.le_of_lt_succ v.isLt
  rw [unitValue_toRat]
  linarith

theorem sq_sub_le_one {a b : ℚ} (ha : 0 ≤ a ∧ a ≤ 1) (hb : 0 ≤ b ∧ b ≤ 1) : (a - b) ^ 2 ≤ 1 :=
  (sq_le_one_iff_abs_le_one _).mpr (abs_le.mpr ⟨by linarith [ha.1, hb.2], by linarith [ha.2, hb.1]⟩)

/-- A squared distance of at most 2 costs 13 at most: 289·2 ≤ 4·13². -/
theorem byte_ge_of_near {d2 : Frac} (h0 : 0 ≤ d2.toRat) (h : d2.toRat ≤ 2) :
    242 ≤ (BitVec.ofNat 8 (255 - min (scaledDistance d2) 255)).toNat := by
  have hm : scaledDistance d2 ≤ 13 := by
    rw [scaledDistance_le_iff h0]
    push_cast
    linarith
  rw [BitVec.toNat_ofNat]
  omega

/-- Settles O19: what passes the gate is at hue difference 0, so at squared distance at most 2, by saturation and value. -/
theorem zeroToleranceByteBound : Obligations.ZeroToleranceByteBound := by
  intro r p htol htgt
  have htolr : r.tolerance.toRat = 0 := by simp [Regs.tolerance, hueValue_toRat, htol]
  have hcode : (r.tgtH.toNat : ℚ) < 46080 := by exact_mod_cast htgt
  have hlt : r.target.hue.toRat < 360 := by
    change (r.tgtH.toNat : ℚ) / 128 < 360
    linarith
  rcases lt_or_ge r.tolerance.toRat (cyclicHueDiff r.target.hue (conv p).hsv.hue).toRat with h | h
  · exact .inl (by rw [scorePixel, score_of_gated h])
  · refine .inr ?_
    have hdh : (cyclicHueDiff r.target.hue (conv p).hsv.hue).toRat = 0 :=
      cyclicHueDiff_eq_zero ⟨hueValue_nonneg r.tgtH, hlt⟩ ⟨hue_conv_nonneg p, hue_conv_lt p⟩ (h.trans_eq htolr)
    have hsat : (r.target.sat.toRat - (conv p).hsv.sat.toRat) ^ 2 ≤ 1 :=
      sq_sub_le_one ⟨unitValue_nonneg _, unitValue_le_one _⟩ ⟨saturation_conv_nonneg p, saturation_conv_le p⟩
    have hval : (r.target.val.toRat - (conv p).hsv.val.toRat) ^ 2 ≤ 1 :=
      sq_sub_le_one ⟨unitValue_nonneg _, unitValue_le_one _⟩ ⟨value_conv_nonneg p, value_conv_le p⟩
    rw [scorePixel, score_of_passed h]
    refine byte_ge_of_near (squaredDistance_nonneg _ _ _) ?_
    rw [squaredDistance_toRat, hdh]
    linarith

/-! The completions. -/

/-- Settles O10: Exec_NOP writes nothing, so the completion is `State.finish` alone. -/
theorem nopCompletes : Obligations.NopCompletes := fun _ h => exec_of_effect (c := .nop) h rfl

/-- Settles O20: the next state is `State.setConv` and `State.setScore` of the pixel, finished. -/
theorem scorePixCompletes : Obligations.ScorePixCompletes := by
  intro s h
  exact ⟨_, exec_of_effect (c := .scorePix) h rfl, convSpec_setConv s (pixelOfWord s.regs.pixIn), rfl, rfl⟩

/-- Settles O21: the effect reads the sample and target registers and sets SCORE_OUT, and the completion finishes it. -/
theorem scoreHsvCompletes : Obligations.ScoreHsvCompletes := fun _ h => exec_of_effect (c := .scoreHsv) h rfl

end Sys2Proof.Machine
end

section
/-! PROOFS. MASK (R180 to R183): over written pixels the effect is the mask and MASK_LEN; over an unwritten byte it is the fault of
the first; and the length checks of MASK, LOCATE and FRAME. -/

namespace Sys2Proof.Machine

open Sys2Proof.Claims

/-- Written pixels can all be read (R182). -/
theorem readPixel_of_written {m : Memory} {n : Nat} (h : ∀ o < 4 * n, Written m o) :
    ∃ px : Nat → Pixel, ∀ i < n, readPixel m i = .ok (px i) := by
  have hread (i : Nat) (hi : i < n) : ∃ p, readPixel m i = .ok p := by
    cases hp : readPixel m i with
    | ok p => exact ⟨p, rfl⟩
    | error f =>
      obtain ⟨k, hk, -, hnone, -⟩ := readPixel_error hp
      have := h (4 * i + k) (by omega)
      simp [Written, hnone] at this
  have : Nonempty Pixel := ⟨⟨0, 0, 0⟩⟩
  choose! px hpx using hread
  exact ⟨px, hpx⟩

theorem pixelCount_lt (r : Regs) : r.pixelCount < 2 ^ 32 := by
  have := r.bufLen.isLt
  simp only [Regs.pixelCount]
  omega

section Effect
variable {s t : State}

/-- MASK over written pixels: the match bytes below M, every other byte as before, and MASK_LEN (R182, R183). -/
theorem maskEffect_of_written (hlen : s.regs.pixelCount ≤ s.params.pixCap)
    (h : ∀ o < 4 * s.regs.pixelCount, Written s.pixbuf o) :
    ∃ out, maskEffect s = .ok (s.setMask out s.regs.pixelCount) ∧
      (∀ i < s.regs.pixelCount, ∀ p, PixelAt s.pixbuf i p → out.read i = some (scorePixel s.regs p).byte) ∧
        ∀ o, s.regs.pixelCount ≤ o → out.read o = s.maskbuf.read o := by
  obtain ⟨px, hpx⟩ := readPixel_of_written h
  obtain ⟨out, hout, hread⟩ := maskLoop_ok (r := s.regs) s.regs.pixelCount 0 s.maskbuf fun j _ hj => hpx j (by omega)
  refine ⟨out, ?_, fun i hi p hp => ?_, fun o ho => ?_⟩
  · rw [maskEffect_of_fits hlen, hout]
    rfl
  · have hpi : px i = p := Except.ok.inj ((hpx i hi).symm.trans (readPixel_ok.mpr hp))
    rw [hread i, if_pos (by omega), hpi]
  · rw [hread o, if_neg (by omega)]

/-- A mask effect that answers after its length check has read every pixel, so every one of their bytes is written. -/
theorem written_of_maskLoop_ok {r : Regs} {pix out out' : Memory} {n : Nat} (h : maskLoop r pix n 0 out = .ok out') :
    ∀ o < 4 * n, Written pix o := by
  intro o ho
  obtain ⟨p, hp⟩ := maskLoop_reads n 0 out h (o / 4) (by omega) (by omega)
  obtain ⟨hb, hg, hr, ha⟩ := readPixel_ok.mp hp
  have hmod : o = 4 * (o / 4) ∨ o = 4 * (o / 4) + 1 ∨ o = 4 * (o / 4) + 2 ∨ o = 4 * (o / 4) + 3 := by omega
  rcases hmod with h | h | h | h <;> rw [h]
  · simp [Written, hb]
  · simp [Written, hg]
  · simp [Written, hr]
  · exact ha

/-- MASK over an unwritten byte faults at the first (R182, R226; log entry 6). -/
theorem maskEffect_of_unwritten {o : Nat} (hlen : s.regs.pixelCount ≤ s.params.pixCap)
    (ho : o < 4 * s.regs.pixelCount) (hnone : s.pixbuf.read o = none) (hfirst : ∀ o' < o, Written s.pixbuf o') :
    maskEffect s = .error (.uninitRead .pixbuf o) := by
  have hloop : maskLoop s.regs s.pixbuf s.regs.pixelCount 0 s.maskbuf = .error (.uninitRead .pixbuf o) := by
    cases hl : maskLoop s.regs s.pixbuf s.regs.pixelCount 0 s.maskbuf with
    | ok out =>
      have := written_of_maskLoop_ok hl o ho
      simp [Written, hnone] at this
    | error f =>
      obtain ⟨o₁, -, -, rfl, hnone₁, hfirst₁⟩ := maskLoop_error _ _ _ hl
      rcases Nat.lt_trichotomy o₁ o with hlt | rfl | hgt
      · have := hfirst o₁ hlt
        simp [Written, hnone₁] at this
      · rfl
      · have := hfirst₁ o (by omega) hgt
        simp [hnone] at this
  rw [maskEffect_of_fits hlen, hloop]
  rfl

end Effect

/-- Settles O22: the next state is `State.setMask` of the bytes of `maskEffect_of_written`, finished. -/
theorem maskCompletes : Obligations.MaskCompletes := by
  rintro s n h rfl hlen hw
  obtain ⟨out, he, hbytes, hrest⟩ := maskEffect_of_written hlen hw
  exact ⟨_, exec_of_effect (c := .mask) h he, hbytes, hrest, Nat.mod_eq_of_lt (pixelCount_lt s.regs), rfl⟩

/-- Settles O23: the check stands in front of every read, so the effect is `State.signalErrLen` alone. -/
theorem lengthCheckFails : Obligations.LengthCheckFails := by
  intro s c h hlen
  refine exec_of_effect (t := s.signalErrLen) h ?_
  rcases hlen with ⟨rfl | rfl, hlen⟩ | ⟨rfl, hlen⟩
  · exact maskEffect_of_oversize hlen
  · exact frameEffect_of_oversize hlen
  · exact locateEffect_of_oversize hlen

/-- Settles O24: FRAME's fault is that of its mask phase, and MASK's is at the first unwritten byte. -/
theorem maskFaultsOnUnwrittenPixel : Obligations.MaskFaultsOnUnwrittenPixel := by
  intro s c o hc h hlen ho hnone hfirst
  have hmask := maskEffect_of_unwritten hlen ho hnone hfirst
  rcases hc with rfl | rfl
  · exact exec_of_effect_error h hmask
  · refine exec_of_effect_error h ((frameEffect_of_fits hlen).trans ?_)
    rw [hmask]
    rfl

end Sys2Proof.Machine
end

section
/-! PROOFS. LOCATE (R191 to R198): the model's candidate sets against the spec's edges, the outcome of a locate step by step, and
its completion in each case. -/

namespace Sys2Proof.Machine

open Sys2Proof.Claims

/-! Hits and edges. -/

section Edges
variable {m : Memory} {n p r x : Nat}

theorem hit_of_zeroByte {o : Nat} (h : ZeroByte m o) : m.hit o = false := by
  simp [Memory.hit, show m.read o = some 0 from h]

/-- A written byte without a hit is 0 (R201). -/
theorem zeroByte_of_written {o : Nat} (hw : Written m o) (h : ¬ NonZeroByte m o) : ZeroByte m o := by
  obtain ⟨b, hb⟩ := Option.isSome_iff_exists.mp hw
  by_cases h0 : b = 0
  · exact hb.trans (congrArg some h0)
  · exact absurd ⟨b, hb, h0⟩ h

theorem probeRows_eq_nil (h : ∀ y < n / 2, ZeroByte m (y * n + p)) : probeRows m n p = [] := by
  refine List.eq_nil_iff_forall_not_mem.mpr fun y hy => ?_
  obtain ⟨hlt, hhit⟩ := mem_probeRows.mp hy
  rw [hit_of_zeroByte (h y hlt)] at hhit
  cases hhit

theorem leftCols_eq_nil (h : ∀ x ≤ n / 2, ZeroByte m (r * n + x)) : leftCols m n r = [] := by
  refine List.eq_nil_iff_forall_not_mem.mpr fun x hx => ?_
  obtain ⟨hle, hhit⟩ := mem_leftCols.mp hx
  rw [hit_of_zeroByte (h x hle)] at hhit
  cases hhit

theorem rightCols_eq_nil (h : ∀ x < n, n / 2 < x → ZeroByte m (r * n + x)) : rightCols m n r = [] := by
  refine List.eq_nil_iff_forall_not_mem.mpr fun x hx => ?_
  obtain ⟨hlt, hmid, hhit⟩ := mem_rightCols.mp hx
  rw [hit_of_zeroByte (h x hlt hmid)] at hhit
  cases hhit

/-- R194: the left edge is the greatest column of its candidates. -/
theorem leftCols_max (h : IsLeftEdge m n r x) : (leftCols m n r).max? = some x := by
  obtain ⟨hle, hhit, hzero⟩ := h
  refine List.max?_eq_some_iff.mpr ⟨mem_leftCols.mpr ⟨hle, (m.hit_iff _).mpr hhit⟩, fun z hz => not_lt.mp fun hlt => ?_⟩
  obtain ⟨hzle, hzhit⟩ := mem_leftCols.mp hz
  rw [hit_of_zeroByte (hzero z hzle hlt)] at hzhit
  cases hzhit

/-- R195: the right edge is the least column of its candidates. -/
theorem rightCols_min (h : IsRightEdge m n r x) : (rightCols m n r).min? = some x := by
  obtain ⟨hmid, hlt, hhit, hzero⟩ := h
  refine List.min?_eq_some_iff.mpr
    ⟨mem_rightCols.mpr ⟨hlt, hmid, (m.hit_iff _).mpr hhit⟩, fun z hz => not_lt.mp fun hzx => ?_⟩
  obtain ⟨-, hzmid, hzhit⟩ := mem_rightCols.mp hz
  rw [hit_of_zeroByte (hzero z hzx hzmid)] at hzhit
  cases hzhit

/-- Over a written probe column a row outside the candidates holds 0 there (R193, R201). -/
theorem zeroByte_of_not_mem_probeRows {z : Nat} (hw : ∀ y < n / 2, Written m (y * n + p)) (hz : z < n / 2)
    (h : z ∉ probeRows m n p) : ZeroByte m (z * n + p) :=
  zeroByte_of_written (hw z hz) fun hhit => h (mem_probeRows.mpr ⟨hz, (m.hit_iff _).mpr hhit⟩)

end Edges

/-- Over a written probe column the probe row of the spec is the model's, for both row rules (R193). -/
theorem isProbeRow_iff {s : State} {n p y : Nat} (hw : ∀ z < n / 2, Written s.maskbuf (z * n + p)) :
    IsProbeRow s n p y ↔ probeRow s.regs.rowSel (probeRows s.maskbuf n p) = some y := by
  have hmem (z : Nat) : z ∈ probeRows s.maskbuf n p ↔ z < n / 2 ∧ NonZeroByte s.maskbuf (z * n + p) := by
    rw [mem_probeRows, Memory.hit_iff]
  have hnot {z : Nat} (h : ZeroByte s.maskbuf (z * n + p)) : z ∉ probeRows s.maskbuf n p := fun hz => by
    simpa [hit_of_zeroByte h] using (mem_probeRows.mp hz).2
  constructor
  · rintro ⟨-, hy, hhit, hnear, htop⟩
    cases hsel : s.regs.rowSel with
    | nearest =>
      refine probeRow_nearest.mpr ⟨(hmem y).mpr ⟨hy, hhit⟩, fun z hz => not_lt.mp fun hlt => ?_⟩
      exact hnot (hnear hsel z ((hmem z).mp hz).1 hlt) hz
    | topmost =>
      refine probeRow_topmost.mpr ⟨(hmem y).mpr ⟨hy, hhit⟩, fun z hz => not_lt.mp fun hlt => ?_⟩
      exact hnot (htop hsel z hlt) hz
  · intro h
    obtain ⟨hy, hhit⟩ := (hmem y).mp (probeRow_mem h)
    refine ⟨hw, hy, hhit, fun hsel z hz hlt => ?_, fun hsel z hlt => ?_⟩
    · rw [hsel] at h
      exact zeroByte_of_not_mem_probeRows hw hz fun hmem => absurd ((probeRow_nearest.mp h).2 z hmem) (not_le.mpr hlt)
    · rw [hsel] at h
      exact zeroByte_of_not_mem_probeRows hw (hlt.trans hy) fun hmem =>
        absurd ((probeRow_topmost.mp h).2 z hmem) (not_le.mpr hlt)

/-! The outcome of a locate, step by step. -/

section Outcome
variable {m : Memory} {n p : Nat} {sel : RowSel}

theorem firstUnwritten_probeOffsets (hw : ∀ y < n / 2, Written m (y * n + p)) :
    m.firstUnwritten (probeOffsets n p) = none := by
  refine Memory.firstUnwritten_none.mpr fun o ho => ?_
  obtain ⟨y, hy, rfl⟩ := mem_probeOffsets.mp ho
  exact hw y hy

theorem firstUnwritten_rowOffsets {r : Nat} (hw : ∀ x < n, Written m (r * n + x)) :
    m.firstUnwritten (rowOffsets n r) = none := by
  refine Memory.firstUnwritten_none.mpr fun o ho => ?_
  obtain ⟨x, hx, rfl⟩ := mem_rowOffsets.mp ho
  exact hw x hx

/-- Step 1 fails (R193). -/
theorem locateOutcome_of_no_hit (hp : p < n) (h : ∀ y < n / 2, ZeroByte m (y * n + p)) :
    locateOutcome sel m n p = .ok .noProbeRow := by
  have hw : ∀ y < n / 2, Written m (y * n + p) := fun y hy => by simp [Written, show m.read _ = some 0 from h y hy]
  have hrow : probeRow sel (probeRows m n p) = none := probeRow_none.mpr (probeRows_eq_nil h)
  rw [locateOutcome, if_neg (not_le.mpr hp), firstUnwritten_probeOffsets hw, hrow]

/-- Step 1 finds a row, and steps 2 and 3 decide (R193 to R195). -/
theorem locateOutcome_of_probeRow {row : Nat} (hp : p < n) (hw : ∀ y < n / 2, Written m (y * n + p))
    (hrow : probeRow sel (probeRows m n p) = some row) (hneck : ∀ x < n, Written m ((row + 1) * n + x)) :
    locateOutcome sel m n p = .ok (neckOutcome m n row) := by
  rw [locateOutcome, if_neg (not_le.mpr hp), firstUnwritten_probeOffsets hw, hrow]
  simp only [firstUnwritten_rowOffsets hneck]

theorem exists_firstUnwritten {offs : List Nat} {o : Nat} (ho : o ∈ offs) (h : m.read o = none) :
    ∃ o', m.firstUnwritten offs = some o' := by
  cases hf : m.firstUnwritten offs with
  | none =>
    have := Memory.firstUnwritten_none.mp hf o ho
    simp [h] at this
  | some o' => exact ⟨o', rfl⟩

/-- The probe column is read whole, before step 1 decides (R198). -/
theorem locateOutcome_of_probe_unwritten {y : Nat} (hp : p < n) (hy : y < n / 2) (h : m.read (y * n + p) = none) :
    ∃ o, locateOutcome sel m n p = .error (.uninitRead .maskbuf o) ∧ o ∈ probeOffsets n p ∧ m.read o = none := by
  obtain ⟨o, ho⟩ := exists_firstUnwritten (mem_probeOffsets.mpr ⟨y, hy, rfl⟩) h
  refine ⟨o, ?_, Memory.firstUnwritten_some ho⟩
  rw [locateOutcome, if_neg (not_le.mpr hp), ho]

/-- The row below the probe row is read whole, before step 2 decides (R198). -/
theorem locateOutcome_of_neck_unwritten {row x : Nat} (hp : p < n) (hw : ∀ y < n / 2, Written m (y * n + p))
    (hrow : probeRow sel (probeRows m n p) = some row) (hx : x < n) (h : m.read ((row + 1) * n + x) = none) :
    ∃ o, locateOutcome sel m n p = .error (.uninitRead .maskbuf o) ∧ o ∈ rowOffsets n (row + 1) ∧ m.read o = none := by
  obtain ⟨o, ho⟩ := exists_firstUnwritten (mem_rowOffsets.mpr ⟨x, hx, rfl⟩) h
  refine ⟨o, ?_, Memory.firstUnwritten_some ho⟩
  rw [locateOutcome, if_neg (not_le.mpr hp), firstUnwritten_probeOffsets hw, hrow]
  simp only [ho]

theorem neckOutcome_of_no_left {row : Nat} (h : ∀ x ≤ n / 2, ZeroByte m ((row + 1) * n + x)) :
    neckOutcome m n row = .noLeftEdge row := by
  rw [neckOutcome, leftCols_eq_nil h]
  rfl

theorem neckOutcome_of_no_right {row left : Nat} (hl : IsLeftEdge m n (row + 1) left)
    (h : ∀ x < n, n / 2 < x → ZeroByte m ((row + 1) * n + x)) : neckOutcome m n row = .noRightEdge row left := by
  rw [neckOutcome, leftCols_max hl, rightCols_eq_nil h]
  rfl

theorem neckOutcome_of_edges {row left right : Nat} (hl : IsLeftEdge m n (row + 1) left)
    (hr : IsRightEdge m n (row + 1) right) : neckOutcome m n row = .found row left right := by
  rw [neckOutcome, leftCols_max hl, rightCols_min hr]

end Outcome

/-! Its completion. -/

section Completes
variable {s : State} {n p y : Nat}

/-- The side of a locate fits its register, and with it every row and column (R45). -/
theorem side_lt_of_locateReady (h : LocateReady s n p) : n < 2 ^ 16 := by
  obtain ⟨-, -, hside, -⟩ := h
  exact side_lt_of_isSide hside

/-- A row or a column of the grid fits its 16-bit field (R42 to R44). -/
theorem toNat_half_of_lt {k : Nat} (h : k < 2 ^ 16) : (BitVec.ofNat 16 k).toNat = k := Nat.mod_eq_of_lt h

/-- A LOCATE with a probe row and the row below it written completes with the outcome of steps 2 and 3. -/
theorem exec_locate_of_isProbeRow (h : LocateReady s n p) (hp : p < n) (hy : IsProbeRow s n p y)
    (hw : ∀ x < n, Written s.maskbuf ((y + 1) * n + x)) {o : LocateOutcome} (ho : neckOutcome s.maskbuf n y = o) :
    exec .locate s = .next (s.setLocate n o).finish := by
  subst ho
  exact exec_locate_of_outcome h (locateOutcome_of_probeRow hp hy.1 ((isProbeRow_iff hy.1).mp hy) hw)

theorem exec_locate_of_outcome_error {f : Fault} (h : LocateReady s n p)
    (hf : locateOutcome s.regs.rowSel s.maskbuf n p = .error f) : exec .locate s = .fault f := by
  obtain ⟨hc, hlen, hside, rfl⟩ := h
  have hn : isqrt s.regs.maskLength = n := isqrt_eq_of_isSide hside
  have he : locateEffect s = .error f := by
    rw [locateEffect_of_fits hlen, hn, show s.regs.probe = s.regs.probeCol.toNat from rfl, hf]
    rfl
  exact exec_of_effect_error (c := .locate) hc he

end Completes

/-- Settles O26: the outcome is `noProbeRow`, whose registers are 0. -/
theorem locateNoProbeRow : Obligations.LocateNoProbeRow := by
  intro s n p h hp hzero
  exact ⟨_, exec_locate_of_outcome h (locateOutcome_of_no_hit hp hzero), locateFrame_setLocate_finish s n _,
    side_setLocate_finish h _, rfl, rfl, rfl, rfl, rfl, rfl, rfl⟩

/-- Settles O27: the outcome is `noLeftEdge`, which keeps the probe row. -/
theorem locateNoLeftEdge : Obligations.LocateNoLeftEdge := by
  intro s n p y h hp hy hw hzero
  have hrow : y < 2 ^ 16 := by have := side_lt_of_locateReady h; have := hy.2.1; omega
  exact ⟨_, exec_locate_of_isProbeRow h hp hy hw (neckOutcome_of_no_left hzero), locateFrame_setLocate_finish s n _,
    side_setLocate_finish h _, rfl, rfl, rfl, rfl, toNat_half_of_lt hrow, rfl, rfl⟩

/-- Settles O28: the outcome is `noRightEdge`, which keeps the probe row and the left edge. -/
theorem locateNoRightEdge : Obligations.LocateNoRightEdge := by
  intro s n p y left h hp hy hw hl hzero
  have hside := side_lt_of_locateReady h
  have hrow : y < 2 ^ 16 := by have := hy.2.1; omega
  have hleft : left < 2 ^ 16 := by have := hl.1; omega
  exact ⟨_, exec_locate_of_isProbeRow h hp hy hw (neckOutcome_of_no_right hl hzero), locateFrame_setLocate_finish s n _,
    side_setLocate_finish h _, rfl, rfl, rfl, rfl, toNat_half_of_lt hrow, toNat_half_of_lt hleft, rfl⟩

/-- Settles O29: the outcome is `found`, whose point and edges lie inside the grid and so fit their fields. -/
theorem locateFindsPoint : Obligations.LocateFindsPoint := by
  intro s n p y left right h hp hy hw hl hr
  have hside := side_lt_of_locateReady h
  have hrow : y < n / 2 := hy.2.1
  have hleft : left ≤ n / 2 := hl.1
  have hright : right < n := hr.2.1
  exact ⟨_, exec_locate_of_isProbeRow h hp hy hw (neckOutcome_of_edges hl hr), locateFrame_setLocate_finish s n _,
    side_setLocate_finish h _, rfl, rfl, toNat_half_of_lt (by omega), toNat_half_of_lt (by omega),
    toNat_half_of_lt (by omega), toNat_half_of_lt (by omega), toNat_half_of_lt (by omega)⟩

/-- Settles O30: the fault is that of the probe column, which is read first, or that of the row below the probe row. -/
theorem locateFaultsOnUnwrittenWindow : Obligations.LocateFaultsOnUnwrittenWindow := by
  rintro s n p h hp (⟨y, hy, hnone⟩ | ⟨y, hy, x, hx, hnone⟩)
  · obtain ⟨o, ho, hmem, hun⟩ := locateOutcome_of_probe_unwritten (sel := s.regs.rowSel) hp hy hnone
    obtain ⟨z, hz, rfl⟩ := mem_probeOffsets.mp hmem
    exact ⟨_, exec_locate_of_outcome_error h ho, hun, .inl ⟨z, hz, rfl⟩⟩
  · obtain ⟨o, ho, hmem, hun⟩ :=
      locateOutcome_of_neck_unwritten hp hy.1 ((isProbeRow_iff hy.1).mp hy) hx hnone
    obtain ⟨z, hz, rfl⟩ := mem_rowOffsets.mp hmem
    exact ⟨_, exec_locate_of_outcome_error h ho, hun, .inr ⟨y, hy, z, hz, rfl⟩⟩

/-- Settles O31: the bar gives row R and the neck row the edges 40 and 60, all other bytes being 0, so `locateFindsPoint` applies. -/
theorem barMaskGivesNeckPoint : Obligations.BarMaskGivesNeckPoint := by
  intro s r h hlen hcol hsel hcap hr hw hbar
  have hzero {y x : Nat} (hy : y < 100) (hx : x < 100) (hno : ¬ ((x = 50 ∧ y ≤ r) ∨ (y = r + 1 ∧ (x = 40 ∨ x = 60)))) :
      ZeroByte s.maskbuf (y * 100 + x) :=
    zeroByte_of_written (hw _ (by omega)) ((hbar y hy x hx).not.mpr hno)
  have hready : LocateReady s 100 50 := by
    refine ⟨h, ?_, ?_, ?_⟩ <;> simp [hlen, hcol, IsSide, hcap]
  have hprobe : IsProbeRow s 100 50 r :=
    ⟨fun z hz => hw _ (by omega), by omega, (hbar r (by omega) 50 (by omega)).mpr (by omega),
      fun _ z hz hlt => hzero (by omega) (by omega) (by omega), fun htop => by simp [hsel] at htop⟩
  have hleft : IsLeftEdge s.maskbuf 100 (r + 1) 40 :=
    ⟨by omega, (hbar (r + 1) (by omega) 40 (by omega)).mpr (by omega),
      fun z hz hlt => hzero (by omega) (by omega) (by omega)⟩
  have hright : IsRightEdge s.maskbuf 100 (r + 1) 60 :=
    ⟨by omega, by omega, (hbar (r + 1) (by omega) 60 (by omega)).mpr (by omega),
      fun z hz hlt => hzero (by omega) (by omega) (by omega)⟩
  exact locateFindsPoint s 100 50 r 40 60 hready (by decide) hprobe (fun x hx => hw _ (by omega)) hleft hright

end Sys2Proof.Machine
end

section
/-! PROOFS. FRAME (R199): its locate phase reads only bytes its mask phase has written, so it always answers; and the whole is MASK
and then LOCATE. -/

namespace Sys2Proof.Machine

open Sys2Proof.Claims

/-- A mask loop that answers has written every byte of its range (R182). -/
theorem written_maskLoop {r : Regs} {pix out out' : Memory} {n : Nat} (h : maskLoop r pix n 0 out = .ok out') :
    ∀ o < n, Written out' o := by
  intro o ho
  obtain ⟨px, hpx⟩ := readPixel_of_written (written_of_maskLoop_ok h)
  obtain ⟨out₁, h₁, hread⟩ := maskLoop_ok (r := r) n 0 out fun j _ hj => hpx j (by omega)
  obtain rfl : out' = out₁ := Except.ok.inj (h.symm.trans h₁)
  rw [Written, hread o, if_pos (by omega)]
  rfl

/-- The row below a row of the upper half lies inside the grid, so the scan window ends below N² (R198). -/
theorem neck_offset_lt {n y x : Nat} (hy : y < n / 2) (hx : x < n) : (y + 1) * n + x < n * n :=
  calc (y + 1) * n + x < (y + 1) * n + n := by omega
    _ = (y + 2) * n := by ring
    _ ≤ n * n := Nat.mul_le_mul_right n (by omega)

theorem probe_offset_lt {n y p : Nat} (hy : y < n / 2) (hp : p < n) : y * n + p < n * n :=
  calc y * n + p ≤ (y + 1) * n + p := by gcongr; omega
    _ < n * n := neck_offset_lt hy hp

/-- Over a grid whose bytes are all written a locate answers. -/
theorem locateOutcome_of_grid_written {sel : RowSel} {m : Memory} {n p : Nat} (h : ∀ o < n * n, Written m o) :
    ∃ o, locateOutcome sel m n p = .ok o :=
  locateOutcome_ok (fun hp _ hy => h _ (probe_offset_lt hy hp)) fun _ _ hrow _ hx =>
    h _ (neck_offset_lt (mem_probeRows.mp (probeRow_mem hrow)).1 hx)

/-- After a mask the locate phase answers: MASK_LEN is within PIX_CAP and the grid is written (R199). -/
theorem locateEffect_of_mask {s : State} {out : Memory} (hlen : s.regs.pixelCount ≤ s.params.pixCap)
    (hw : ∀ o < s.regs.pixelCount, Written out o) :
    ∃ o, locateEffect (s.setMask out s.regs.pixelCount) =
      .ok ((s.setMask out s.regs.pixelCount).setLocate (isqrt s.regs.pixelCount) o) := by
  have hmask : (s.setMask out s.regs.pixelCount).regs.maskLength = s.regs.pixelCount :=
    Nat.mod_eq_of_lt (pixelCount_lt s.regs)
  obtain ⟨o, ho⟩ := locateOutcome_of_grid_written (sel := (s.setMask out s.regs.pixelCount).regs.rowSel) (m := out)
    (n := isqrt s.regs.pixelCount) (p := (s.setMask out s.regs.pixelCount).regs.probe)
    fun o ho => hw o (ho.trans_le (isqrt_spec _).1)
  refine ⟨o, (locateEffect_of_fits (hmask.trans_le hlen)).trans ?_⟩
  rw [hmask, State.setMask_maskbuf, ho]
  rfl

/-- Settles O33: the mask of `maskEffect_of_written`, then the registers of the outcome of `locateEffect_of_mask`. -/
theorem frameCompletes : Obligations.FrameCompletes := by
  rintro s m n h rfl hlen hside hw
  obtain ⟨out, hmask, hbytes, hrest⟩ := maskEffect_of_written hlen hw
  have hout : ∀ o < s.regs.pixelCount, Written out o := fun i hi => by
    obtain ⟨px, hpx⟩ := readPixel_of_written hw
    rw [Written, hbytes i hi (px i) (readPixel_ok.mp (hpx i hi))]
    rfl
  obtain ⟨o, hloc⟩ := locateEffect_of_mask hlen hout
  have he : frameEffect s = .ok ((s.setMask out s.regs.pixelCount).setLocate (isqrt s.regs.pixelCount) o) := by
    rw [frameEffect_of_fits hlen, hmask]
    exact hloc
  have hn : isqrt s.regs.pixelCount = n := isqrt_eq_of_isSide hside
  have hlt : n < 2 ^ 16 := Nat.mul_self_lt_mul_self_iff.mp (hside.1.trans_lt (pixelCount_lt s.regs))
  rw [hn] at he
  exact ⟨_, exec_of_effect (c := .frame) h he, hbytes, hrest, Nat.mod_eq_of_lt (pixelCount_lt s.regs),
    toNat_half_of_lt hlt, rfl⟩

/-- Everything FRAME can write when it answers (R199): its locate phase runs on the mask just written, within PIX_CAP. -/
theorem frameEffect_writes {s t : State} (h : frameEffect s = .ok t) :
    (s.params.pixCap < s.regs.pixelCount ∧ t = s.signalErrLen) ∨
      (s.regs.pixelCount ≤ s.params.pixCap ∧
        ∃ out o, maskLoop s.regs s.pixbuf s.regs.pixelCount 0 s.maskbuf = .ok out ∧
          locateOutcome s.regs.rowSel out (isqrt s.regs.pixelCount) s.regs.probe = .ok o ∧
            t = (s.setMask out s.regs.pixelCount).setLocate (isqrt s.regs.pixelCount) o) := by
  rcases frameEffect_cases h with ⟨hlen, rfl⟩ | ⟨hlen, u, hu, ht⟩
  · exact .inl ⟨hlen, rfl⟩
  · rcases maskEffect_cases hu with ⟨hover, -⟩ | ⟨-, out, hout, rfl⟩
    · omega
    · have hmask : (s.setMask out s.regs.pixelCount).regs.maskLength = s.regs.pixelCount :=
        Nat.mod_eq_of_lt (pixelCount_lt s.regs)
      rcases locateEffect_cases ht with ⟨hover, -⟩ | ⟨-, o, ho, rfl⟩
      · rw [hmask] at hover
        exact absurd hover (not_lt.mpr hlen)
      · rw [hmask] at ho ⊢
        exact .inr ⟨hlen, out, o, hout, ho, rfl⟩

/-- No effect touches PIXBUF or the host's side of the port (R124). -/
theorem commandEffect_frame {c : Command} {s t : State} (h : commandEffect c s = .ok t) :
    t.pixbuf = s.pixbuf ∧ t.script = s.script ∧ t.replies = s.replies ∧ t.turns = s.turns := by
  cases c with
  | nop | convert | scorePix | scoreHsv =>
    cases h
    exact ⟨rfl, rfl, rfl, rfl⟩
  | mask => rcases maskEffect_cases h with ⟨-, rfl⟩ | ⟨-, out, -, rfl⟩ <;> exact ⟨rfl, rfl, rfl, rfl⟩
  | locate => rcases locateEffect_cases h with ⟨-, rfl⟩ | ⟨-, o, -, rfl⟩ <;> exact ⟨rfl, rfl, rfl, rfl⟩
  | frame => rcases frameEffect_writes h with ⟨-, rfl⟩ | ⟨-, out, o, -, -, rfl⟩ <;> exact ⟨rfl, rfl, rfl, rfl⟩

/-! FRAME as MASK and then LOCATE. -/

/-- `s` with PEND and DONE, the lifecycle's two fields (R121, R122), replaced. -/
def State.setLatch (s : State) (q : Option Command) (done : Bool) : State :=
  { s with pend := q, regs := { s.regs with status := { s.regs.status with done := done } } }

/-- The mask loop reads of the registers what `scorePixel` reads: the target and the tolerance (R182). -/
theorem maskLoop_congr_regs {r r' : Regs} (h : ∀ p, scorePixel r p = scorePixel r' p) (pix : Memory) (n i : Nat)
    (out : Memory) : maskLoop r pix n i out = maskLoop r' pix n i out := by
  induction n generalizing i out with
  | zero => rfl
  | succ n ih => simp only [maskLoop, h, ih]

section Latch
variable (s : State) (q : Option Command) (done : Bool)

/-- The lifecycle's fields are no input of MASK, and its effect does not write them (R124). -/
theorem maskEffect_setLatch : maskEffect (s.setLatch q done) = (maskEffect s).map fun t => t.setLatch q done := by
  rcases lt_or_ge s.params.pixCap s.regs.pixelCount with h | h
  · rw [maskEffect_of_oversize (s := s.setLatch q done) h, maskEffect_of_oversize h]
    rfl
  · have hloop := maskLoop_congr_regs (r := (s.setLatch q done).regs) (r' := s.regs) (fun _ => rfl) s.pixbuf
      s.regs.pixelCount 0 s.maskbuf
    rw [maskEffect_of_fits (s := s.setLatch q done) h, maskEffect_of_fits h, ← hloop]
    change (maskLoop _ s.pixbuf s.regs.pixelCount 0 s.maskbuf).map _ = _
    cases maskLoop (s.setLatch q done).regs s.pixbuf s.regs.pixelCount 0 s.maskbuf <;> rfl

/-- The lifecycle's fields are no input of LOCATE, and its effect does not write them (R124). -/
theorem locateEffect_setLatch :
    locateEffect (s.setLatch q done) = (locateEffect s).map fun t => t.setLatch q done := by
  rcases lt_or_ge s.params.pixCap s.regs.maskLength with h | h
  · rw [locateEffect_of_oversize (s := s.setLatch q done) h, locateEffect_of_oversize h]
    rfl
  · rw [locateEffect_of_fits (s := s.setLatch q done) h, locateEffect_of_fits h]
    change (locateOutcome s.regs.rowSel s.maskbuf (isqrt s.regs.maskLength) s.regs.probe).map _ = _
    cases locateOutcome s.regs.rowSel s.maskbuf (isqrt s.regs.maskLength) s.regs.probe <;> rfl

end Latch

/-- Which command is pending does not decide whether the sequencer moves (R120). -/
theorem completes_of_sequencerMoves {s t : State} {c : Command} (h : s.sequencerMoves = true) (hp : t.pend = some c)
    (ht : t.turns = s.turns) : t.completes c = true := by
  refine State.completes_iff.mpr ⟨hp, ?_⟩
  simp only [State.sequencerMoves, Bool.and_eq_true] at h ⊢
  exact ⟨t.busy_some c hp, ht ▸ h.2⟩

/-- Settles O32: the intermediate state differs from FRAME's by the lifecycle's fields, which LOCATE's phase neither reads nor
keeps. -/
theorem frameIsMaskThenLocate : Obligations.FrameIsMaskThenLocate := by
  intro s h hlen
  obtain ⟨-, hm⟩ := State.completes_iff.mp h
  have hframe : exec .frame s = _ := exec_command .frame s
  have hphase : frameEffect s = (maskEffect s).bind locateEffect := frameEffect_of_fits hlen
  have hmaskc : { s with pend := some .mask }.completes .mask = true := completes_of_sequencerMoves hm rfl rfl
  have hlatch := maskEffect_setLatch s (some .mask) s.regs.status.done
  cases hmask : maskEffect s with
  | error f =>
    rw [hmask] at hlatch hphase
    have hx : exec .mask { s with pend := some .mask } = .fault f := exec_of_effect_error (c := .mask) hmaskc hlatch
    rw [hx, hframe]
    exact runCommand_fault h hphase
  | ok u =>
    rw [hmask] at hlatch hphase
    have hx : exec .mask { s with pend := some .mask } = .next (u.setLatch none true) :=
      exec_of_effect (c := .mask) (t := u.setLatch (some .mask) s.regs.status.done) hmaskc hlatch
    obtain ⟨-, -, -, hturns⟩ := commandEffect_frame (c := .mask) hmask
    have hlocc : (u.setLatch (some .locate) true).completes .locate = true :=
      completes_of_sequencerMoves hm rfl hturns
    have hlatch' := locateEffect_setLatch u (some .locate) true
    rw [hx, hframe]
    change _ = exec .locate (u.setLatch (some .locate) true)
    cases hloc : locateEffect u with
    | error f =>
      rw [hloc] at hlatch'
      exact (runCommand_fault h (hphase.trans hloc)).trans (exec_of_effect_error (c := .locate) hlocc hlatch').symm
    | ok t =>
      rw [hloc] at hlatch'
      exact (runCommand_finish h (hphase.trans hloc)).trans
        (exec_of_effect (c := .locate) (t := t.setLatch (some .locate) true) hlocc hlatch').symm

end Sys2Proof.Machine
end

section
/-! PROOFS. The write sets of the instructions (R124): what each effect can write, and what no other instruction changes. -/

namespace Sys2Proof.Machine

open Sys2Proof.Claims

/-- Settles O34: by the cases of `exec`, each next state being a named update of `s`, and for a completion by its effect. -/
theorem instructionWriteSets : Obligations.InstructionWriteSets := by
  intro i s t h
  rcases exec_cases h with ⟨c, u, rfl, -, hu, rfl⟩ | ⟨c, rfl, -, rfl⟩ | ⟨-, -, rfl⟩ | ⟨-, -, rfl⟩ | ⟨rfl, rfl⟩
  · cases c with
    | nop | convert | scorePix | scoreHsv =>
      cases hu
      simp [Command.instr, SameLocateResults]
    | mask =>
      rcases maskEffect_cases hu with ⟨-, rfl⟩ | ⟨-, out, -, rfl⟩ <;> simp [Command.instr, SameLocateResults]
    | locate =>
      rcases locateEffect_cases hu with ⟨-, rfl⟩ | ⟨-, o, -, rfl⟩ <;> simp [Command.instr, SameLocateResults]
    | frame =>
      rcases frameEffect_writes hu with ⟨-, rfl⟩ | ⟨-, out, o, -, -, rfl⟩ <;> simp [Command.instr, SameLocateResults]
  all_goals simp [SameLocateResults]

end Sys2Proof.Machine
end

section
/-! PROOFS. Purity (R124, R198): effects on states that agree on a command's read set fault alike, or answer states that agree on
its write set. -/

namespace Sys2Proof.Machine

open Sys2Proof.Claims

/-- Two results of one operation: the same fault, or answers that `R` relates. -/
inductive ResultsAgree {α : Type} (R : α → α → Prop) : Except Fault α → Except Fault α → Prop
  | fault (f : Fault) : ResultsAgree R (.error f) (.error f)
  | answer {x y : α} (h : R x y) : ResultsAgree R (.ok x) (.ok y)

theorem ResultsAgree.map {α β : Type} {R : α → α → Prop} {Q : β → β → Prop} {f g : α → β} {a b : Except Fault α}
    (h : ResultsAgree R a b) (hfg : ∀ x y, R x y → Q (f x) (g y)) : ResultsAgree Q (a.map f) (b.map g) := by
  cases h with
  | fault e => exact .fault e
  | answer h => exact .answer (hfg _ _ h)

theorem ResultsAgree.bind {α β : Type} {R : α → α → Prop} {Q : β → β → Prop} {f g : α → Except Fault β}
    {a b : Except Fault α} (h : ResultsAgree R a b) (hfg : ∀ x y, R x y → ResultsAgree Q (f x) (g y)) :
    ResultsAgree Q (a.bind f) (b.bind g) := by
  cases h with
  | fault e => exact .fault e
  | answer h => exact hfg _ _ h

theorem ResultsAgree.mono {α : Type} {R Q : α → α → Prop} {a b : Except Fault α} (h : ResultsAgree R a b)
    (hRQ : ∀ x y, R x y → Q x y) : ResultsAgree Q a b := by
  cases h with
  | fault e => exact .fault e
  | answer h => exact .answer (hRQ _ _ h)

/-- Answers that agree are the answers of the two operations. -/
theorem ResultsAgree.with_eq {α : Type} {R : α → α → Prop} {a b : Except Fault α} (h : ResultsAgree R a b) :
    ResultsAgree (fun x y => a = .ok x ∧ b = .ok y ∧ R x y) a b := by
  cases h with
  | fault e => exact .fault e
  | answer h => exact .answer ⟨rfl, rfl, h⟩

/-- Equal results agree where equal answers do. -/
theorem ResultsAgree.of_eq {α β : Type} {Q : β → β → Prop} {f g : α → β} {a b : Except Fault α} (h : a = b)
    (hfg : ∀ x, Q (f x) (g x)) : ResultsAgree Q (a.map f) (b.map g) := by
  subst h
  cases a with
  | error e => exact .fault e
  | ok x => exact .answer (hfg x)

/-! MASK. -/

/-- The target and tolerance registers are all a match byte takes from the registers (R166, R182). -/
theorem scorePixel_congr {s₁ s₂ : State} (h : SameTarget s₁ s₂) (p : Pixel) :
    scorePixel s₁.regs p = scorePixel s₂.regs p := by
  obtain ⟨hh, hs, hv, ht⟩ := h
  simp only [scorePixel, Regs.target, Regs.tolerance, hh, hs, hv, ht]

theorem readPixel_congr {m₁ m₂ : Memory} {i : Nat} (h : ∀ k < 4, m₁.read (4 * i + k) = m₂.read (4 * i + k)) :
    readPixel m₁ i = readPixel m₂ i := by
  simp only [readPixel, readByte, h 0 (by decide), h 1 (by decide), h 2 (by decide), h 3 (by decide)]

/-- Mask loops over equal pixels fault alike or write equal bytes, and they keep bytes below their range that were equal. -/
theorem maskLoop_agree {r₁ r₂ : Regs} {pix₁ pix₂ : Memory} (hr : ∀ p, scorePixel r₁ p = scorePixel r₂ p) (n i : Nat)
    (out₁ out₂ : Memory) (hp : ∀ j, i ≤ j → j < i + n → readPixel pix₁ j = readPixel pix₂ j) :
    ResultsAgree (fun m₁ m₂ => ∀ o < i + n, i ≤ o ∨ out₁.read o = out₂.read o → m₁.read o = m₂.read o)
      (maskLoop r₁ pix₁ n i out₁) (maskLoop r₂ pix₂ n i out₂) := by
  induction n generalizing i out₁ out₂ with
  | zero => exact .answer fun o ho hor => hor.resolve_left (by omega)
  | succ n ih =>
    simp only [maskLoop, hp i le_rfl (by omega)]
    cases readPixel pix₂ i with
    | error f => exact .fault f
    | ok p =>
      simp only [hr p]
      refine (ih (i + 1) _ _ fun j hj hj' => hp j (by omega) (by omega)).mono fun m₁ m₂ hm o ho hor => ?_
      refine hm o (by omega) (or_iff_not_imp_left.mpr fun hlt => ?_)
      rw [Memory.read_write, Memory.read_write]
      split_ifs with hoi
      · rfl
      · exact hor.resolve_left (by omega)

/-- MASK's loop over the pixels of two states that agree on what MASK reads. -/
theorem maskLoop_agree_of_sameMaskInputs {s₁ s₂ : State} (h : SameMaskInputs s₁ s₂) :
    ResultsAgree (fun m₁ m₂ => ∀ o < s₁.regs.pixelCount, m₁.read o = m₂.read o)
      (maskLoop s₁.regs s₁.pixbuf s₁.regs.pixelCount 0 s₁.maskbuf)
      (maskLoop s₂.regs s₂.pixbuf s₁.regs.pixelCount 0 s₂.maskbuf) := by
  obtain ⟨-, -, htgt, hpix⟩ := h
  refine (maskLoop_agree (scorePixel_congr htgt) _ 0 _ _ fun j _ hj => readPixel_congr fun k hk => ?_).mono
    fun m₁ m₂ hm o ho => hm o (by omega) (.inl (Nat.zero_le o))
  exact hpix _ (show 4 * j + k < 4 * s₁.regs.pixelCount by omega)

theorem pixelCount_congr {s₁ s₂ : State} (h : SameMaskInputs s₁ s₂) : s₂.regs.pixelCount = s₁.regs.pixelCount := by
  obtain ⟨-, hlen, -, -⟩ := h
  simp only [Regs.pixelCount, hlen]

theorem maskEffect_agree {s₁ s₂ : State} (h : SameMaskInputs s₁ s₂) :
    ResultsAgree (SameWriteSet .mask s₁) (maskEffect s₁) (maskEffect s₂) := by
  have hcount := pixelCount_congr h
  have hcap : s₂.params.pixCap = s₁.params.pixCap := h.1.symm
  rcases lt_or_ge s₁.params.pixCap s₁.regs.pixelCount with hlen | hlen
  · rw [maskEffect_of_oversize hlen, maskEffect_of_oversize (by rwa [hcount, hcap])]
    exact .answer ⟨fun _ => ⟨rfl, rfl⟩, fun hle => absurd hle (not_le.mpr hlen)⟩
  · rw [maskEffect_of_fits hlen, maskEffect_of_fits (by rwa [hcount, hcap]), hcount]
    exact (maskLoop_agree_of_sameMaskInputs h).map fun out₁ out₂ hout =>
      ⟨fun hlt => absurd hlt (not_lt.mpr hlen), fun _ => ⟨rfl, hout⟩⟩

/-! LOCATE. -/

section Window
variable {m₁ m₂ : Memory} {n p r : Nat}

theorem hit_congr {o : Nat} (h : m₁.read o = m₂.read o) : m₁.hit o = m₂.hit o := by
  simp only [Memory.hit, h]

theorem firstUnwritten_congr {offs : List Nat} (h : ∀ o ∈ offs, m₁.read o = m₂.read o) :
    m₁.firstUnwritten offs = m₂.firstUnwritten offs := by
  induction offs with
  | nil => rfl
  | cons o offs ih =>
    have htail := ih fun o' ho' => h o' (List.mem_cons_of_mem o ho')
    simp only [Memory.firstUnwritten] at htail ⊢
    simp only [List.find?_cons, h o List.mem_cons_self, htail]

theorem probeRows_congr (h : ∀ y < n / 2, m₁.read (y * n + p) = m₂.read (y * n + p)) :
    probeRows m₁ n p = probeRows m₂ n p :=
  List.filter_congr fun y hy => hit_congr (h y (List.mem_range.mp hy))

/-- Steps 2 and 3 read the row below the probe row only (R198). -/
theorem neckOutcome_congr {row : Nat} (hp : p < n) (h : ∀ x < n, m₁.read ((row + 1) * n + x) = m₂.read ((row + 1) * n + x)) :
    neckOutcome m₁ n row = neckOutcome m₂ n row := by
  have hleft : leftCols m₁ n (row + 1) = leftCols m₂ n (row + 1) :=
    List.filter_congr fun x hx => hit_congr (h x (by have := List.mem_range.mp hx; omega))
  have hright : rightCols m₁ n (row + 1) = rightCols m₂ n (row + 1) :=
    List.filter_congr fun x hx => by rw [hit_congr (h x (List.mem_range.mp hx))]
  rw [neckOutcome, neckOutcome, hleft, hright]

/-- A locate reads its scan window only (R198). -/
theorem locateOutcome_congr {sel : RowSel}
    (hprobe : p < n → ∀ y < n / 2, m₁.read (y * n + p) = m₂.read (y * n + p))
    (hneck : p < n → (∀ y < n / 2, Written m₁ (y * n + p)) → ∀ row, probeRow sel (probeRows m₁ n p) = some row →
      ∀ x < n, m₁.read ((row + 1) * n + x) = m₂.read ((row + 1) * n + x)) :
    locateOutcome sel m₁ n p = locateOutcome sel m₂ n p := by
  rcases le_or_gt n p with hp | hp
  · rw [locateOutcome_of_side_le hp, locateOutcome_of_side_le hp]
  have hfirst : m₁.firstUnwritten (probeOffsets n p) = m₂.firstUnwritten (probeOffsets n p) :=
    firstUnwritten_congr fun o ho => by
      obtain ⟨y, hy, rfl⟩ := mem_probeOffsets.mp ho
      exact hprobe hp y hy
  rw [locateOutcome, locateOutcome, if_neg (not_le.mpr hp), if_neg (not_le.mpr hp), ← hfirst,
    ← probeRows_congr (hprobe hp)]
  cases hun : m₁.firstUnwritten (probeOffsets n p) with
  | some o => rfl
  | none =>
    have hw : ∀ y < n / 2, Written m₁ (y * n + p) := fun y hy =>
      Memory.firstUnwritten_none.mp hun _ (mem_probeOffsets.mpr ⟨y, hy, rfl⟩)
    cases hrow : probeRow sel (probeRows m₁ n p) with
    | none => rfl
    | some row =>
      have hread := hneck hp hw row hrow
      have hrowFirst : m₁.firstUnwritten (rowOffsets n (row + 1)) = m₂.firstUnwritten (rowOffsets n (row + 1)) :=
        firstUnwritten_congr fun o ho => by
          obtain ⟨x, hx, rfl⟩ := mem_rowOffsets.mp ho
          exact hread x hx
      simp only [hrowFirst, neckOutcome_congr hp hread]

end Window

/-- The registers a locate writes are those of its side and its outcome. -/
theorem sameLocateResults_setLocate (t₁ t₂ : State) (n : Nat) (o : LocateOutcome) :
    SameLocateResults (t₁.setLocate n o) (t₂.setLocate n o) :=
  ⟨rfl, rfl, rfl, rfl, rfl, rfl⟩

theorem locateEffect_agree {s₁ s₂ : State} (h : SameReadSet .locate s₁ s₂) :
    ResultsAgree (SameWriteSet .locate s₁) (locateEffect s₁) (locateEffect s₂) := by
  obtain ⟨hcap, hmask, hcol, hsel, hwin⟩ := h
  have hlength : s₂.regs.maskLength = s₁.regs.maskLength := congrArg BitVec.toNat hmask.symm
  have hprobe : s₂.regs.probe = s₁.regs.probe := congrArg BitVec.toNat hcol.symm
  rcases lt_or_ge s₁.params.pixCap s₁.regs.maskLength with hlen | hlen
  · rw [locateEffect_of_oversize hlen, locateEffect_of_oversize (by rwa [hlength, ← hcap])]
    exact .answer ⟨fun _ => ⟨rfl, rfl⟩, fun hle => absurd hle (not_le.mpr hlen)⟩
  · have hwindow := hwin (isqrt s₁.regs.maskLength) s₁.regs.probe (isqrt_spec _) rfl
    have hout : locateOutcome s₁.regs.rowSel s₁.maskbuf (isqrt s₁.regs.maskLength) s₁.regs.probe =
        locateOutcome s₁.regs.rowSel s₂.maskbuf (isqrt s₁.regs.maskLength) s₁.regs.probe :=
      locateOutcome_congr (fun hp => (hwindow hp).1) fun hp hw row hrow =>
        (hwindow hp).2 row ((isProbeRow_iff hw).mpr hrow)
    rw [locateEffect_of_fits hlen, locateEffect_of_fits (by rwa [hlength, ← hcap]), hlength, hprobe, ← hsel]
    exact .of_eq hout fun o => ⟨fun hlt => absurd hlt (not_lt.mpr hlen), fun _ => sameLocateResults_setLocate _ _ _ o⟩

/-! FRAME. -/

/-- The locate phase over masks that agree on the bytes just written (R199). -/
theorem locateEffect_agree_of_mask {s₁ s₂ : State} {out₁ out₂ : Memory} {k : Nat} (hcap : s₁.params.pixCap = s₂.params.pixCap)
    (hcol : s₁.regs.probeCol = s₂.regs.probeCol) (hsel : s₁.regs.rowSel = s₂.regs.rowSel)
    (hk : k < 2 ^ 32) (hout : ∀ o < k, out₁.read o = out₂.read o) :
    ResultsAgree (SameWriteSet .locate (s₁.setMask out₁ k)) (locateEffect (s₁.setMask out₁ k))
      (locateEffect (s₂.setMask out₂ k)) := by
  refine locateEffect_agree ⟨hcap, rfl, hcol, hsel, fun n p hside _ hp => ?_⟩
  have hgrid : n * n ≤ k := hside.1.trans_eq (Nat.mod_eq_of_lt hk)
  exact ⟨fun y hy => hout _ ((probe_offset_lt hy hp).trans_le hgrid), fun y hy x hx =>
    hout _ ((neck_offset_lt hy.2.1 hx).trans_le hgrid)⟩

theorem locateEffect_keeps_mask {s t : State} (h : locateEffect s = .ok t) :
    t.maskbuf = s.maskbuf ∧ t.regs.maskLen = s.regs.maskLen := by
  rcases locateEffect_cases h with ⟨-, rfl⟩ | ⟨-, o, -, rfl⟩ <;> exact ⟨rfl, rfl⟩

theorem frameEffect_agree {s₁ s₂ : State} (h : SameReadSet .frame s₁ s₂) :
    ResultsAgree (SameWriteSet .frame s₁) (frameEffect s₁) (frameEffect s₂) := by
  obtain ⟨hmask, hcol, hsel⟩ := h
  have hcount := pixelCount_congr hmask
  have hcap : s₁.params.pixCap = s₂.params.pixCap := hmask.1
  rcases lt_or_ge s₁.params.pixCap s₁.regs.pixelCount with hlen | hlen
  · rw [frameEffect_of_oversize hlen, frameEffect_of_oversize (by rwa [hcount, ← hcap])]
    exact .answer ⟨fun _ => ⟨rfl, rfl⟩, fun hle => absurd hle (not_le.mpr hlen)⟩
  have hlen₂ : s₂.regs.pixelCount ≤ s₂.params.pixCap := by rwa [hcount, ← hcap]
  have hk := pixelCount_lt s₁.regs
  rw [frameEffect_of_fits hlen, frameEffect_of_fits hlen₂, maskEffect_of_fits hlen, maskEffect_of_fits hlen₂, hcount]
  set k := s₁.regs.pixelCount
  have hphase := (maskLoop_agree_of_sameMaskInputs hmask).map
    (Q := fun t₁ t₂ => ∃ out₁ out₂, t₁ = s₁.setMask out₁ k ∧ t₂ = s₂.setMask out₂ k ∧
      ∀ o < k, out₁.read o = out₂.read o)
    fun out₁ out₂ hout => ⟨out₁, out₂, rfl, rfl, hout⟩
  refine hphase.bind ?_
  rintro _ _ ⟨out₁, out₂, rfl, rfl, hout⟩
  refine (locateEffect_agree_of_mask hcap hcol hsel hk hout).with_eq.mono fun t₁ t₂ ⟨h₁, h₂, _, hres⟩ => ?_
  obtain ⟨hbuf₁, hreg₁⟩ := locateEffect_keeps_mask h₁
  obtain ⟨hbuf₂, hreg₂⟩ := locateEffect_keeps_mask h₂
  refine ⟨fun hlt => absurd hlt (not_lt.mpr hlen), fun _ => ⟨hreg₁.trans hreg₂.symm, fun o ho => ?_, hres ?_⟩⟩
  · rw [hbuf₁, hbuf₂]
    exact hout o ho
  · exact (Nat.mod_eq_of_lt hk).trans_le hlen

/-! The seven commands. -/

/-- Effects on states that agree on the command's read set agree (R124). -/
theorem commandEffect_agree {c : Command} {s₁ s₂ : State} (h : SameReadSet c s₁ s₂) :
    ResultsAgree (SameWriteSet c s₁) (commandEffect c s₁) (commandEffect c s₂) := by
  cases c with
  | nop => exact .answer trivial
  | convert =>
    have hpix : s₁.regs.pixIn = s₂.regs.pixIn := h
    refine .answer ?_
    simp [SameWriteSet, State.setConv, hpix]
  | scorePix =>
    obtain ⟨hpix, htgt⟩ := h
    refine .answer ?_
    simp [SameWriteSet, State.setConv, hpix, scorePixel_congr htgt]
  | scoreHsv =>
    obtain ⟨hh, hs, hv, hth, hts, htv, htol⟩ := h
    refine .answer ?_
    simp [SameWriteSet, Regs.target, Regs.sample, Regs.tolerance, hh, hs, hv, hth, hts, htv, htol]
  | mask => exact maskEffect_agree h
  | locate => exact locateEffect_agree h
  | frame => exact frameEffect_agree h

/-- The end of a completion step writes no field of a write set (R122). -/
theorem sameWriteSet_finish {c : Command} {s t₁ t₂ : State} (h : SameWriteSet c s t₁ t₂) :
    SameWriteSet c s t₁.finish t₂.finish := by
  cases c <;> exact h

/-- Settles O35: a completion faults as its effect and answers as its effect, finished, and the effects agree. -/
theorem commandsArePure : Obligations.CommandsArePure := by
  intro c s₁ s₂ h₁ h₂ h
  have hagree := commandEffect_agree h
  generalize he₁ : commandEffect c s₁ = e₁ at hagree
  generalize he₂ : commandEffect c s₂ = e₂ at hagree
  cases hagree with
  | fault f =>
    rw [exec_of_effect_error h₁ he₁, exec_of_effect_error h₂ he₂]
    exact ⟨fun _ => Iff.rfl, fun t₁ _ ht₁ => by cases ht₁⟩
  | answer hset =>
    rw [exec_of_effect h₁ he₁, exec_of_effect h₂ he₂]
    refine ⟨fun f => by simp, fun t₁ t₂ ht₁ ht₂ => ?_⟩
    cases ht₁
    cases ht₂
    exact sameWriteSet_finish hset

end Sys2Proof.Machine
end

section
/-! PROOFS. What one step does to the block (R85), with its cause: the completion of a command, or the one effect of a host
operation. The statements about every step are read off its cases. -/

namespace Sys2Proof.Machine

open Sys2Proof.Claims

/-! The cause of an instruction, in the word that carries it. -/

section Words
variable {w : Word}

/-- Every word is a row of the opcode table (R101, R105). -/
theorem decode_wellFormed (w : Word) : WellFormed (decode w) := by
  have hbit : ∀ c : BitVec 4, 8 ≤ c.toNat → c.getLsbD 3 = true := by decide
  unfold decode
  split
  · rfl
  · split
    case h_9 =>
      simp only [imp_false] at *
      exact hbit (cmdField w) (by omega)
    all_goals rfl

theorem code_of_decode_command {c : Command} (h : decode w = c.instr) :
    w.getLsbD 31 = false ∧ w.extractLsb' 0 4 = commandCode c := by
  obtain ⟨h31, hc⟩ := (decode_eq_iff_cmdField (by cases c <;> rfl) (by cases c <;> simp [Command.instr])).mp h
  exact ⟨h31, hc.trans (by cases c <;> rfl)⟩

theorem code_of_decode_reserved (h : decode w = .reserved7 ∨ ∃ cmd, decode w = .reserved8F cmd) :
    w.getLsbD 31 = false ∧ 0x7 ≤ (w.extractLsb' 0 4).toNat := by
  have hw := decode_wellFormed w
  rcases h with h | ⟨cmd, h⟩
  · obtain ⟨h31, hc⟩ := (decode_eq_iff_cmdField rfl (by simp)).mp h
    exact ⟨h31, by rw [hc]; decide⟩
  · have hbit : ∀ c : BitVec 4, c.getLsbD 3 = true → 7 ≤ c.toNat := by decide
    rw [h] at hw
    obtain ⟨h31, hc⟩ := (decode_eq_iff_cmdField hw (by simp)).mp h
    exact ⟨h31, by rw [hc, encode, cmdField_setWidth]; exact hbit cmd hw⟩

end Words

theorem not_busErrorCase_of_target {p : Config.Params} {a : Offset} {sz : Size} (h : target p a sz ≠ .busError) :
    ¬ BusErrorCase p a.toNat sz.bytes :=
  (target_busError_iff p a sz).not.mp h

theorem memAccess_of_target {p : Config.Params} {a : Offset} {sz : Size} {which : MemId} {off : Nat}
    (h : target p a sz = .mem which off) : MemAccess p a sz.bytes which off := by
  obtain ⟨hb, ⟨rfl, ha, hoff⟩ | ⟨rfl, ha, hoff⟩⟩ := (target_mem_iff p a sz which off).mp h
  all_goals exact ⟨ha, hoff, not_busErrorCase_of_target hb⟩

/-- What one step makes of the block, with the cause it has (R85). The host's side of the port is no part of it. -/
inductive BlockStep (s : State) : State → Prop
  /-- The sequencer's step (R122). -/
  | complete {c : Command} {u : State} (hc : s.completes c = true) (hu : commandEffect c s = .ok u) : BlockStep s u.finish
  /-- A read, a poll, a bus error, or no operation at all. -/
  | unchanged : BlockStep s s
  | hardReset (h : HostDoes s .hardReset) : BlockStep s s.hardReset
  | softReset {w : Word} (h : HostCommands s w) (h31 : w.getLsbD 31 = true) : BlockStep s s.softReset
  | start {w : Word} {c : Command} (h : HostCommands s w) (h31 : w.getLsbD 31 = false)
      (hc : w.extractLsb' 0 4 = commandCode c) (hb : s.busy = false) : BlockStep s (s.start c)
  | reserved {w : Word} (h : HostCommands s w) (h31 : w.getLsbD 31 = false) (hc : 0x7 ≤ (w.extractLsb' 0 4).toNat)
      (hb : s.busy = false) : BlockStep s s.signalErrCmd
  | dropped {a : Offset} {sz : Size} {d : Word} (h : HostDoes s (.txn (.write a sz d)))
      (he : ¬ BusErrorCase s.params a.toNat sz.bytes) (hs : ¬ (a = 0x00008 ∧ d.getLsbD 31 = true))
      (hb : s.busy = true) : BlockStep s s.signalErrWbusy
  | regWrite (r : Reg) (d : Word) (hb : s.busy = false) : BlockStep s (s.writeReg r d)
  | memWrite {a : Offset} {sz : Size} {d : Word} {which : MemId} {off : Nat} (h : HostDoes s (.txn (.write a sz d)))
      (hacc : MemAccess s.params a sz.bytes which off) (hfit : off + sz.bytes ≤ memSize s.params which)
      (hb : s.busy = false) : BlockStep s (s.memWrite which off sz.bytes d)

/-- What a command word makes of the block in the host's step (R102, R121, R126, R127). -/
theorem blockStep_of_exec {s u : State} {w : Word} (h : HostCommands s w) (hu : exec (decode w) s = .next u) :
    BlockStep s u := by
  have htarget : target s.params 0x00008 .four ≠ .busError := by
    rw [target_reg s.params 0x00008 (by decide) (by decide)]
    simp
  rcases exec_cases hu with ⟨c, -, -, hc, -⟩ | ⟨c, hi, hb, rfl⟩ | ⟨hb, hi, rfl⟩ | ⟨hb, hi, rfl⟩ | ⟨hi, rfl⟩
  · rw [State.completes_of_host h.1] at hc
    cases hc
  · obtain ⟨h31, hc⟩ := code_of_decode_command hi
    exact .start h h31 hc hb
  · exact .dropped h (not_busErrorCase_of_target htarget) (fun hs => hi (decode_eq_srst_iff.mpr hs.2)) hb
  · obtain ⟨h31, hc⟩ := code_of_decode_reserved hi
    exact .reserved h h31 hc hb
  · exact .softReset h (decode_eq_srst_iff.mp hi)

/-- What a Write transaction makes of the block. -/
theorem blockStep_of_writeTxn {s t : State} {a : Offset} {sz : Size} {d : Word} (h : HostDoes s (.txn (.write a sz d)))
    (ht : writeTxn a sz d s = .next t) : ∃ u r, BlockStep s u ∧ t = u.answer r := by
  rcases writeTxn_next ht with ⟨-, rfl⟩ | ⟨hctrl, u, hu, rfl⟩ | ⟨hb, he, hctrl, rfl⟩ | ⟨hb, r, -, -, rfl⟩ |
    ⟨hb, which, off, hmem, rfl⟩
  · exact ⟨s, _, .unchanged, rfl⟩
  · obtain rfl := eq_of_target_ctrl hctrl
    obtain ⟨rfl, -⟩ := target_eq_reg hctrl
    exact ⟨u, _, blockStep_of_exec h hu, rfl⟩
  · refine ⟨_, _, .dropped h (not_busErrorCase_of_target he) ?_ hb, rfl⟩
    rintro ⟨rfl, -⟩
    rcases target_cases (not_busErrorCase_of_target he) with ⟨-, hreg⟩ | ⟨hlt, -⟩
    · exact hctrl hreg
    · exact absurd hlt (by decide)
  · exact ⟨_, _, .regWrite r d hb, rfl⟩
  · exact ⟨_, _, .memWrite h (memAccess_of_target hmem) (target_mem hmem) hb, rfl⟩

theorem pollStatus_eq (s : State) :
    ∃ script, pollStatus s = { s with script := script, replies := .read s.statusWord .okay :: s.replies } := by
  unfold pollStatus
  dsimp only
  split
  · exact ⟨s.script, rfl⟩
  · exact ⟨s.script.tail, rfl⟩

/-- Every step is one of the block's, beside what it does to the host's side of the port. -/
theorem step_block {s t : State} (h : step s = .next t) :
    ∃ u script replies turns, BlockStep s u ∧ t = { u with script := script, replies := replies, turns := turns } := by
  rcases step_cases h with ⟨c, u, hc, hu, rfl⟩ | ⟨-, -, rfl⟩ | ⟨-, -, rfl⟩ | ⟨hm, hs, rfl⟩ | ⟨hm, tx, rest, u, hs, hu, rfl⟩
  · exact ⟨_, _, _, _, .complete hc hu, rfl⟩
  · exact ⟨s, s.script, s.replies, _, .unchanged, rfl⟩
  · obtain ⟨script, hp⟩ := pollStatus_eq s
    rw [hp]
    exact ⟨s, _, _, _, .unchanged, rfl⟩
  · exact ⟨_, _, _, _, .hardReset ⟨hm, hs⟩, rfl⟩
  · cases tx with
    | read a sz =>
      obtain ⟨d, r, rfl⟩ := readTxn_next hu
      exact ⟨s, _, _, _, .unchanged, rfl⟩
    | write a sz d =>
      obtain ⟨v, r, hv, rfl⟩ := blockStep_of_writeTxn ⟨hm, rest, hs⟩ hu
      exact ⟨v, _, _, _, hv, rfl⟩

end Sys2Proof.Machine
end

section
/-! PROOFS. The memories through a step (R49 to R52): canonical form and size are kept, and PIXBUF is the host's to write. -/

namespace Sys2Proof.Machine

open Sys2Proof.Claims

/-! Canonical form and size. -/

theorem maskLoop_memoryConsistent {s : State} {out : Memory} (h : s.MemoryConsistent)
    (hlen : s.regs.pixelCount ≤ s.params.pixCap)
    (hout : maskLoop s.regs s.pixbuf s.regs.pixelCount 0 s.maskbuf = .ok out) :
    (s.setMask out s.regs.pixelCount).MemoryConsistent := by
  obtain ⟨hpw, hmw, hpn, hmn⟩ := h
  exact ⟨hpw, maskLoop_wf _ 0 hmw hout, hpn, maskLoop_within _ 0 hmn ((Nat.zero_add _).trans_le hlen) hout⟩

theorem commandEffect_memoryConsistent {c : Command} {s t : State} (h : s.MemoryConsistent)
    (ht : commandEffect c s = .ok t) : t.MemoryConsistent := by
  cases c with
  | nop | convert | scorePix | scoreHsv =>
    cases ht
    exact h
  | mask =>
    rcases maskEffect_cases ht with ⟨-, rfl⟩ | ⟨hlen, out, hout, rfl⟩
    · exact h
    · exact maskLoop_memoryConsistent h hlen hout
  | locate => rcases locateEffect_cases ht with ⟨-, rfl⟩ | ⟨-, o, -, rfl⟩ <;> exact h
  | frame =>
    rcases frameEffect_writes ht with ⟨-, rfl⟩ | ⟨hlen, out, o, hout, -, rfl⟩
    · exact h
    · have hmask := maskLoop_memoryConsistent h hlen hout
      exact hmask

theorem memWrite_memoryConsistent {s : State} {which : MemId} {off n : Nat} (d : Word) (h : s.MemoryConsistent)
    (hfit : off + n ≤ memSize s.params which) : (s.memWrite which off n d).MemoryConsistent := by
  obtain ⟨hpw, hmw, hpn, hmn⟩ := h
  cases which with
  | pixbuf => exact ⟨Memory.writeLe_wf hpw _ _ _, hmw, Memory.writeLe_within hpn hfit _, hmn⟩
  | maskbuf => exact ⟨hpw, Memory.writeLe_wf hmw _ _ _, hpn, Memory.writeLe_within hmn hfit _⟩

theorem hardReset_memoryConsistent (s : State) : s.hardReset.MemoryConsistent :=
  ⟨.nil, .nil, fun _ h => absurd h List.not_mem_nil, fun _ h => absurd h List.not_mem_nil⟩

theorem softReset_memoryConsistent {s : State} (h : s.MemoryConsistent) : s.softReset.MemoryConsistent := by
  obtain ⟨hpw, hmw, hpn, hmn⟩ := h
  exact ⟨hpw, State.maskbufAfterSrst_wf hmw, hpn, State.maskbufAfterSrst_within hmn⟩

/-- Settles O48: case by case what the step makes of the block; only MASK, FRAME, a host write and the resets touch a memory. -/
theorem stepKeepsMemoryCanonical : Obligations.StepKeepsMemoryCanonical := by
  intro s t h hstep
  obtain ⟨u, script, replies, turns, hu, rfl⟩ := step_block hstep
  change u.MemoryConsistent
  cases hu with
  | complete _ he =>
    have heffect := commandEffect_memoryConsistent h he
    exact heffect
  | hardReset => exact hardReset_memoryConsistent s
  | softReset => exact softReset_memoryConsistent h
  | memWrite _ _ hfit => exact memWrite_memoryConsistent _ h hfit
  | unchanged | start | reserved | dropped | regWrite => exact h

/-! PIXBUF. -/

/-- Settles O54: of what a step makes of the block only a hard reset and a write to the PIXBUF window give another PIXBUF. -/
theorem pixbufWrittenByHostOnly : Obligations.PixbufWrittenByHostOnly := by
  intro s t hstep hne
  obtain ⟨u, script, replies, turns, hu, rfl⟩ := step_block hstep
  cases hu with
  | complete _ he => exact absurd (commandEffect_frame he).1 hne
  | hardReset h => exact .inl h
  | @memWrite a sz d which off h hacc _ hb =>
    cases which with
    | pixbuf => exact .inr ⟨hb, _, _, _, _, h, hacc⟩
    | maskbuf => exact absurd rfl hne
  | unchanged | softReset | start | reserved | dropped | regWrite => exact absurd rfl hne

end Sys2Proof.Machine
end

section
/-! PROOFS. The flags and result registers through a step (R24, R39 to R45): each effect writes results that fit together, and what
is no effect leaves them or resets them. -/

namespace Sys2Proof.Machine

/-- The result registers fit together: every clause of the invariant but the one on the latch. -/
structure State.ResultsConsistent (s : State) : Prop where
  status : s.regs.status.Consistent
  conv : s.regs.ConvConsistent
  score : s.regs.scoreOut.Consistent
  locate : s.regs.LocateConsistent
  side : s.regs.side.toNat * s.regs.side.toNat ≤ s.params.pixCap

/-! The effects. -/

theorem setConv_convConsistent (s : State) (p : Pixel) : (s.setConv (conv p)).regs.ConvConsistent := by
  have hhn := setConv_conv_hn s p
  have hsect : (s.setConv (conv p)).regs.convOut.sect = 0 ↔ (conv p).sect = 0 := by
    rw [← BitVec.toNat_inj, setConv_conv_sect]
    rfl
  have hdelta : (s.setConv (conv p)).regs.convOut.delta = 0 ↔ (conv p).delta = 0 := by
    rw [← BitVec.toNat_inj, setConv_conv_delta]
    rfl
  refine ⟨?_, ?_, fun h => ?_, fun h => ?_⟩
  · rw [setConv_conv_max, setConv_conv_min, setConv_conv_delta]
    exact (conv_min_add_delta p).symm
  · rw [hsect, hdelta]
    exact conv_sect_eq_zero_iff p
  · rw [conv_hn_of_delta_eq_zero p (hdelta.mp h)] at hhn
    exact BitVec.eq_of_toNat_eq (Int.natCast_eq_zero.mp hhn)
  · have hlt := conv_hn_lt p (Nat.pos_of_ne_zero (hdelta.not.mp h))
    rw [setConv_conv_delta]
    omega

theorem setConv_resultsConsistent {s : State} (h : s.ResultsConsistent) (p : Pixel) :
    (s.setConv (conv p)).ResultsConsistent :=
  { h with conv := setConv_convConsistent s p }

theorem setScore_resultsConsistent {s : State} (h : s.ResultsConsistent) (x y : Hsv) (tol : Frac) :
    (s.setScore (score x y tol)).ResultsConsistent :=
  { h with score := score_consistent x y tol }

/-- The rows and columns of a point that is found lie inside the grid (R193 to R195). -/
theorem locateOutcome_found_bounds {sel : RowSel} {m : Memory} {n p row left right : Nat}
    (h : locateOutcome sel m n p = .ok (.found row left right)) :
    row < n / 2 ∧ left ≤ n / 2 ∧ n / 2 < right ∧ right < n := by
  rcases locateOutcome_cases h with ⟨-, ho⟩ | ⟨-, -, ho⟩ | ⟨-, y, hy, ho⟩
  · cases ho
  · cases ho
  · obtain ⟨rfl, hl, -, hr, -⟩ := neckOutcome_found ho.symm
    obtain ⟨hrn, hmid, -⟩ := mem_rightCols.mp hr
    exact ⟨(mem_probeRows.mp (probeRow_mem hy)).1, (mem_leftCols.mp hl).1, hmid, hrn⟩

/-- The registers of a found point, its grid fitting their fields (R196). -/
theorem setLocate_found_locateConsistent (s : State) {n row left right : Nat} (hn : n < 2 ^ 16) (hrow : row < n / 2)
    (hleft : left ≤ n / 2) (hmid : n / 2 < right) (hright : right < n) :
    (s.setLocate n (.found row left right)).regs.LocateConsistent := by
  have hfound : (s.setLocate n (.found row left right)).regs.status.found ≠ false := fun h => by cases h
  refine ⟨fun _ => ?_, fun h => absurd h hfound, fun h => absurd h hfound, fun h => absurd h hfound⟩
  simp only [State.setLocate_regs_side, State.setLocate_regs_resEdges, State.setLocate_regs_resRow,
    State.setLocate_regs_resXY, LocateOutcome.edges, LocateOutcome.row, LocateOutcome.xy]
  rw [toNat_half_of_lt hn, toNat_half_of_lt (by omega : left < _), toNat_half_of_lt (by omega : right < _),
    toNat_half_of_lt (by omega : row < _), toNat_half_of_lt (by omega : (left + right) / 2 < _),
    toNat_half_of_lt (by omega : row + 1 < _)]
  exact ⟨hleft, hmid, hright, hrow, rfl, rfl⟩

/-- The registers of a point not found are 0 but for the steps that succeeded (R196). -/
theorem setLocate_locateConsistent_of_not_found (s : State) (n : Nat) {o : LocateOutcome} (ho : o.isFound = false) :
    (s.setLocate n o).regs.LocateConsistent := by
  refine ⟨fun h => ?_, fun _ => ?_, fun _ hfail => ?_, fun _ hfail hfail' => ?_⟩
  · exact absurd (ho.symm.trans h) (by decide)
  · cases o with
    | found => cases ho
    | _ => exact ⟨rfl, rfl, rfl⟩
  · cases o with
    | found => cases ho
    | noRightEdge => exact absurd rfl hfail
    | _ => rfl
  · cases o with
    | found => cases ho
    | noRightEdge => exact absurd rfl hfail
    | noLeftEdge => exact absurd rfl hfail'
    | _ => rfl

theorem setLocate_resultsConsistent {s : State} (h : s.ResultsConsistent) {l n p : Nat} {sel : RowSel} {m : Memory}
    {o : LocateOutcome} (hl : l < 2 ^ 32) (hcap : l ≤ s.params.pixCap) (hn : n = isqrt l)
    (ho : locateOutcome sel m n p = .ok o) : (s.setLocate n o).ResultsConsistent := by
  obtain ⟨hsq, -⟩ := isqrt_spec l
  rw [← hn] at hsq
  have hn16 : n < 2 ^ 16 := Nat.mul_self_lt_mul_self_iff.mp (hsq.trans_lt hl)
  have hside : (s.setLocate n o).regs.side.toNat * (s.setLocate n o).regs.side.toNat ≤ s.params.pixCap := by
    rw [State.setLocate_regs_side, toNat_half_of_lt hn16]
    exact hsq.trans hcap
  cases o with
  | found row left right =>
    obtain ⟨hrow, hleft, hmid, hright⟩ := locateOutcome_found_bounds ho
    exact { h with
      status := fun _ => rfl
      locate := setLocate_found_locateConsistent s hn16 hrow hleft hmid hright
      side := hside }
  | noProbeRow | noLeftEdge | noRightEdge | probeOutOfRange =>
    exact { h with
      status := fun hf => by cases hf
      locate := setLocate_locateConsistent_of_not_found s n rfl
      side := hside }

theorem commandEffect_resultsConsistent {c : Command} {s t : State} (h : s.ResultsConsistent)
    (ht : commandEffect c s = .ok t) : t.ResultsConsistent := by
  cases c with
  | nop =>
    cases ht
    exact h
  | convert =>
    cases ht
    exact setConv_resultsConsistent h _
  | scorePix =>
    cases ht
    exact setScore_resultsConsistent (setConv_resultsConsistent h _) _ _ _
  | scoreHsv =>
    cases ht
    exact setScore_resultsConsistent h _ _ _
  | mask => rcases maskEffect_cases ht with ⟨-, rfl⟩ | ⟨-, out, -, rfl⟩ <;> exact { h with }
  | locate =>
    rcases locateEffect_cases ht with ⟨-, rfl⟩ | ⟨hlen, o, ho, rfl⟩
    · exact { h with }
    · exact setLocate_resultsConsistent h s.regs.maskLen.isLt hlen rfl ho
  | frame =>
    rcases frameEffect_writes ht with ⟨-, rfl⟩ | ⟨hlen, out, o, -, ho, rfl⟩
    · exact { h with }
    · have hmask : (s.setMask out s.regs.pixelCount).ResultsConsistent := { h with }
      exact setLocate_resultsConsistent hmask (pixelCount_lt s.regs) hlen rfl ho

/-! A host write, and the resets. -/

/-- A register write changes no result register, and of STATUS the W1C bits only (R78). -/
theorem writeReg_resultsConsistent {s : State} (h : s.ResultsConsistent) (r : Reg) (d : Word) :
    (s.writeReg r d).ResultsConsistent := by
  cases r <;> exact { h with }

theorem memWrite_resultsConsistent {s : State} (h : s.ResultsConsistent) (which : MemId) (off n : Nat) (d : Word) :
    (s.memWrite which off n d).ResultsConsistent := by
  cases which <;> exact { h with }

/-- Every result register is 0 after reset (R251). -/
theorem resultsConsistent_of_regs_reset {s : State} (h : s.regs = Regs.reset) : s.ResultsConsistent := by
  constructor <;> rw [h]
  · decide
  · decide
  · decide
  · decide
  · exact Nat.zero_le _

/-- Where no command is pending the latch has nothing to hold (R260). -/
theorem latchConsistent_of_pend_none {s : State} (h : s.pend = none) : s.LatchConsistent := fun hp => absurd h hp

theorem pend_none_of_idle {s : State} (h : s.busy = false) : s.pend = none := by
  by_contra hp
  rw [(s.busy_iff_pend).mpr hp] at h
  cases h

section Steps
variable {s u : State}

theorem BlockStep.resultsConsistent (hu : BlockStep s u) (h : s.ResultsConsistent) : u.ResultsConsistent := by
  cases hu with
  | complete _ he =>
    have heffect := commandEffect_resultsConsistent h he
    exact { heffect with }
  | unchanged => exact h
  | hardReset => exact resultsConsistent_of_regs_reset rfl
  | softReset => exact resultsConsistent_of_regs_reset rfl
  | start | reserved | dropped => exact { h with }
  | regWrite r d => exact writeReg_resultsConsistent h r d
  | memWrite => exact memWrite_resultsConsistent h _ _ _ _

theorem BlockStep.latchConsistent (hu : BlockStep s u) (h : s.LatchConsistent) : u.LatchConsistent := by
  cases hu with
  | complete | hardReset | softReset => exact latchConsistent_of_pend_none rfl
  | start => exact fun _ => rfl
  | unchanged | reserved | dropped => exact h
  | regWrite _ _ hb => exact latchConsistent_of_pend_none (pend_none_of_idle hb)
  | memWrite _ _ _ hb =>
    exact latchConsistent_of_pend_none ((State.memWrite_pend _ _ _ _ _).trans (pend_none_of_idle hb))

end Steps

/-- Settles O49: the latch and the results, each by the cases of the block's step. -/
theorem stepKeepsResultsConsistent : Obligations.StepKeepsResultsConsistent := by
  rintro s t ⟨hlatch, hstatus, hconv, hscore, hlocate, hside⟩ hstep
  obtain ⟨u, script, replies, turns, hu, rfl⟩ := step_block hstep
  obtain ⟨hstatus', hconv', hscore', hlocate', hside'⟩ :=
    hu.resultsConsistent ⟨hstatus, hconv, hscore, hlocate, hside⟩
  exact ⟨hu.latchConsistent hlatch, hstatus', hconv', hscore', hlocate', hside'⟩

/-- Settles O50: the memories are empty, PEND is none and every result register is 0. -/
theorem resetMeetsInvariant : Obligations.ResetMeetsInvariant := by
  obtain ⟨hstatus, hconv, hscore, hlocate, hside⟩ := resultsConsistent_of_regs_reset (s := State.reset) rfl
  exact ⟨by decide, hardReset_memoryConsistent State.reset, latchConsistent_of_pend_none rfl, hstatus, hconv, hscore,
    hlocate, hside⟩

end Sys2Proof.Machine
end

section
/-! PROOFS. What stops a step (R128, R226), and what raises BUSY, DONE and the error bits (R221, R260): each by the cases of the
block's step. -/

namespace Sys2Proof.Machine

open Sys2Proof.Claims

/-! The stops. -/

section Stops
variable {s : State} {f : Fault}

/-- MASK faults on an unwritten PIXBUF byte only (R182). -/
theorem maskEffect_error (h : maskEffect s = .error f) : ∃ o, f = .uninitRead .pixbuf o ∧ s.pixbuf.read o = none := by
  rcases lt_or_ge s.params.pixCap s.regs.pixelCount with hlen | hlen
  · rw [maskEffect_of_oversize hlen] at h
    cases h
  · rw [maskEffect_of_fits hlen] at h
    cases hloop : maskLoop s.regs s.pixbuf s.regs.pixelCount 0 s.maskbuf with
    | ok out =>
      rw [hloop] at h
      cases h
    | error g =>
      rw [hloop] at h
      cases h
      obtain ⟨o, -, -, hf, hnone, -⟩ := maskLoop_error _ _ _ hloop
      exact ⟨o, hf, hnone⟩

/-- LOCATE faults on an unwritten MASKBUF byte only (R198). -/
theorem locateEffect_error (h : locateEffect s = .error f) :
    ∃ o, f = .uninitRead .maskbuf o ∧ s.maskbuf.read o = none := by
  rcases lt_or_ge s.params.pixCap s.regs.maskLength with hlen | hlen
  · rw [locateEffect_of_oversize hlen] at h
    cases h
  · rw [locateEffect_of_fits hlen] at h
    cases ho : locateOutcome s.regs.rowSel s.maskbuf (isqrt s.regs.maskLength) s.regs.probe with
    | ok o =>
      rw [ho] at h
      cases h
    | error g =>
      rw [ho] at h
      cases h
      obtain ⟨-, o, hf, hnone, -⟩ := locateOutcome_error ho
      exact ⟨o, hf, hnone⟩

/-- FRAME faults in its mask phase only (R199). -/
theorem frameEffect_error (h : frameEffect s = .error f) : maskEffect s = .error f := by
  rcases lt_or_ge s.params.pixCap s.regs.pixelCount with hlen | hlen
  · rw [frameEffect_of_oversize hlen] at h
    cases h
  · rw [frameEffect_of_fits hlen] at h
    cases hmask : maskEffect s with
    | error g =>
      rw [hmask] at h
      exact h
    | ok t =>
      rw [hmask] at h
      rcases maskEffect_cases hmask with ⟨hover, -⟩ | ⟨-, out, hout, rfl⟩
      · omega
      · obtain ⟨o, hok⟩ := locateEffect_of_mask hlen (written_maskLoop hout)
        cases h.symm.trans hok

/-- The only stops of a command: MASK, LOCATE and FRAME, on an unwritten byte (R128, R226). -/
theorem commandEffect_error {c : Command} (h : commandEffect c s = .error f) :
    (c = .mask ∨ c = .locate ∨ c = .frame) ∧ ∃ which o, f = .uninitRead which o ∧ (s.mem which).read o = none := by
  cases c with
  | nop | convert | scorePix | scoreHsv => cases h
  | mask => exact ⟨.inl rfl, .pixbuf, maskEffect_error h⟩
  | locate => exact ⟨.inr (.inl rfl), .maskbuf, locateEffect_error h⟩
  | frame => exact ⟨.inr (.inr rfl), .pixbuf, maskEffect_error (frameEffect_error h)⟩

/-- A host read faults where one of its bytes is unwritten (R81). -/
theorem State.memRead_error {which : MemId} {off n : Nat} (h : s.memRead which off n = .error f) :
    f = .uninitRead which off ∧ ∃ k < n, (s.mem which).read (off + k) = none := by
  cases hv : (s.mem which).readLe off n with
  | some v => simp [State.memRead, hv] at h
  | none =>
    refine ⟨by simpa [State.memRead, hv] using h.symm, ?_⟩
    have hnot : ¬ ∀ k < n, ((s.mem which).read (off + k)).isSome = true :=
      ((s.mem which).readLe_isSome off n).not.mp (by simp [hv])
    push Not at hnot
    simpa using hnot

theorem runTxn_ne_refused (tx : Txn) (r : Refusal) : runTxn tx s ≠ .refused r := by
  cases tx with
  | read a sz =>
    simp only [runTxn, readTxn]
    (repeat' split) <;> simp
  | write a sz d =>
    simp only [runTxn, writeTxn]
    split
    case h_2 => exact mapNext_eq_refused.not.mpr (exec_ne_refused _ _ _)
    all_goals simp

theorem hostStep_ne_refused (r : Refusal) : hostStep s ≠ .refused r := by
  unfold hostStep
  split
  case h_2 => exact mapNext_eq_refused.not.mpr (runTxn_ne_refused _ _)
  all_goals simp

theorem step_ne_refused (r : Refusal) : step s ≠ .refused r := by
  refine mapNext_eq_refused.not.mpr ?_
  unfold agentStep
  split
  · split
    · exact exec_ne_refused _ _ _
    · exact hostStep_ne_refused r
  · exact hostStep_ne_refused r

end Stops

/-- Settles O51: a fault is that of a command's effect or of a host read, and both name an unwritten byte. -/
theorem stepStopsOnlyOnUnwrittenByte : Obligations.StepStopsOnlyOnUnwrittenByte := by
  refine ⟨fun s f h => ?_, fun s r => step_ne_refused r⟩
  rcases step_fault_cases h with ⟨c, hc, hf⟩ | ⟨hb, a, sz, rest, which, off, hs, ht, hf⟩
  · obtain ⟨hcmd, which, o, rfl, hnone⟩ := commandEffect_error hf
    refine ⟨which, o, 0, rfl, hnone, .inl ⟨rfl, ?_⟩⟩
    rcases hcmd with rfl | rfl | rfl
    · exact .inl hc
    · exact .inr (.inl hc)
    · exact .inr (.inr hc)
  · obtain ⟨rfl, k, hk, hnone⟩ := State.memRead_error hf
    have hm : s.sequencerMoves = false := Bool.eq_false_iff.mpr fun hm => by
      rw [State.sequencerMoves_busy hm] at hb
      cases hb
    exact ⟨which, off, k, rfl, hnone, .inr ⟨hb, a, sz, ⟨hm, rest, hs⟩, hk, memAccess_of_target ht⟩⟩

/-! BUSY. -/

theorem commandCode_le (c : Command) : (commandCode c).toNat ≤ 0x6 := by
  cases c <;> decide

/-- Settles O52: of what a step makes of the block only a start sets PEND, and only a completion and the resets clear it. -/
theorem busyOrigins : Obligations.BusyOrigins := by
  intro s t hstep
  obtain ⟨u, script, replies, turns, hu, rfl⟩ := step_block hstep
  change (s.busy = false → u.busy = true → _) ∧ (s.busy = true → u.busy = false → _)
  cases hu with
  | complete hc =>
    exact ⟨fun _ h => (by cases h), fun _ _ => .inl (State.completes_iff.mp hc).2⟩
  | hardReset h => exact ⟨fun _ h => (by cases h), fun _ _ => .inr (.inl h)⟩
  | softReset h h31 => exact ⟨fun _ h => (by cases h), fun _ _ => .inr (.inr ⟨_, h, h31⟩)⟩
  | start h h31 hc hb =>
    refine ⟨fun _ _ => ⟨_, h, h31, ?_⟩, fun h => absurd (hb.symm.trans h) (by decide)⟩
    rw [hc]
    exact commandCode_le _
  | unchanged | reserved | dropped | regWrite =>
    exact ⟨fun h h' => absurd (h.symm.trans h') (by decide), fun h h' => absurd (h.symm.trans h') (by decide)⟩
  | memWrite =>
    simp only [State.busy, State.memWrite_pend]
    exact ⟨fun h h' => absurd (h.symm.trans h') (by decide), fun h h' => absurd (h.symm.trans h') (by decide)⟩

/-! DONE and the error bits. -/

/-- No effect touches ERR_CMD or ERR_WBUSY, and ERR_LEN is raised by a failed length check only (R181, R191). -/
theorem commandEffect_errors {c : Command} {s t : State} (h : commandEffect c s = .ok t) :
    t.regs.status.errCmd = s.regs.status.errCmd ∧ t.regs.status.errWbusy = s.regs.status.errWbusy ∧
      (t.regs.status.errLen = s.regs.status.errLen ∨
        (c = .mask ∧ s.params.pixCap < s.regs.pixelCount) ∨ (c = .frame ∧ s.params.pixCap < s.regs.pixelCount) ∨
          (c = .locate ∧ s.params.pixCap < s.regs.maskLength)) := by
  cases c with
  | nop | convert | scorePix | scoreHsv =>
    cases h
    exact ⟨rfl, rfl, .inl rfl⟩
  | mask =>
    rcases maskEffect_cases h with ⟨hlen, rfl⟩ | ⟨-, out, -, rfl⟩
    · exact ⟨rfl, rfl, .inr (.inl ⟨rfl, hlen⟩)⟩
    · exact ⟨rfl, rfl, .inl rfl⟩
  | locate =>
    rcases locateEffect_cases h with ⟨hlen, rfl⟩ | ⟨-, o, -, rfl⟩
    · exact ⟨rfl, rfl, .inr (.inr (.inr ⟨rfl, hlen⟩))⟩
    · exact ⟨rfl, rfl, .inl rfl⟩
  | frame =>
    rcases frameEffect_writes h with ⟨hlen, rfl⟩ | ⟨-, out, o, -, -, rfl⟩
    · exact ⟨rfl, rfl, .inr (.inr (.inl ⟨rfl, hlen⟩))⟩
    · exact ⟨rfl, rfl, .inl rfl⟩

/-- A register write raises no bit of STATUS (R24, R78). -/
theorem writeReg_status (s : State) (r : Reg) (d : Word) :
    (s.writeReg r d).regs.status = s.regs.status ∨ (s.writeReg r d).regs.status = s.regs.status.clearW1C d := by
  cases r with
  | status => exact .inr rfl
  | _ => exact .inl rfl

/-- No bit that is 0 in `st` is 1 in `st'`. -/
structure Status.RaisesNone (st st' : Status) : Prop where
  done : st.done = false → st'.done = false
  errCmd : st.errCmd = false → st'.errCmd = false
  errWbusy : st.errWbusy = false → st'.errWbusy = false
  errLen : st.errLen = false → st'.errLen = false

theorem Status.RaisesNone.refl (st : Status) : st.RaisesNone st := ⟨id, id, id, id⟩

/-- Clearing W1C bits raises none (R24). -/
theorem Status.raisesNone_clearW1C (st : Status) (d : Word) : st.RaisesNone (st.clearW1C d) := by
  constructor <;> intro h <;> simp [Status.clearW1C, h]

/-- The steps that raise a bit of STATUS: a completion, a reserved code while idle, a write dropped while BUSY (R221). -/
theorem BlockStep.raises_cases {s u : State} (hu : BlockStep s u) :
    (∃ c v, s.completes c = true ∧ commandEffect c s = .ok v ∧ u = v.finish) ∨
      s.regs.status.RaisesNone u.regs.status ∨
        (u = s.signalErrCmd ∧ s.busy = false ∧
          ∃ w : Word, HostCommands s w ∧ w.getLsbD 31 = false ∧ 0x7 ≤ (w.extractLsb' 0 4).toNat) ∨
          (u = s.signalErrWbusy ∧ s.busy = true ∧ ∃ a sz d, HostDoes s (.txn (.write a sz d)) ∧
            ¬ BusErrorCase s.params a.toNat sz.bytes ∧ ¬ (a = 0x00008 ∧ d.getLsbD 31 = true)) := by
  cases hu with
  | complete hc hv => exact .inl ⟨_, _, hc, hv, rfl⟩
  | unchanged => exact .inr (.inl (.refl _))
  | hardReset | softReset => exact .inr (.inl ⟨fun _ => rfl, fun _ => rfl, fun _ => rfl, fun _ => rfl⟩)
  | start => exact .inr (.inl ⟨fun _ => rfl, id, id, id⟩)
  | reserved h h31 hc hb => exact .inr (.inr (.inl ⟨rfl, hb, _, h, h31, hc⟩))
  | dropped h he hs hb => exact .inr (.inr (.inr ⟨rfl, hb, _, _, _, h, he, hs⟩))
  | regWrite r d =>
    refine .inr (.inl ?_)
    rcases writeReg_status s r d with hst | hst <;> rw [hst]
    · exact .refl _
    · exact Status.raisesNone_clearW1C _ d
  | memWrite =>
    rw [State.memWrite_regs]
    exact .inr (.inl (.refl _))

/-- A bit that keeps its 0 does not rise. -/
theorem not_rises {b b' : Bool} {P : Prop} (hkeep : b = false → b' = false) (h : b = false) (h' : b' = true) : P := by
  rw [hkeep h] at h'
  cases h'

/-- Settles O53: the bits of each step that raises any, by `BlockStep.raises_cases`, a completion's by `commandEffect_errors`. -/
theorem statusBitOrigins : Obligations.StatusBitOrigins := by
  intro s t hstep
  obtain ⟨u, script, replies, turns, hu, rfl⟩ := step_block hstep
  rcases hu.raises_cases with ⟨c, v, hc, hv, rfl⟩ | hnone | ⟨rfl, hb, hcause⟩ | ⟨rfl, hb, hcause⟩
  · obtain ⟨hcmd, hwbusy, hlen⟩ := commandEffect_errors hv
    refine ⟨fun _ _ => (State.completes_iff.mp hc).2, not_rises hcmd.trans, not_rises hwbusy.trans, fun h h' => ?_⟩
    rcases hlen with hkeep | ⟨rfl, hlen⟩ | ⟨rfl, hlen⟩ | ⟨rfl, hlen⟩
    · exact not_rises hkeep.trans h h'
    · exact .inl ⟨hc, hlen⟩
    · exact .inr (.inl ⟨hc, hlen⟩)
    · exact .inr (.inr ⟨hc, hlen⟩)
  · exact ⟨not_rises hnone.done, not_rises hnone.errCmd, not_rises hnone.errWbusy, not_rises hnone.errLen⟩
  · exact ⟨not_rises id, fun _ _ => ⟨hb, hcause⟩, not_rises id, not_rises id⟩
  · exact ⟨not_rises id, not_rises id, fun _ _ => ⟨hb, hcause⟩, not_rises id⟩

/-- Settles O56: while BUSY a host step that is no reset leaves the block as it is or drops a write. -/
theorem inputsStableWhileBusy : Obligations.InputsStableWhileBusy := by
  intro s t hstep hbusy hm hhard hsoft
  obtain ⟨u, script, replies, turns, hu, rfl⟩ := step_block hstep
  cases hu with
  | unchanged | dropped => exact ⟨rfl, rfl, rfl, rfl, rfl⟩
  | complete hc => simp [State.completes_of_host hm] at hc
  | hardReset h => exact absurd h hhard
  | softReset h h31 => exact absurd ⟨_, h, h31⟩ hsoft
  | start _ _ _ hb | reserved _ _ _ hb | regWrite _ _ hb | memWrite _ _ _ hb =>
    rw [hbusy] at hb
    cases hb

end Sys2Proof.Machine
end

section
/-! PROOFS. The register map (R20 to R47), the step of each agent as `exec` (R85, R120), bus errors (R75) and hard reset (R250,
R251). -/

namespace Sys2Proof.Machine

open Sys2Proof.Claims

/-! The register map. -/

/-- A 16-bit field reads with 16 zero bits above it (R46). -/
theorem halfWord_eq_append (h : Half) : halfWord h = (0 : Half) ++ h :=
  BitVec.setWidth_eq_append (by decide)

theorem convHnWord_eq_append (h : BitVec 11) : (h.setWidth 32 : Word) = (0 : BitVec 21) ++ h :=
  BitVec.setWidth_eq_append (by decide)

theorem intEnWord_eq_append : ∀ b b' : Bool,
    IntEn.word ⟨b, b'⟩ = (0 : BitVec 30) ++ BitVec.ofBool b' ++ BitVec.ofBool b := by
  decide

theorem scoreOutWord_eq_append (o : ScoreOut) :
    o.word = (0 : BitVec 22) ++ BitVec.ofBool o.neg ++ BitVec.ofBool o.gate ++ o.byte := by
  have hflags : ∀ neg gate : Bool,
      ((0 : BitVec 22) ++ BitVec.ofBool neg ++ BitVec.ofBool gate).setWidth 32 <<< 8 = bitAt 8 gate ||| bitAt 9 neg := by
    decide
  rw [← BitVec.setWidth_eq (x := _ ++ o.byte), BitVec.setWidth_append_eq_shiftLeft_setWidth_or, hflags, BitVec.or_comm,
    ← BitVec.or_assoc]
  rfl

theorem statusWord_eq_statusFields (s : State) : s.statusWord = statusFields s := by
  have hbusy : decide (s.pend ≠ none) = s.busy := by rw [Bool.eq_iff_iff, s.busy_iff_pend]; simp
  unfold State.statusWord statusFields
  rw [hbusy]
  generalize s.busy = busy
  obtain ⟨done, found, fail, errCmd, errWbusy, errLen⟩ := s.regs.status
  revert busy done found errCmd errWbusy errLen
  cases fail <;> decide

theorem rowSelWord (r : RowSel) : r.word = if r = .topmost then 1 else 0 := by
  cases r <;> rfl

theorem regAt_reserved {a : Nat} (h : 0x060 ≤ a) : regAt a = .reserved := by
  unfold regAt
  split
  case h_25 => rfl
  all_goals omega

/-- Settles O37: `statusWord_eq_statusFields`. -/
theorem statusReadsItsFields : Obligations.StatusReadsItsFields := statusWord_eq_statusFields

/-- Settles O36: each offset names its register, whose word is the fields appended. -/
theorem registerMapReads : Obligations.RegisterMapReads := by
  intro s
  refine ⟨rfl, rfl, rfl, statusWord_eq_statusFields s, halfWord_eq_append _, halfWord_eq_append _, halfWord_eq_append _,
    halfWord_eq_append _, halfWord_eq_append _, rfl, rfl, rfl, halfWord_eq_append _, halfWord_eq_append _,
    halfWord_eq_append _, rfl, convHnWord_eq_append _, scoreOutWord_eq_append _, rfl, halfWord_eq_append _, rfl,
    halfWord_eq_append _, intEnWord_eq_append _ _, rowSelWord _, fun a ha _ => ?_⟩
  rw [regAt_reserved ha]
  rfl

/-! The agents' steps. -/

/-- Settles O5: the host's transaction is the CTRL write, which is `exec` of its word. -/
theorem stepRunsCommandWord : Obligations.StepRunsCommandWord := by
  rintro s w ⟨hm, rest, hs⟩
  have ht := target_reg s.params 0x00008 (by decide) (by decide)
  have hctrl : regAt (0x00008 : Offset).toNat = .ctrl := rfl
  rw [step_txn hm hs, runTxn, writeTxn, ht, hctrl]
  cases exec (decode w) s <;> rfl

/-- Settles O6: where the sequencer moves the agent's step is `exec` of what is pending. -/
theorem stepRunsPendingCommand : Obligations.StepRunsPendingCommand := by
  intro s c h
  obtain ⟨hp, hm⟩ := State.completes_iff.mp h
  have hagent : agentStep s = exec c.instr s := by simp [agentStep, hp, hm]
  rw [step, hagent]
  cases exec c.instr s <;> rfl

/-! Bus errors. -/

theorem target_of_busErrorCase {p : Config.Params} {a : Offset} {sz : Size} (h : BusErrorCase p a.toNat sz.bytes) :
    target p a sz = .busError :=
  (target_busError_iff p a sz).mpr h

section BusErrors
variable {s : State} {a : Offset} {sz : Size} {d : Word}

theorem readTxn_busError (h : target s.params a sz = .busError) : readTxn a sz s = .next (s.answer (.read 0 .error)) := by
  simp [readTxn, h]

theorem writeTxn_busError (h : target s.params a sz = .busError) :
    writeTxn a sz d s = .next (s.answer (.write .error)) := by
  simp [writeTxn, h]

/-- What is no bus error is answered OKAY where it answers (R75, R80, R81). -/
theorem readTxn_okay {t : State} (he : target s.params a sz ≠ .busError) (h : readTxn a sz s = .next t) :
    ∃ v, t = s.answer (.read v .okay) := by
  cases ht : target s.params a sz with
  | busError => exact absurd ht he
  | reg r =>
    rw [readTxn_reg ht] at h
    exact ⟨_, (Host.Outcome.next.inj h).symm⟩
  | mem which off =>
    cases hb : s.busy with
    | true =>
      rw [readTxn_mem_busy ht hb] at h
      exact ⟨_, (Host.Outcome.next.inj h).symm⟩
    | false =>
      cases hv : s.memRead which off sz.bytes with
      | ok v =>
        rw [readTxn_mem_ok ht hb hv] at h
        exact ⟨v, (Host.Outcome.next.inj h).symm⟩
      | error f =>
        rw [readTxn_mem_error ht hb hv] at h
        cases h

/-- A host's write always answers, with OKAY where it is no bus error (R77 to R79, R82). -/
theorem writeTxn_okay (hm : s.sequencerMoves = false) (he : target s.params a sz ≠ .busError) :
    ∃ u : State, writeTxn a sz d s = .next (u.answer (.write .okay)) ∧ u.replies = s.replies := by
  by_cases hc : target s.params a sz = .reg .ctrl
  · obtain ⟨u, hu⟩ := exec_host_next hm (decode d)
    exact ⟨u, writeTxn_ctrl hc hu, (exec_host_side hm hu).2⟩
  · cases hb : s.busy with
    | true => exact ⟨_, writeTxn_busy hb he hc, rfl⟩
    | false =>
      cases ht : target s.params a sz with
      | busError => exact absurd ht he
      | reg r => exact ⟨_, writeTxn_reg_idle ht (fun hr => hc (hr ▸ ht)) hb, rfl⟩
      | mem which off => exact ⟨_, writeTxn_mem_idle ht hb, State.memWrite_replies _ _ _ _ _⟩

end BusErrors

/-- Settles O40: the cases of R75 are those in which the target is a bus error, and every other target answers OKAY. -/
theorem busErrorsExactly : Obligations.BusErrorsExactly := by
  intro s a sz d
  refine ⟨fun h he => step_of_answer h (readTxn_busError (target_of_busErrorCase he)),
    fun h he => step_of_answer h (writeTxn_busError (target_of_busErrorCase he)), fun h he t ht => ?_, fun h he => ?_⟩
  · obtain ⟨hm, rest, hs⟩ := h
    rw [step_txn hm hs] at ht
    obtain ⟨u, hu, rfl⟩ := mapNext_eq_next ht
    obtain ⟨v, hv, rfl⟩ := mapNext_eq_next hu
    obtain ⟨d', rfl⟩ := readTxn_okay (target_ne_busError he) hv
    exact ⟨d', rfl⟩
  · obtain ⟨u, hu, hr⟩ := writeTxn_okay (d := d) h.1 (target_ne_busError he)
    exact ⟨_, step_of_answer h hu, congrArg _ hr⟩

/-! Hard reset. -/

/-- Settles O45: the step is `State.hardReset`, which keeps the host's side. -/
theorem hardResetStep : Obligations.HardResetStep := by
  rintro s ⟨hm, rest, hs⟩
  exact ⟨_, step_hardReset hm hs, rfl, rfl, rfl, rfl, fun _ => ⟨rfl, rfl⟩, rfl, rfl⟩

/-- Settles O46: register by register; the memories are empty. -/
theorem resetRegisterValues : Obligations.ResetRegisterValues := by
  refine ⟨fun r => ?_, rfl, rfl, fun _ => ⟨rfl, rfl⟩⟩
  cases r with
  | id | param | tgtH | tgtS | tgtV | probeCol => decide
  | _ => exact readReg_reset_eq_zero (by decide)

/-- Settles O60: both states have the registers and the empty memories of the start state. -/
theorem hardResetIsClean : Obligations.HardResetIsClean := by
  refine ⟨StartState.launch_clean (start := .hardReset Config.Params.ctbCore1) [] [] (by decide), fun s t h hstep => ?_⟩
  obtain ⟨hm, rest, hs⟩ := h
  obtain rfl := Host.Outcome.next.inj ((step_hardReset hm hs).symm.trans hstep)
  exact ⟨rfl, (by decide : State.reset.statusWord = 0), ⟨rfl, rfl⟩, fun _ => rfl, fun _ => rfl⟩

end Sys2Proof.Machine
end

section
/-! PROOFS. Host scripts (R107 to R109): the polling loop as reads of STATUS, its end in a completion, and the answers of a run as
the encoding of its script. -/

namespace Sys2Proof.Machine

open Sys2Proof.Claims

/-! The polling loop. -/

theorem statusWord_busy (s : State) : s.statusWord.getLsbD 0 = s.busy := by
  simp [getElem_statusWord]

/-- While BUSY a poll goes on (R108). -/
theorem pollStatus_busy {s : State} (h : s.busy = true) : pollStatus s = s.answer (.read s.statusWord .okay) := by
  simp only [pollStatus, statusWord_busy, h, if_true]

theorem pollStatus_idle {s : State} (h : s.busy = false) :
    pollStatus s = (s.answer (.read s.statusWord .okay)).popScript := by
  simp only [pollStatus, statusWord_busy, h, Bool.false_eq_true, if_false]

/-- The step of a `wait`: a poll, after which the `wait` stays in front exactly while BUSY (R108). -/
theorem step_wait_eq {s : State} {rest : List HostOp} (hm : s.sequencerMoves = false) (hs : s.script = .wait :: rest) :
    step s = .next { s with
      script := if s.busy = true then .wait :: rest else rest
      replies := .read s.statusWord .okay :: s.replies
      turns := s.turns.tail } := by
  rw [step_wait hm hs]
  cases hb : s.busy with
  | true =>
    rw [pollStatus_busy hb, if_pos rfl, ← hs]
    rfl
  | false =>
    have hrest : s.script.tail = rest := by rw [hs]; rfl
    rw [pollStatus_idle hb, if_neg (by decide), ← hrest]
    rfl

/-- The step of a read of STATUS (R76). -/
theorem step_read_status {s : State} {rest : List HostOp} (hm : s.sequencerMoves = false)
    (hs : s.script = .txn (.read 0x0000C .four) :: rest) :
    step s = .next { s with
      script := rest
      replies := .read s.statusWord .okay :: s.replies
      turns := s.turns.tail } := by
  have hrest : s.script.tail = rest := by rw [hs]; rfl
  have hread : readTxn 0x0000C .four s = .next (s.answer (.read s.statusWord .okay)) :=
    readTxn_reg (r := .status) (target_reg s.params 0x0000C (by decide) (by decide))
  rw [step_of_answer ⟨hm, rest, hs⟩ hread, ← hrest]
  rfl

/-- Settles O58: both steps answer the same read of STATUS, and the scripts they leave are equal by its bit BUSY. -/
theorem waitPollsStatus : Obligations.WaitPollsStatus := by
  intro s rest hm
  have hbit : (readReg s .status).getLsbD 0 = s.busy := statusWord_busy s
  rw [hbit]
  exact (step_wait_eq (s := { s with script := .wait :: rest }) hm rfl).trans
    (step_read_status (s := { s with script := .txn _ :: if s.busy = true then .wait :: rest else rest }) hm rfl).symm

/-- A poll while a command is pending and the host has the turn. -/
theorem step_poll {s : State} {rest : List HostOp} {turns : List Agent} (hb : s.busy = true)
    (hs : s.script = .wait :: rest) (ht : s.turns = .host :: turns) :
    step s = .next { s with replies := .read s.statusWord .okay :: s.replies, turns := turns } := by
  have hm : s.sequencerMoves = false := by simp [State.sequencerMoves, ht]
  rw [step_wait_eq hm hs, if_pos hb, ← hs, ht]
  rfl

/-- Settles O57: by induction on the number of turns left to the host, each of which is a poll that reads the same STATUS. -/
theorem waitEndsInCompletion : Obligations.WaitEndsInCompletion := by
  intro s c rest k hp hs ht
  refine ⟨?_, State.completes_iff.mpr ⟨hp, by simp [State.sequencerMoves, State.busy, hp]⟩⟩
  induction k generalizing s with
  | zero =>
    have hturns : s.turns = [] := ht
    rw [core_run_one, ← hturns]
    rfl
  | succ k ih =>
    have hpoll := core_run_next (k + 1) (step_poll (s.busy_some c hp) hs ht)
    have hrest := ih { s with
      replies := .read s.statusWord .okay :: s.replies
      turns := List.replicate k .host } hp hs rfl
    rw [List.replicate_succ', List.append_assoc]
    exact hpoll.trans hrest

/-! The answers of a run. -/

/-- A run that answers goes on from a first step that answers. -/
theorem run_succ_next {M : Host.Core} {k : Nat} {s t : M.State} (h : M.run (k + 1) s = .next t) :
    ∃ u, M.step s = .next u ∧ M.run k u = .next t := by
  cases hstep : M.step s with
  | next u => exact ⟨u, rfl, by rwa [run_next M k hstep] at h⟩
  | fault f => simp [Host.Core.run, hstep] at h
  | refused r => simp [Host.Core.run, hstep] at h

/-- A step's answers, in front of an encoding of the script after it, are an encoding of the script before it: a poll that goes on
adds one to the number of polls of its `wait` (R108, R109). -/
theorem step_answers {s t : State} (h : step s = .next t) (busy : List Nat) :
    ∃ (busy' : List Nat) (answers : List Reply), t.replies = answers.reverse ++ s.replies ∧
      answers.map Reply.op ++ (encodeScript t.script busy).map Prod.fst =
        (encodeScript s.script busy').map Prod.fst := by
  rcases step_cases h with ⟨c, u, -, hu, rfl⟩ | ⟨-, -, rfl⟩ | ⟨hm, ⟨rest, hs⟩, -⟩ | ⟨-, ⟨rest, hs⟩, rfl⟩ |
    ⟨hm, tx, rest, u, hs, hu, rfl⟩
  · obtain ⟨-, hscript, hreplies, -⟩ := commandEffect_frame hu
    exact ⟨busy, [], hreplies, by simp [hscript]⟩
  · exact ⟨busy, [], rfl, rfl⟩
  · have hstep := Host.Outcome.next.inj (h.symm.trans (step_wait_eq hm hs))
    rw [hstep, hs]
    cases hb : s.busy with
    | true => exact ⟨(busy.headD 0 + 1) :: busy.tail, [.read s.statusWord .okay], rfl, rfl⟩
    | false => exact ⟨0 :: busy, [.read s.statusWord .okay], rfl, rfl⟩
  · refine ⟨busy, [], rfl, ?_⟩
    simp [encodeScript, hs]
  · obtain ⟨hscript, r, hreplies, hop⟩ := runTxn_replies hm hu
    refine ⟨busy, [r], hreplies, ?_⟩
    simp [encodeScript, hscript, hs, hop]

/-- Settles O59: by induction on the steps of the run, with `step_answers` for its first step. -/
theorem runAnswersEncoding : Obligations.RunAnswersEncoding := by
  intro n
  induction n with
  | zero =>
    intro s t h ht
    obtain rfl : s = t := Host.Outcome.next.inj h
    exact ⟨[], [], rfl, by rw [ht]; rfl⟩
  | succ n ih =>
    intro s t h ht
    obtain ⟨u, hstep, hrun⟩ := run_succ_next h
    obtain ⟨busy, answers, hreplies, hop⟩ := ih u t hrun ht
    obtain ⟨busy', answered, hanswered, hansweredOp⟩ := step_answers hstep busy
    exact ⟨busy', answered ++ answers, by simp [hreplies, hanswered], by rw [List.map_append, hop, hansweredOp]⟩

end Sys2Proof.Machine
end
